-- ==== Sys2Proof/Word.lean ====
section
/-! DEFINITION. The word type of the block: a byte, "an unsigned 8-bit value, 0 to 255" (rule R6).
Every field of both streams is one byte wide (R30, R50). -/

namespace Sys2Proof

/-- A byte, the source's `u8`; bit 0 is the least significant bit (R6). -/
abbrev Byte := BitVec 8

end Sys2Proof
end

