-- ==== Sys2Proof/Config.lean ====
section
/-! DEFINITION. The implementation parameters of rule R5: the opcode table, `OP_TOOL_ACTION` and the two
widths that may be overridden, as one record, and the one free value of the model (log 9).
The constants of the encodings (`START_BYTE`, `POLY`, header size) stand in `Decode.lean`,
`Machine/Crc.lean` and `Machine/Operands.lean`, beside the definitions that use them. -/

namespace Sys2Proof

/-- `MAX_BODY`, "Maximum payload size is 32 bytes" (R5). -/
abbrev maxBody : Nat := 32

/-- `BUF_SIZE` = `MAX_BODY + 4` (R5, R11). -/
abbrev bufSize : Nat := 36

/-- A body length that passed the range check `0 <= L <= MAX_BODY` (R13).
"An FA operation with `L > 32` cannot occur; a model should make it unrepresentable" (R95); log 12. -/
abbrev BodyLen := Fin 33

/-- The two length rules a known opcode may have (R23); `n` is an integer (R23, D5). -/
inductive LengthRule
  | fixed (n : Int)
  | embedded
deriving DecidableEq, Repr

/-- A descriptor: `Unknown`, `Known(name, Fixed(n))` or `Known(name, EmbeddedLength)` (R23).
The name "has no effect on any output or state". -/
inductive Descriptor
  | unknown
  | known (name : String) (rule : LengthRule)
deriving DecidableEq, Repr

/-- The length rule of a descriptor, if it is known; the one tag the sequencer tests (C7). -/
def Descriptor.rule? : Descriptor → Option LengthRule
  | .unknown => none
  | .known _ r => some r

/-- `OPTAB`: the entries that are assigned; "every table entry not explicitly assigned a name/length
rule defaults to `Unknown`" (R24). -/
abbrev OpTable := List (Byte × Descriptor)

/-- `OPTAB[o]`: total over the 256 opcodes, a pure lookup that cannot fail (R24). -/
def OpTable.lookup : OpTable → Byte → Descriptor
  | [], _ => .unknown
  | (k, d) :: t, o => if k = o then d else OpTable.lookup t o

/-- A table is well formed when every `Fixed(n)` in it has `0 <= n <= 32` (R24).
The sequencer does not assume it (D22). -/
abbrev OpTable.wf (t : OpTable) : Prop :=
  ∀ o : Byte, match (t.lookup o).rule? with
    | some (.fixed n) => 0 ≤ n ∧ n ≤ 32
    | _ => True

/-- The parameters of R5 that a model takes as arguments. -/
structure Config where
  /-- `OPTAB` (R23, R24) -/
  optab : OpTable
  /-- `OP_TOOL_ACTION`, whose number is not in the source (R116, N2) -/
  opToolAction : Byte
  /-- `COUNT_W`, the width of `BYTES_CONSUMED` (R18, D9) -/
  countW : Nat
  /-- `LEN_W`, the width of the signed `CUR_LENGTH` (R20, D10) -/
  lenW : Nat
deriving DecidableEq, Repr

/-- The length rule `OPTAB` gives an opcode, `none` for `Unknown` (R61). -/
def Config.ruleOf (c : Config) (o : Byte) : Option LengthRule := (c.optab.lookup o).rule?

/-- FREE VALUE (log 9): what a `CUR_LENGTH` of `w` bits holds for a length that does not fit it, which
the spec puts "outside the model" (D5). Nothing is known of it but its width. -/
opaque Config.openLength : (w : Nat) → Int → BitVec w

end Sys2Proof
end

