-- ==== Sys2Proof/Syntax.lean ====
section
/-! DEFINITION. The alphabet of the input stream (R43) and the instructions: one constructor for each
row of spec/opcode_table.json. -/

namespace Sys2Proof

/-- The opaque value of an I/O failure (R21, I9). DESIGN CHOICE: a token is a natural number, log 10. -/
abbrev IoErr := Nat

/-- What the source may present when the sequencer is in an `InRead` (R43).
A list of these is a program: an input stream. -/
inductive InEvent
  /-- `Byte(b)` -/
  | byte (b : Byte)
  /-- `Eos`, end of stream -/
  | eos
  /-- `Err(e)`, an I/O failure -/
  | err (e : IoErr)
  /-- the source has nothing to give yet: the sequencer is held (R8, R164); log 2 -/
  | wait
  /-- more than one of the three at once: an ill-formed environment (R46, I10) -/
  | clash
deriving DecidableEq, Repr

/-- The rows of the opcode table. -/
inductive Instr
  /-- CHANGE_TOOL (R114): opcode `0x86`, `Fixed(1)` -/
  | changeTool
  /-- TOOL_ACTION (R116): opcode `OP_TOOL_ACTION`, `EmbeddedLength` -/
  | toolAction
  /-- OPCODE_00 (R117): opcode `0x00`, `Unknown` -/
  | opcode00
  /-- CMD_FIXED (R113): opcode `o` with descriptor `Fixed(n)` -/
  | cmdFixed (o : Byte) (n : Int)
  /-- CMD_EMBEDDED (R115): opcode `o` with descriptor `EmbeddedLength` -/
  | cmdEmbedded (o : Byte)
  /-- CMD_UNKNOWN (R112): opcode `o` with descriptor `Unknown` -/
  | cmdUnknown (o : Byte)
  /-- SEQ_EOS (R119): the end-of-stream event at a command boundary -/
  | seqEos
  /-- SEQ_FETCH (R111) -/
  | seqFetch
  /-- SEQ_EMIT (R118) -/
  | seqEmit
  /-- CRC_CLEAR (R71) -/
  | crcClear
  /-- CRC_BIT (R72) -/
  | crcBit
  /-- CRC_BYTE (R73) -/
  | crcByte (b : Byte)
  /-- CRC_SEQ (R75) -/
  | crcSeq (bs : List Byte)
  /-- CRC_READ (R76) -/
  | crcRead
  /-- FA_INIT (R91) -/
  | faInit
  /-- FA_PUT (R92): buffer index `i`, 2 to 34, and the byte stored -/
  | faPut (i : Nat) (b : Byte)
  /-- FA_SET_LEN (R93) -/
  | faSetLen
  /-- FA_SEAL (R96) -/
  | faSeal
  /-- FA_EMIT (R97) -/
  | faEmit
  /-- FRAME (R99): the packet of opcode `o` and a body of at most 32 bytes -/
  | frame (o : Byte) (body : List Byte)
deriving DecidableEq, Repr

end Sys2Proof
end

