-- ==== Sys2Proof/WellFormed.lean ====
section
/-! DEFINITION. Which instructions a table admits, and which operands an operation may have. -/

namespace Sys2Proof

/-- `CHANGE_TOOL`'s opcode, 134 (R114). -/
abbrev opChangeTool : Byte := 0x86

/-- The opcode of OPCODE_00 (R117). -/
abbrev opZero : Byte := 0x00

/-- An instruction is well formed for a table when the table gives its opcode its class (R61), the
three named opcodes being the rows of their own, and when its operands are in the range its rule
gives: FA_PUT's index 2 to 34 (R92), FRAME's body at most 32 bytes (R99). -/
def Instr.wf (c : Config) : Instr → Bool
  | .changeTool => c.ruleOf opChangeTool = some (.fixed 1)
  | .toolAction => c.ruleOf c.opToolAction = some .embedded
  | .opcode00 => c.ruleOf opZero = none
  | .cmdFixed o n => c.ruleOf o = some (.fixed n) && !(o == opChangeTool && n == 1)
  | .cmdEmbedded o => c.ruleOf o = some .embedded && o != c.opToolAction
  | .cmdUnknown o => c.ruleOf o = none && o != opZero
  | .seqEos => true
  | .seqFetch => true
  | .seqEmit => true
  | .crcClear => true
  | .crcBit => true
  | .crcByte _ => true
  | .crcSeq _ => true
  | .crcRead => true
  | .faInit => true
  | .faPut i _ => 2 ≤ i && i ≤ 34
  | .faSetLen => true
  | .faSeal => true
  | .faEmit => true
  | .frame _ body => body.length ≤ 32

end Sys2Proof
end

