-- ==== Sys2Proof/Decode.lean ====
section
/-! DEFINITION. The decoder of the input stream (R61, R66), its encoder, and the encoder and reader of
the output packet (R53, R99, R100).
The internal operations have no bit-level opcode: the rows of the opcode table for them "give the
operand pattern, not a decodable instruction" (R70), so the decoder never gives one and the encoder has
no words for one (log 6). -/

namespace Sys2Proof

/-- `START_BYTE` (R5, R55). -/
def startByte : Byte := 0xD5

/-- The table of State.reset: what R60 fixes, the rest `Unknown` by default.
DESIGN CHOICE (log 4): the embedded entry stands at `0x88`, the number of the spec's own test table. -/
def tableInForce : OpTable :=
  [(0x86, .known "CHANGE_TOOL" (.fixed 1)), (0x88, .known "TOOL_ACTION" .embedded)]

/-- The parameters of State.reset: this table (log 4) and the spec's default widths (R5; log 8). -/
def configInForce : Config where
  optab := tableInForce
  opToolAction := 0x88
  countW := 64
  lenW := 32

/-- Why no instruction can be read from the input stream now. -/
inductive DecodeReject
  /-- the source has produced nothing: SEQ_FETCH is held (R8) -/
  | nothingYet
  /-- the source failed: SEQ_FETCH raises IoFailure (R111) -/
  | readFailure
  /-- two events at once (R46) -/
  | illFormedSource
deriving DecidableEq, Repr

/-- "Decoding is by the whole opcode byte" and "needs nothing but `OPTAB[opcode]`" (R61).
An opcode the table leaves `Unknown` is the illegal encoding, CMD_UNKNOWN (R62). -/
def decodeByte (c : Config) (o : Byte) : Instr :=
  match c.ruleOf o with
  | none => if o = opZero then .opcode00 else .cmdUnknown o
  | some (.fixed n) => if o = opChangeTool ∧ n = 1 then .changeTool else .cmdFixed o n
  | some .embedded => if o = c.opToolAction then .toolAction else .cmdEmbedded o

/-- Read one instruction from the input stream at a command boundary: an opcode byte, or the
end-of-stream event, which is SEQ_EOS (R111, R119). The rest of the stream is given back. -/
def decode (c : Config) : List InEvent → Except DecodeReject (Instr × List InEvent)
  | [] => .error .nothingYet
  | .byte o :: rest => .ok (decodeByte c o, rest)
  | .eos :: rest => .ok (.seqEos, rest)
  | .err _ :: _ => .error .readFailure
  | .wait :: _ => .error .nothingYet
  | .clash :: _ => .error .illFormedSource

/-- The stream symbols an instruction is read from: its opcode byte (formats F and E, R51, R52), or the
end of stream. The internal operations and the packet have none (R70). -/
def encode (c : Config) : Instr → Option (List InEvent)
  | .changeTool => some [.byte opChangeTool]
  | .toolAction => some [.byte c.opToolAction]
  | .opcode00 => some [.byte opZero]
  | .cmdFixed o _ => some [.byte o]
  | .cmdEmbedded o => some [.byte o]
  | .cmdUnknown o => some [.byte o]
  | .seqEos => some [.eos]
  | .seqFetch => none
  | .seqEmit => none
  | .crcClear => none
  | .crcBit => none
  | .crcByte _ => none
  | .crcSeq _ => none
  | .crcRead => none
  | .faInit => none
  | .faPut _ _ => none
  | .faSetLen => none
  | .faSeal => none
  | .faEmit => none
  | .frame _ _ => none

/-- The packet of format P (R53): `[0xD5, len(b) + 1, o] ++ b ++ [crc8([o] ++ b)]` (R99).
DESIGN CHOICE (log 27): for a body over 32 bytes, for which R99 does not define it, the same expression, with
the length byte modulo 256. -/
def frame (o : Byte) (b : List Byte) : List Byte :=
  [startByte, BitVec.ofNat 8 (b.length + 1), o] ++ b ++ [Machine.crc8 (o :: b)]

/-- The bytes of FRAME's row on the output stream (R53); a body over 32 bytes, log 27. -/
def encodePacket : Instr → Option (List Byte)
  | .frame o b => some (frame o b)
  | _ => none

/-- Why a byte sequence is no packet of format P. -/
inductive PacketReject
  | tooShort
  | badStart
  | badLength
  | badSize
  | badChecksum
deriving DecidableEq, Repr

/-- Read a packet back: "the opcode and the body can be read back from the packet" (R100 (f)).
The block has no receiver (N14); this is the reading of format P, not a unit of the machine. -/
def decodePacket : List Byte → Except PacketReject Instr
  | st :: n :: o :: rest =>
    if st ≠ startByte then .error .badStart
    else if n.toNat < 1 ∨ 33 < n.toNat then .error .badLength
    else if rest.length ≠ n.toNat then .error .badSize
    else if rest.getD (n.toNat - 1) 0 ≠ Machine.crc8 (o :: rest.take (n.toNat - 1)) then .error .badChecksum
    else .ok (.frame o (rest.take (n.toNat - 1)))
  | _ => .error .tooShort

/-- The first `k` bytes of a table word, bit 0 of the word being bit 0 of the first byte. -/
def wordBytes : Nat → Nat → List Byte
  | 0, _ => []
  | k + 1, w => BitVec.ofNat 8 w :: wordBytes k (w / 256)

/-- The bytes a table word stands for: the longest command is 33 bytes (R51, R52), and every bit above
`nbits` is 0. -/
def tableBytes (nbits w : Nat) : List Byte := wordBytes 33 (w % 2 ^ nbits)

/-- The instruction the decoder reads from a word of the opcode table, under the table of State.reset. -/
def decodeTableWord (nbits w : Nat) : Option Instr :=
  match decode configInForce ((tableBytes nbits w).map .byte) with
  | .ok (i, _) => some i
  | .error _ => none

end Sys2Proof
end

