-- ==== Sys2Proof/Machine/State.lean ====
section
/-! DEFINITION. The state of the block (10_state.md), its parameters and its environment as plain data,
the reasons a step can stop, and the state after reset (R170). -/

namespace Sys2Proof.Machine

/-- `PHASE`, the sequencer's control state (R14). Its encoding in bits is not architectural. -/
inductive Phase
  | fetch | header | body | emit | done | error
deriving DecidableEq, Repr

/-- `ERR_CODE` (R17, R141): five error values and none (I11); its numbers are in `Flags.lean`. -/
inductive ErrCode
  | none | ioFailure | unknownOpcode | truncatedInput | internalTableInconsistency | shortWrite
deriving DecidableEq, Repr

/-- What the sink may answer for an offered byte (R45). -/
inductive OutAnswer
  | accept
  | refuse
  | err (e : IoErr)
  /-- no answer yet: the sequencer is held (R8, R164); log 2 -/
  | wait
  /-- more than one answer at once: an ill-formed environment (R46, I10) -/
  | clash
deriving DecidableEq, Repr

/-- The scratch buffer's written elements as (index, byte) pairs in rising order of index. An index that
is not listed holds no value (R11, D13). -/
abbrev Memory := List Host.Cell

/-- The whole machine: the block's registers (R10 to R21, R26), its parameters (R5) and its environment
(R43, R45, R170). -/
structure State where
  /-- `CRC` (R10) -/
  crc : Byte
  /-- `BUF` (R11, R12) -/
  buf : Memory
  /-- `L` (R13) -/
  l : BodyLen
  /-- `PHASE` (R14); the flags `DONE` and `ERROR` are views of it (R16) -/
  phase : Phase
  /-- `ERR_CODE` (R17) -/
  errCode : ErrCode
  /-- `BYTES_CONSUMED`, a number below `2^COUNT_W` (R18; log 8) -/
  bytesConsumed : Nat
  /-- `CUR_OPCODE` (R19) -/
  curOpcode : Byte
  /-- `CUR_LENGTH`, a signed number of `LEN_W` bits (R20; log 8) -/
  curLength : Int
  /-- `IO_ERR` (R21) -/
  ioErr : Option IoErr
  /-- `RD_IDX`, next buffer index a received byte goes to (R26) -/
  rdIdx : Nat
  /-- `RD_REM`, bytes still owed to the current `InRead` (R26) -/
  rdRem : Nat
  /-- `OUT_IDX`, bytes of the current packet the sink has taken (R26) -/
  outIdx : Nat
  /-- the parameters `OPTAB`, `OP_TOOL_ACTION`, `COUNT_W` and `LEN_W`: no state of the block, never
  written (R5, R24, R27); log 4, log 8 -/
  cfg : Config
  /-- the source's coming events, in order (R43); log 1. DESIGN CHOICE (log 26): a finite list, the first
  of the two forms R43 allows, so an endless run is seen through its finite prefixes -/
  input : List InEvent
  /-- the sink's coming answers, in order (R45), a finite list as well; log 1, log 26 -/
  answers : List OutAnswer
  /-- the coming samples of the line `rst`, one a step, `false` where the list has ended (R170); log 20 -/
  rst : List Bool
  /-- "The output stream, as observed, is the sequence of accepted bytes" (R44, R47); log 18 -/
  output : List Byte
deriving DecidableEq, Repr

/-- The model's faults. A step raises none of them from a state that meets the invariant of
`Safety.lean`; the five error classes of R140 are no faults but next states (R152). -/
inductive Fault
  /-- A buffer element that nothing has written is read: "a model must treat a read of a never-written
  element as an error of the model (a fault)" (R11, I7). Raised by every buffer read. Safe. -/
  | bufUnwritten (i : Nat)
  /-- An FA operation with an index outside its range: "a fault of the model, never a silent write past
  the buffer" (R95). Raised by FA_PUT off 2..34 and by a buffer read off 0..35. Safe. -/
  | bufIndex (i : Nat)
  /-- "`frame` is not defined for `len(b) > 32`" (R99). Raised by FRAME. Safe. -/
  | frameTooLong (n : Nat)
deriving DecidableEq, Repr

/-- Why an instruction has no meaning. -/
inductive Refusal
  /-- The instruction has no meaning in the model yet. Raised by `exec` only. Safe. -/
  | notModelled (mnemonic : String)
  /-- The source presents two events at once: "a model refuses such an environment" (R46, I10).
  Raised by every read of the input. Safe. -/
  | illFormedSource
  /-- The sink gives two answers at once (R46, I10). Raised by every offer of a byte. Safe. -/
  | illFormedSink
  /-- An operation of the sequencer is issued in a phase where the spec does not enable it (R111), or
  the fetch is asked to run what no decoder gives. Raised by the operations of `Sequencer.lean`, by
  FA_EMIT and by FRAME when issued alone; never by a step. Safe; log 14. -/
  | notEnabled
deriving DecidableEq, Repr

/-- The block right after reset (R170), with the parameters of `configInForce` (log 4) and an
environment that has done nothing yet (log 1). -/
def State.reset : State where
  crc := 0x00
  buf := [(0, startByte)]
  l := 0
  phase := .fetch
  errCode := .none
  bytesConsumed := 0
  curOpcode := 0x00
  curLength := 0
  ioErr := none
  rdIdx := 0
  rdRem := 0
  outIdx := 0
  cfg := configInForce
  input := []
  answers := []
  rst := []
  output := []

end Sys2Proof.Machine
end

