-- ==== Sys2Proof/Machine/Operands.lean ====
section
/-! DEFINITION. The operand forms: the buffer as indexed storage (R11, R33), the slices the frame
assembler reads (R96, R97), the embedded count (R58) and the range check of a body length (R59). -/

namespace Sys2Proof.Machine

/-- `HDR_LEN` (R5). -/
def hdrLen : Nat := 3

/-- The buffer index of the opcode (R11, R36). -/
def opcodeIdx : Nat := 2

/-- The buffer index of the first body byte (R11, R36). -/
def bodyIdx : Nat := 3

/-- The buffer index of the embedded count: the last header byte, `COUNT_POS` = 2 (R5, R11). -/
def countIdx : Nat := 5

/-- The buffer index of the first data byte of a format E command (R115). -/
def dataIdx : Nat := 6

/-- What an index holds, `none` where nothing was written. -/
def Memory.read : Memory → Nat → Option Byte
  | [], _ => none
  | (k, v) :: t, a => if a = k then some v else Memory.read t a

/-- Store a byte, keeping the indices strictly rising. -/
def Memory.write : Memory → Nat → Byte → Memory
  | [], a, b => [(a, b)]
  | (k, v) :: t, a, b =>
    if a < k then (a, b) :: (k, v) :: t
    else if a = k then (a, b) :: t
    else (k, v) :: Memory.write t a b

/-- The canonical form: indices strictly rising. (No entry can equal what an unlisted index reads as,
since that is no value.) -/
abbrev Memory.wf (m : Memory) : Prop := m.Pairwise fun x y => x.1 < y.1

/-- `BUF[i]`: a read off 0..35 and a read of an element nothing wrote are faults of the model
(R11, R95, I7). -/
def readBuf (s : State) (i : Nat) : Except Fault Byte :=
  if i < bufSize then
    match s.buf.read i with
    | some b => .ok b
    | none => .error (.bufUnwritten i)
  else .error (.bufIndex i)

/-- `BUF[i .. i + n - 1]`, first element first; the first element that cannot be read decides the
fault. -/
def readRange (s : State) : Nat → Nat → Except Fault (List Byte)
  | _, 0 => .ok []
  | i, n + 1 =>
    match readBuf s i with
    | .error f => .error f
    | .ok b =>
      match readRange s (i + 1) n with
      | .error f => .error f
      | .ok bs => .ok (b :: bs)

/-- `BUF[2 .. 2+L]`, the payload region, which the checksum covers (R57, R96). -/
def payloadRegion (s : State) : Except Fault (List Byte) := readRange s opcodeIdx (s.l.val + 1)

/-- `BUF[0 .. L+3]`, the packet in wire order (R11, R97). -/
def packetBytes (s : State) : Except Fault (List Byte) := readRange s 0 (s.l.val + 4)

/-- `zext(c)`, the embedded count, unsigned (R58). -/
def embeddedCount (c : Byte) : Nat := c.toNat

/-- The range check `0 <= n <= MAX_BODY` on an integer, never modulo anything (R59). -/
def bodyLen? (n : Int) : Option BodyLen :=
  if h : 0 ≤ n ∧ n ≤ 32 then some ⟨n.toNat, by omega⟩ else none

/-- `n` fits a signed register of `w` bits, `-2^w <= 2n < 2^w`. -/
abbrev fitsSigned (w : Nat) (n : Int) : Prop := -((2 ^ w : Nat) : Int) ≤ 2 * n ∧ 2 * n < (2 ^ w : Nat)

/-- What `CUR_LENGTH <- n` stores in a signed register of `w = LEN_W` bits: `n`; for an `n` that does
not fit, a free value of that width (D5, log 9). -/
def lengthReg (w : Nat) (n : Int) : Int :=
  if fitsSigned w n then n else (Config.openLength w n).toInt

end Sys2Proof.Machine
end

