-- ==== Sys2Proof/Machine/Flags.lean ====
section
/-! DEFINITION. The flags and the ports: `DONE` and `ERROR` (R16), the number of `ERR_CODE` (R141), the
input pins turned into events, and the output ports as views of the state (R46). There are no
arithmetic flags (R16). -/

namespace Sys2Proof.Machine

/-- `DONE = 1` exactly when `PHASE = DONE` (R16). -/
def State.doneFlag (s : State) : Bool := s.phase = .done

/-- `ERROR = 1` exactly when `PHASE = ERROR` (R16). -/
def State.errorFlag (s : State) : Bool := s.phase = .error

/-- A run is over when, and only when, `PHASE` is `DONE` or `ERROR` (R185). -/
def Phase.terminal : Phase → Bool
  | .done => true
  | .error => true
  | .fetch => false
  | .header => false
  | .body => false
  | .emit => false

/-- The number of an error class; 6 and 7 never occur (R17, R141). -/
def ErrCode.bits : ErrCode → BitVec 3
  | .none => 0
  | .ioFailure => 1
  | .unknownOpcode => 2
  | .truncatedInput => 3
  | .internalTableInconsistency => 4
  | .shortWrite => 5

/-- The source's exit status: 0 once `DONE`, 1 for every error alike, none while the run goes on (R141). -/
def State.exitStatus (s : State) : Option Nat :=
  match s.phase with
  | .done => some 0
  | .error => some 1
  | .fetch => none
  | .header => none
  | .body => none
  | .emit => none

/-- The input pins of R46 at the moment the sequencer looks. -/
structure InPins where
  inValid : Bool
  inData : Byte
  inEos : Bool
  inErr : Bool
  inErrInfo : IoErr
deriving DecidableEq, Repr

/-- The event the input pins present (R46): exactly one of the three, none yet, or an ill-formed
environment. -/
def InPins.event (p : InPins) : InEvent :=
  match p.inValid, p.inEos, p.inErr with
  | false, false, false => .wait
  | true, false, false => .byte p.inData
  | false, true, false => .eos
  | false, false, true => .err p.inErrInfo
  | true, true, false => .clash
  | true, false, true => .clash
  | false, true, true => .clash
  | true, true, true => .clash

/-- The answer pins of R46 while a byte is offered. -/
structure OutPins where
  outReady : Bool
  outRefuse : Bool
  outErr : Bool
  outErrInfo : IoErr
deriving DecidableEq, Repr

/-- The answer the sink's pins give (R46). -/
def OutPins.answer (p : OutPins) : OutAnswer :=
  match p.outReady, p.outRefuse, p.outErr with
  | false, false, false => .wait
  | true, false, false => .accept
  | false, true, false => .refuse
  | false, false, true => .err p.outErrInfo
  | true, true, false => .clash
  | true, false, true => .clash
  | false, true, true => .clash
  | true, true, true => .clash

/-- `in_ready`: the sequencer is inside an `InRead` with `RD_REM > 0` (R46). -/
def State.inReady (s : State) : Bool :=
  (s.phase = .fetch || s.phase = .header || s.phase = .body) && 0 < s.rdRem

/-- `out_valid`: the sequencer offers `BUF[OUT_IDX]` (R46). -/
def State.outValid (s : State) : Bool := s.phase = .emit && s.outIdx < s.l.val + 4

/-- `out_data`, while `out_valid` (R46). -/
def State.outData (s : State) : Option Byte := if s.outValid then s.buf.read s.outIdx else none

/-- `out_last`: the offered byte is the checksum byte, `OUT_IDX = L + 3` (R46). -/
def State.outLast (s : State) : Bool := s.outValid && s.outIdx == s.l.val + 3

/-- The four diagnostic registers, "the only registers an outside observer reads besides the flags"
(R18 to R21, R124): numbers of `COUNT_W`, 8 and `LEN_W` bits, and the I/O error. -/
structure Diagnostics where
  diagBytes : Nat
  diagOpcode : Byte
  diagLength : Int
  diagIoErr : Option IoErr
deriving DecidableEq, Repr

/-- The diagnostic ports, readable at any time (R46, R162). -/
def State.diagnostics (s : State) : Diagnostics :=
  ⟨s.bytesConsumed, s.curOpcode, s.curLength, s.ioErr⟩

end Sys2Proof.Machine
end

