-- ==== Sys2Proof/Machine/Ops.lean ====
section
/-! DEFINITION. The shared operations: the CRC register (40_crc_engine.md), the buffer writes and the
seal of the frame assembler (41_frame_assembler.md), the two stream primitives (R42, R44), error entry
(R152) and, beside it, the one way out of a terminal phase, reset (R155, R170). -/

namespace Sys2Proof.Machine

/-! ### The CRC register -/

/-- CRC_CLEAR (R71). -/
def crcClear (s : State) : State := { s with crc := crcInit }

/-- CRC_BIT (R72). -/
def crcShift (s : State) : State := { s with crc := crcBitStep s.crc }

/-- CRC_BYTE (R73). -/
def crcPut (b : Byte) (s : State) : State := { s with crc := crcByteStep s.crc b }

/-- CRC_BYTE for each byte of a sequence, first byte first (R75, R96). -/
def crcPutAll : List Byte → State → State
  | [], s => s
  | b :: bs, s => crcPutAll bs (crcPut b s)

/-- CRC_READ: the current value of `CRC`; nothing is written (R76). -/
def crcRead (s : State) : Byte × State := (s.crc, s)

/-! ### The buffer writes of the frame assembler -/

/-- FA_INIT (R91). -/
def faInit (s : State) : State := { s with buf := s.buf.write 0 startByte }

/-- FA_PUT (R92): `i` is 2 to 34; any other index is a fault of the model (R95). -/
def faPut (i : Nat) (b : Byte) (s : State) : Except Fault State :=
  if 2 ≤ i ∧ i ≤ 34 then .ok { s with buf := s.buf.write i b } else .error (.bufIndex i)

/-- FA_PUT of a sequence at rising indices (R94). -/
def faPutAll : Nat → List Byte → State → Except Fault State
  | _, [], s => .ok s
  | i, b :: bs, s =>
    match faPut i b s with
    | .error f => .error f
    | .ok s' => faPutAll (i + 1) bs s'

/-- FA_SET_LEN (R93): `BUF[1] <- L + 1`. -/
def faSetLen (s : State) : State :=
  { s with buf := s.buf.write 1 (BitVec.ofNat 8 (s.l.val + 1)) }

/-- FA_SEAL (R96): CRC_CLEAR, CRC_BYTE over `BUF[2 .. 2+L]`, and the checksum to `BUF[3+L]`. -/
def faSeal (s : State) : Except Fault State :=
  match payloadRegion s with
  | .error f => .error f
  | .ok bs =>
    let (c, s') := crcRead (crcPutAll bs (crcClear s))
    .ok { s' with buf := s'.buf.write (bodyIdx + s'.l.val) c }

/-! ### The stream primitives -/

/-- The results of `InRead` (R42) and `OutWrite` (R44), with the state they leave; `held` is a wait on
the environment (R8), the last two are the model's stops. -/
inductive IoResult
  | ok (s : State)
  | held (s : State)
  | short (s : State)
  | fail (e : IoErr) (s : State)
  | fault (f : Fault)
  | refused (r : Refusal)
deriving Repr

/-- One accepted input byte (R42): FA_PUT at `RD_IDX`, the working indices, `BYTES_CONSUMED`. -/
def acceptByte (b : Byte) (s : State) : Except Fault State :=
  match faPut s.rdIdx b s with
  | .error f => .error f
  | .ok s' => .ok { s' with
      rdIdx := s'.rdIdx + 1
      rdRem := s'.rdRem - 1
      bytesConsumed := (s'.bytesConsumed + 1) % 2 ^ s'.cfg.countW }

/-- The loop of `InRead` with `k` bytes still owed (R42). With none owed no event is taken (D15). -/
def inLoop : Nat → State → IoResult
  | 0, s => .ok s
  | k + 1, s =>
    match s.input with
    | [] => .held s
    | .byte b :: rest =>
      match acceptByte b { s with input := rest } with
      | .error f => .fault f
      | .ok s' => inLoop k s'
    | .eos :: rest => .short { s with input := rest }
    | .err e :: rest => .fail e { s with input := rest }
    | .wait :: rest => .held { s with input := rest }
    | .clash :: _ => .refused .illFormedSource

/-- `InRead` goes on with the bytes `RD_REM` still owes. -/
def inResume (s : State) : IoResult := inLoop s.rdRem s

/-- `InRead(k, at)` (R42). -/
def inRead (k i : Nat) (s : State) : IoResult := inResume { s with rdIdx := i, rdRem := k }

/-- The loop of `OutWrite` over the bytes still to be offered (R44). -/
def outLoop : List Byte → State → IoResult
  | [], s => .ok s
  | b :: bs, s =>
    match s.answers with
    | [] => .held s
    | .accept :: rest =>
      outLoop bs { s with answers := rest, output := s.output ++ [b], outIdx := s.outIdx + 1 }
    | .refuse :: rest => .short { s with answers := rest }
    | .err e :: rest => .fail e { s with answers := rest }
    | .wait :: rest => .held { s with answers := rest }
    | .clash :: _ => .refused .illFormedSink

/-- `OutWrite` goes on with the bytes from `OUT_IDX` on (R44). -/
def outResume (s : State) : IoResult :=
  match packetBytes s with
  | .error f => .fault f
  | .ok v => outLoop (v.drop s.outIdx) s

/-- `OutWrite(BUF[0 .. L+3])` (R44, R97). -/
def outWrite (s : State) : IoResult := outResume { s with outIdx := 0 }

/-! ### Error entry, and reset -/

/-- The error classes with what they carry (R140); the opcode and the count of UnknownOpcode and the
count of ShortWrite are kept in no register of error entry (R146, R152). -/
inductive ErrClass
  | ioFailure (e : IoErr)
  | unknownOpcode
  | truncatedInput
  | internalTableInconsistency
  | shortWrite
deriving DecidableEq, Repr

/-- The class's code (R141). -/
def ErrClass.code : ErrClass → ErrCode
  | .ioFailure _ => .ioFailure
  | .unknownOpcode => .unknownOpcode
  | .truncatedInput => .truncatedInput
  | .internalTableInconsistency => .internalTableInconsistency
  | .shortWrite => .shortWrite

/-- `IO_ERR` after error entry: written by IoFailure only (R152). -/
def ErrClass.ioErrAfter (old : Option IoErr) : ErrClass → Option IoErr
  | .ioFailure e => some e
  | .unknownOpcode => old
  | .truncatedInput => old
  | .internalTableInconsistency => old
  | .shortWrite => old

/-- `raise X(info)` (R152): the code, the I/O error, the phase; "Nothing else changes." -/
def raiseError (x : ErrClass) (s : State) : State :=
  { s with errCode := x.code, ioErr := x.ioErrAfter s.ioErr, phase := .error }

/-- Reset (R170). There is no return from an error; this is the only way out of `ERROR` and `DONE`
(R155). The parameters, the streams and the reset line itself are not the block's (R171). -/
def applyReset (s : State) : State :=
  faInit { s with
    buf := []
    crc := 0x00
    l := 0
    phase := .fetch
    errCode := .none
    ioErr := none
    bytesConsumed := 0
    curOpcode := 0x00
    curLength := 0
    rdIdx := 0
    rdRem := 0
    outIdx := 0 }

/-- An operation of the sequencer that the spec enables in phase `p` (R111): in a terminal phase nothing
is issued and nothing changes (R121, R155); in any other phase it is refused (log 14).
In phase `p` nothing else is tested (log 25). -/
def whenPhase (p : Phase) (s : State) (k : Host.Outcome State Fault Refusal) :
    Host.Outcome State Fault Refusal :=
  if s.phase = p then k
  else if s.phase.terminal then .next s
  else .refused .notEnabled

end Sys2Proof.Machine
end

