-- ==== Sys2Proof/Machine/CrcEngine.lean ====
section
/-! DEFINITION. The meanings of the CRC engine's operations (40_crc_engine.md). "None of them writes a
flag; none can raise an error; none can be held" (R70).
Inside a run FA_SEAL alone issues them (R70). DESIGN CHOICE (log 24): issued alone, each runs in every
phase, `DONE` and `ERROR` included, where the spec issues nothing (R121, R155). -/

namespace Sys2Proof.Machine

/-- CRC_CLEAR (R71); in every phase, log 24. -/
def execCrcClear (s : State) : Host.Outcome State Fault Refusal := .next (crcClear s)

/-- CRC_BIT (R72); in every phase, log 24. -/
def execCrcBit (s : State) : Host.Outcome State Fault Refusal := .next (crcShift s)

/-- CRC_BYTE (R73); in every phase, log 24. -/
def execCrcByte (b : Byte) (s : State) : Host.Outcome State Fault Refusal := .next (crcPut b s)

/-- CRC_SEQ (R75): CRC_CLEAR, then CRC_BYTE for each byte; the result is the register; in every
phase, log 24. -/
def execCrcSeq (bs : List Byte) (s : State) : Host.Outcome State Fault Refusal :=
  .next (crcPutAll bs (crcClear s))

/-- CRC_READ (R76): the result is `(crcRead s).1`, the state is as before (log 16); in
every phase, log 24. -/
def execCrcRead (s : State) : Host.Outcome State Fault Refusal := .next (crcRead s).2

end Sys2Proof.Machine
end

