-- ==== Sys2Proof/Machine/Sequencer.lean ====
section
/-! DEFINITION. The command sequencer (42_command_sequencer.md): the work of each phase as one shared
operation that can be held and gone on with, and the meanings of the input commands and of the
sequencer's own operations.
DESIGN CHOICE (log 25): a meaning issued alone in the phase the spec issues it in tests the phase and
nothing else: not that the opcode was latched, that the body is whole, or that a packet is unsent. -/

namespace Sys2Proof.Machine

/-! ### The phases -/

/-- Phase `EMIT`: `OutWrite` from `OUT_IDX` on, then back to `FETCH` (R97, R118). -/
def emitPhase (s : State) : Host.Outcome State Fault Refusal :=
  match outResume s with
  | .ok s' => .next { s' with phase := .fetch }
  | .held s' => .next s'
  | .short s' => .next (raiseError .shortWrite s')
  | .fail e s' => .next (raiseError (.ioFailure e) s')
  | .fault f => .fault f
  | .refused r => .refused r

/-- SEQ_EMIT: FA_SET_LEN, FA_SEAL, `PHASE <- EMIT`, FA_EMIT, `PHASE <- FETCH` (R118). -/
def seqEmit (s : State) : Host.Outcome State Fault Refusal :=
  match faSeal (faSetLen s) with
  | .error f => .fault f
  | .ok s' => emitPhase { s' with phase := .emit, outIdx := 0 }

/-- Phase `BODY`: the body or data bytes still owed, then SEQ_EMIT (R113, R115). -/
def bodyPhase (s : State) : Host.Outcome State Fault Refusal :=
  match inResume s with
  | .ok s' => seqEmit s'
  | .held s' => .next s'
  | .short s' => .next (raiseError .truncatedInput s')
  | .fail e s' => .next (raiseError (.ioFailure e) s')
  | .fault f => .fault f
  | .refused r => .refused r

/-- `PHASE <- BODY` and the read of `k` bytes to `BUF[i ..]`, `L` being resolved (R113, R115). -/
def startBody (l : BodyLen) (k i : Nat) (s : State) : Host.Outcome State Fault Refusal :=
  bodyPhase { s with l := l, phase := .body, rdIdx := i, rdRem := k }

/-- The third header byte has arrived: the count, its range check, the data (R115). -/
def resolveCount (s : State) : Host.Outcome State Fault Refusal :=
  match readBuf s countIdx with
  | .error f => .fault f
  | .ok c =>
    let count := embeddedCount c
    let s' := { s with curLength := lengthReg s.cfg.lenW count }
    match bodyLen? (count + hdrLen) with
    | none => .next (raiseError .internalTableInconsistency s')
    | some l => startBody l count dataIdx s'

/-- Phase `HEADER`: the header bytes still owed, then the count (R115). -/
def headerPhase (s : State) : Host.Outcome State Fault Refusal :=
  match inResume s with
  | .ok s' => resolveCount s'
  | .held s' => .next s'
  | .short s' => .next (raiseError .truncatedInput s')
  | .fail e s' => .next (raiseError (.ioFailure e) s')
  | .fault f => .fault f
  | .refused r => .refused r

/-! ### The command classes -/

/-- A command of format F with the table's `n` (R113). -/
def fixedCommand (n : Int) (s : State) : Host.Outcome State Fault Refusal :=
  let s' := { s with curLength := lengthReg s.cfg.lenW n }
  match bodyLen? n with
  | none => .next (raiseError .internalTableInconsistency s')
  | some l => startBody l l.val bodyIdx s'

/-- A command of format E (R115). -/
def embeddedCommand (s : State) : Host.Outcome State Fault Refusal :=
  headerPhase { s with phase := .header, rdIdx := bodyIdx, rdRem := hdrLen }

/-- An opcode without a descriptor (R112). -/
def unknownCommand (s : State) : Host.Outcome State Fault Refusal :=
  .next (raiseError .unknownOpcode s)

/-! ### The meanings -/

/-- CMD_UNKNOWN (R112): the opcode is in `CUR_OPCODE` already (R111); issued alone, log 25. -/
def execCmdUnknown (_o : Byte) (s : State) : Host.Outcome State Fault Refusal :=
  whenPhase .fetch s (unknownCommand s)

/-- OPCODE_00 (R117): "It is CMD_UNKNOWN"; issued alone, log 25. -/
def execOpcode00 (s : State) : Host.Outcome State Fault Refusal :=
  whenPhase .fetch s (unknownCommand s)

/-- CMD_FIXED (R113); issued alone, it takes its own `n` (log 25). -/
def execCmdFixed (_o : Byte) (n : Int) (s : State) : Host.Outcome State Fault Refusal :=
  whenPhase .fetch s (fixedCommand n s)

/-- CHANGE_TOOL (R114): "It is CMD_FIXED(1)"; issued alone, log 25. -/
def execChangeTool (s : State) : Host.Outcome State Fault Refusal :=
  whenPhase .fetch s (fixedCommand 1 s)

/-- CMD_EMBEDDED (R115); issued alone, log 25. -/
def execCmdEmbedded (_o : Byte) (s : State) : Host.Outcome State Fault Refusal :=
  whenPhase .fetch s (embeddedCommand s)

/-- TOOL_ACTION (R116): "It is CMD_EMBEDDED"; issued alone, log 25. -/
def execToolAction (s : State) : Host.Outcome State Fault Refusal :=
  whenPhase .fetch s (embeddedCommand s)

/-- SEQ_EOS (R119): `PHASE <- DONE`; "no register but `PHASE` changes"; issued alone, log 25. -/
def execSeqEos (s : State) : Host.Outcome State Fault Refusal :=
  whenPhase .fetch s (.next { s with phase := .done })

/-- SEQ_EMIT (R118), issued in phase `BODY`, once the body is in the buffer (R113, R115).
DESIGN CHOICE (log 25): issued alone while body bytes are still owed (`RD_REM > 0`), it runs on what `BUF`
holds. -/
def execSeqEmit (s : State) : Host.Outcome State Fault Refusal :=
  whenPhase .body s (seqEmit s)

/-- The meaning of an instruction the decoder can give (`decode`); it gives no other. -/
def runCommand (i : Instr) (s : State) : Host.Outcome State Fault Refusal :=
  match i with
  | .changeTool => execChangeTool s
  | .toolAction => execToolAction s
  | .opcode00 => execOpcode00 s
  | .cmdFixed o n => execCmdFixed o n s
  | .cmdEmbedded o => execCmdEmbedded o s
  | .cmdUnknown o => execCmdUnknown o s
  | .seqEos => execSeqEos s
  | .seqFetch => .refused .notEnabled
  | .seqEmit => .refused .notEnabled
  | .crcClear => .refused .notEnabled
  | .crcBit => .refused .notEnabled
  | .crcByte _ => .refused .notEnabled
  | .crcSeq _ => .refused .notEnabled
  | .crcRead => .refused .notEnabled
  | .faInit => .refused .notEnabled
  | .faPut _ _ => .refused .notEnabled
  | .faSetLen => .refused .notEnabled
  | .faSeal => .refused .notEnabled
  | .faEmit => .refused .notEnabled
  | .frame _ _ => .refused .notEnabled

/-- An opcode byte has been accepted: `CUR_OPCODE <- o`, `CUR_LENGTH <- 0` (R111). -/
def latchOpcode (o : Byte) (s : State) : State := { s with curOpcode := o, curLength := 0 }

/-- The work of SEQ_FETCH in phase `FETCH`: read the opcode to `BUF[2]`, latch it, and run what the
decoder reads from it (R111). -/
def fetchCommand (s : State) : Host.Outcome State Fault Refusal :=
  match inRead 1 opcodeIdx s with
  | .ok s' =>
    match readBuf s' opcodeIdx with
    | .error f => .fault f
    | .ok o => runCommand (decodeByte s'.cfg o) (latchOpcode o s')
  | .held s' => .next s'
  | .short s' => runCommand .seqEos s'
  | .fail e s' => .next (raiseError (.ioFailure e) s')
  | .fault f => .fault f
  | .refused r => .refused r

/-- SEQ_FETCH (R111), "Enabled when `PHASE = FETCH`". -/
def execSeqFetch (s : State) : Host.Outcome State Fault Refusal :=
  whenPhase .fetch s (fetchCommand s)

/-- A step with `rst` not asserted. At a command boundary it is SEQ_FETCH, which fetches and runs one
command; in the other phases the command in progress goes on; `DONE` and `ERROR` are absorbing (R155). -/
def advance (s : State) : Host.Outcome State Fault Refusal :=
  match s.phase with
  | .fetch => execSeqFetch s
  | .header => headerPhase s
  | .body => bodyPhase s
  | .emit => emitPhase s
  | .done => .next s
  | .error => .next s

end Sys2Proof.Machine
end

