-- ==== Sys2Proof/Machine/FrameAssembler.lean ====
section
/-! DEFINITION. The meanings of the frame assembler's operations (41_frame_assembler.md) and of FRAME,
the packet they amount to (R99).
Inside a run reset issues FA_INIT (R91), a read FA_PUT (R92), and SEQ_EMIT the rest (R118). DESIGN CHOICE
(log 24): issued alone, FA_INIT, FA_PUT, FA_SET_LEN and FA_SEAL run in every phase, `DONE` and `ERROR`
included, where the spec issues nothing (R121, R155); FA_EMIT and FRAME are gated by phase (log 14). -/

namespace Sys2Proof.Machine

/-- FA_INIT (R91); in every phase, log 24. -/
def execFaInit (s : State) : Host.Outcome State Fault Refusal := .next (faInit s)

/-- FA_PUT (R92); off 2..34 a fault, log 13; in every phase, log 24. -/
def execFaPut (i : Nat) (b : Byte) (s : State) : Host.Outcome State Fault Refusal :=
  match faPut i b s with
  | .error f => .fault f
  | .ok s' => .next s'

/-- FA_SET_LEN (R93); in every phase, log 24. -/
def execFaSetLen (s : State) : Host.Outcome State Fault Refusal := .next (faSetLen s)

/-- FA_SEAL (R96); in every phase, log 24. -/
def execFaSeal (s : State) : Host.Outcome State Fault Refusal :=
  match faSeal s with
  | .error f => .fault f
  | .ok s' => .next s'

/-- FA_EMIT (R97), issued in phase `EMIT` (R118). On `Ok` it changes no phase: going back to `FETCH` is
SEQ_EMIT's last line, which the step then does.
DESIGN CHOICE (log 25): issued alone when `OUT_IDX` bytes of the packet are out, it begins again at 0. -/
def execFaEmit (s : State) : Host.Outcome State Fault Refusal :=
  whenPhase .emit s <|
    match outWrite s with
    | .ok s' => .next s'
    | .held s' => .next s'
    | .short s' => .next (raiseError .shortWrite s')
    | .fail e s' => .next (raiseError (.ioFailure e) s')
    | .fault f => .fault f
    | .refused r => .refused r

/-- FRAME (R99): "FA_PUT for the opcode and the body, FA_SET_LEN, FA_SEAL and a successful FA_EMIT
together", issued at a command boundary with the body at hand; the phases are SEQ_EMIT's (R118).
`frame` "is not defined for `len(b) > 32`". -/
def execFrame (o : Byte) (body : List Byte) (s : State) : Host.Outcome State Fault Refusal :=
  whenPhase .fetch s <|
    match bodyLen? body.length with
    | none => .fault (.frameTooLong body.length)
    | some l =>
      match faPutAll opcodeIdx (o :: body) s with
      | .error f => .fault f
      | .ok s' => seqEmit { s' with l := l }

end Sys2Proof.Machine
end

