-- ==== Sys2Proof/Machine/Dispatch.lean ====
section
/-! DEFINITION. One arm per row of the opcode table: the instruction and its meaning. -/

namespace Sys2Proof.Machine

def exec (i : Instr) (s : State) : Host.Outcome State Fault Refusal :=
  match i with
  -- input commands (42_command_sequencer.md)
  | .changeTool => Sys2Proof.Machine.execChangeTool s
  | .toolAction => Sys2Proof.Machine.execToolAction s
  | .opcode00 => Sys2Proof.Machine.execOpcode00 s
  | .cmdFixed o n => Sys2Proof.Machine.execCmdFixed o n s
  | .cmdEmbedded o => Sys2Proof.Machine.execCmdEmbedded o s
  | .cmdUnknown o => Sys2Proof.Machine.execCmdUnknown o s
  | .seqEos => Sys2Proof.Machine.execSeqEos s
  -- the sequencer's own operations
  | .seqFetch => Sys2Proof.Machine.execSeqFetch s
  | .seqEmit => Sys2Proof.Machine.execSeqEmit s
  -- the CRC engine (40_crc_engine.md)
  | .crcClear => Sys2Proof.Machine.execCrcClear s
  | .crcBit => Sys2Proof.Machine.execCrcBit s
  | .crcByte b => Sys2Proof.Machine.execCrcByte b s
  | .crcSeq bs => Sys2Proof.Machine.execCrcSeq bs s
  | .crcRead => Sys2Proof.Machine.execCrcRead s
  -- the frame assembler (41_frame_assembler.md)
  | .faInit => Sys2Proof.Machine.execFaInit s
  | .faPut k b => Sys2Proof.Machine.execFaPut k b s
  | .faSetLen => Sys2Proof.Machine.execFaSetLen s
  | .faSeal => Sys2Proof.Machine.execFaSeal s
  | .faEmit => Sys2Proof.Machine.execFaEmit s
  | .frame o body => Sys2Proof.Machine.execFrame o body s

end Sys2Proof.Machine
end

