-- ==== Sys2Proof/Machine/Step.lean ====
section
/-! DEFINITION. One step of the machine: the reset line is looked at, then the phase goes on until the
environment holds it, the iteration ends or the run ends (R8, R120, R170; log 2). -/

namespace Sys2Proof.Machine

/-- One step: reset if the line is asserted now (R170), else `advance`. -/
def step (s : State) : Host.Outcome State Fault Refusal :=
  match s.rst with
  | [] => advance s
  | true :: r => .next (applyReset { s with rst := r })
  | false :: r => advance { s with rst := r }

/-- `s` with a word of the opcode table standing at the head of the input stream, at a command boundary
and with no reset asserted, so that the next step fetches and runs it (log 5). -/
def State.withFetchWord (s : State) (nbits w : Nat) : State :=
  { s with
    phase := .fetch
    rst := []
    input := (tableBytes nbits w).map .byte ++ s.input }

end Sys2Proof.Machine
end

