-- ==== Sys2Proof/Machine/Reframe.lean ====
section
/-! DEFINITION. The whole-run function of R122, the spec's own account of what a run amounts to. The
machine does not use it; claims compare the machine with it. -/

namespace Sys2Proof.Machine

/-- How a finite input ends (R43). -/
inductive Terminator
  | eos
  | err (e : IoErr)
deriving DecidableEq, Repr

/-- The event that ends the input. -/
def Terminator.event : Terminator → InEvent
  | .eos => .eos
  | .err e => .err e

/-- The class of a command cut short: `TruncatedInput`, or `IoFailure(e)` "with the same fields"
(R122). -/
def Terminator.cutCode : Terminator → ErrCode
  | .eos => .truncatedInput
  | .err _ => .ioFailure

/-- The class of an end at a command boundary: none (`Done`), or `IoFailure(e)` (R122). -/
def Terminator.endCode : Terminator → ErrCode
  | .eos => .none
  | .err _ => .ioFailure

/-- `IO_ERR` where the input's end is what ends the run (R122). -/
def Terminator.ioErr : Terminator → Option IoErr
  | .eos => none
  | .err e => some e

/-- Output and outcome of a run: `Done` when the code is none, else the error and its fields (R122). -/
structure RunResult where
  output : List Byte
  errCode : ErrCode
  opcode : Byte
  length : Int
  bytes : Nat
  ioErr : Option IoErr
deriving DecidableEq, Repr

/-- `run(s, k)` of R122 with the opcode and the length of the previous command. Each command takes at
least its opcode byte, so `fuel` at least the number of bytes never runs out. -/
def reframe (c : Config) (t : Terminator) :
    (fuel : Nat) → List Byte → (k : Nat) → (prevO : Byte) → (prevL : Int) → RunResult
  | _, [], k, po, pl => ⟨[], t.endCode, po, pl, k, t.ioErr⟩
  | 0, _ :: _, k, po, pl => ⟨[], t.endCode, po, pl, k, t.ioErr⟩
  | fuel + 1, o :: rest, k, _, _ =>
    match c.ruleOf o with
    | none => ⟨[], .unknownOpcode, o, 0, k + 1, none⟩
    | some (.fixed n) =>
      if n < 0 ∨ 32 < n then ⟨[], .internalTableInconsistency, o, n, k + 1, none⟩
      else if rest.length < n.toNat then ⟨[], t.cutCode, o, n, k + 1 + rest.length, t.ioErr⟩
      else
        let r := reframe c t fuel (rest.drop n.toNat) (k + n.toNat + 1) o n
        { r with output := frame o (rest.take n.toNat) ++ r.output }
    | some .embedded =>
      if rest.length < 3 then ⟨[], t.cutCode, o, 0, k + 1 + rest.length, t.ioErr⟩
      else
        let count := (rest.getD 2 0).toNat
        if 29 < count then ⟨[], .internalTableInconsistency, o, count, k + 4, none⟩
        else if rest.length < 3 + count then ⟨[], t.cutCode, o, count, k + 1 + rest.length, t.ioErr⟩
        else
          let r := reframe c t fuel (rest.drop (3 + count)) (k + 4 + count) o count
          { r with output := frame o (rest.take (3 + count)) ++ r.output }

/-- `run(s, 0)` from reset (R122). -/
def reframeAll (c : Config) (t : Terminator) (s : List Byte) : RunResult :=
  reframe c t s.length s 0 0x00 0

end Sys2Proof.Machine
end

