-- ==== Sys2Proof/Safety.lean ====
section
/-! DEFINITION. The terms claims are stated in: what a run shows (R47), a run's start, the invariant of
the block, and what a step may not do. -/

namespace Sys2Proof.Machine

/-- The buffer holds the bytes `bs` from index `i` on. -/
def Memory.holds (m : Memory) (i : Nat) (bs : List Byte) : Prop :=
  ∀ j, (h : j < bs.length) → m.read (i + j) = some bs[j]

/-- The buffer has a value at each index from `i` up to, not including, `j`. -/
def Memory.writtenIn (m : Memory) (i j : Nat) : Prop :=
  ∀ a, i ≤ a → a < j → (m.read a).isSome = true

/-- `m'` agrees with `m` off the indices `i` to `j`, inclusive. -/
def Memory.sameOff (m m' : Memory) (i j : Nat) : Prop :=
  ∀ a, ¬(i ≤ a ∧ a ≤ j) → m'.read a = m.read a

/-- The reset line is not asserted now. -/
abbrev State.noReset (s : State) : Prop := s.rst.head? ≠ some true

/-- What a run shows (R47): the output and, at a terminal phase, the phase, the code and the
diagnostics. -/
structure Observation where
  output : List Byte
  terminal : Option (Phase × ErrCode × Diagnostics)
deriving DecidableEq, Repr

/-- The observation of a state (R47). -/
def State.observe (s : State) : Observation :=
  ⟨s.output, if s.phase.terminal then some (s.phase, s.errCode, s.diagnostics) else none⟩

/-- What the outside can see of a state at any time: the output, the flags and the diagnostics, and what
is left of the environment's lists (R25, R160, R162). -/
def State.visible (s : State) :
    List Byte × Phase × ErrCode × Diagnostics × List InEvent × List OutAnswer × List Bool :=
  (s.output, s.phase, s.errCode, s.diagnostics, s.input, s.answers, s.rst)

/-- The block just after reset with a table, an input stream and a sink (R122, R174). -/
def State.start (c : Config) (input : List InEvent) (answers : List OutAnswer) : State :=
  { State.reset with cfg := c, input := input, answers := answers }

/-- `BYTES_CONSUMED` holds a value of its width (R18). -/
abbrev State.countInRange (s : State) : Prop := s.bytesConsumed < 2 ^ s.cfg.countW

/-- The number of bytes among events. -/
def byteCount (evs : List InEvent) : Nat :=
  evs.countP fun ev => match ev with
    | .byte _ => true
    | _ => false

/-- The same state with every `wait` taken out of the coming events and answers: the symbols of R43 and
R45 alone, in their order (log 2). -/
def State.withoutWaits (s : State) : State :=
  { s with input := s.input.filter (· ≠ .wait), answers := s.answers.filter (· ≠ .wait) }

/-- The number of `wait` entries that are to come. -/
def State.waits (s : State) : Nat := s.input.count .wait + s.answers.count .wait

/-- An operation issued `k` times. -/
def execTimes (i : Instr) : Nat → State → Host.Outcome State Fault Refusal
  | 0, s => .next s
  | k + 1, s =>
    match exec i s with
    | .next t => execTimes i k t
    | .fault f => .fault f
    | .refused r => .refused r

/-- `L` and `CUR_LENGTH` are what the command's descriptor says: `n` and `n`, or `count + 3` and
`count`, the second as `CUR_LENGTH` can hold it (R13, R20; log 9). -/
def State.lengthResolved (s : State) : Prop :=
  (∃ n : Int, s.cfg.ruleOf s.curOpcode = some (.fixed n) ∧ (s.l.val : Int) = n ∧
    s.curLength = lengthReg s.cfg.lenW n) ∨
  (s.cfg.ruleOf s.curOpcode = some .embedded ∧ 3 ≤ s.l.val ∧
    s.curLength = lengthReg s.cfg.lenW (s.l.val - 3))

/-- The invariant of the block: what every step keeps, from every state that has it. -/
structure BlockInv (s : State) : Prop where
  /-- the buffer keeps its canonical form and its 36 indices (R11) -/
  canonical : s.buf.wf
  inBounds : ∀ a, bufSize ≤ a → s.buf.read a = none
  /-- `BYTES_CONSUMED` and `CUR_LENGTH` hold values of their widths (R18, R20) -/
  countInRange : s.countInRange
  lengthInRange : fitsSigned s.cfg.lenW s.curLength
  /-- `BUF[0]` holds `START_BYTE` (R12) -/
  startByteHeld : s.buf.read 0 = some startByte
  /-- `ERR_CODE` "is 0 whenever `ERROR = 0`" (R17), and an error has a class (R152) -/
  codeIffError : s.errCode = .none ↔ s.phase ≠ .error
  /-- `IO_ERR` is written on entry to an IoFailure "and is `none` otherwise" (R21) -/
  ioErrIff : s.ioErr.isSome = true ↔ s.errCode = .ioFailure
  /-- the working indices fit their 6 bits (R26; log 11) -/
  indices : s.rdIdx ≤ 35 ∧ s.rdRem ≤ 32 ∧ s.outIdx ≤ 36
  /-- in `HEADER` 1 to 3 header bytes are owed and all before them are in the buffer (R14, R115) -/
  inHeader : s.phase = .header →
    1 ≤ s.rdRem ∧ 3 ≤ s.rdIdx ∧ s.rdIdx + s.rdRem = 6 ∧ s.buf.writtenIn 2 s.rdIdx ∧
    s.buf.read 2 = some s.curOpcode ∧ s.cfg.ruleOf s.curOpcode = some .embedded ∧ s.curLength = 0
  /-- in `BODY` at least one byte is owed and the buffer is filled up to `RD_IDX` (R14, R113, R115) -/
  inBody : s.phase = .body →
    1 ≤ s.rdRem ∧ 3 ≤ s.rdIdx ∧ s.rdIdx + s.rdRem = 3 + s.l.val ∧ s.buf.writtenIn 2 s.rdIdx ∧
    s.buf.read 2 = some s.curOpcode ∧ s.lengthResolved
  /-- in `EMIT` the buffer holds the packet of the command and not all of it is out (R34, R99, R118) -/
  inEmit : s.phase = .emit →
    s.outIdx < s.l.val + 4 ∧ s.lengthResolved ∧
    ∃ body : List Byte, body.length = s.l.val ∧ s.buf.holds 0 (frame s.curOpcode body)

end Sys2Proof.Machine
end

