-- ==== Sys2Proof/Certificates/Slice0/Obligations.lean ====
section
/-! DEFINITION. The statements for the provers, one definition each. -/

open Sys2Proof Sys2Proof.Machine

/-! ### The CRC engine -/

/-- CRC_CLEAR writes `0x00` to `CRC` and CRC_READ gives `CRC` and writes nothing, from every state
(R71, R76).
That they may be issued alone in every phase is the model's choice, log 24; where CRC_READ's result stands
is log 16. -/
def Obligations.CrcClearAndReadComplete : Prop :=
  ∀ s : State,
    exec .crcClear s = .next { s with crc := 0x00 } ∧
    exec .crcRead s = .next s ∧ crcRead s = (s.crc, s)

/-- CRC_BIT completes from every state and writes `CRC` only; the new register is given by the
pseudocode and bit by bit; the step is a bijection (R72).
That it may be issued alone in every phase is the model's choice, log 24. -/
def Obligations.CrcBitShiftsAndFolds : Prop :=
  Function.Bijective crcBitStep ∧
  ∀ s : State, ∃ r : Byte,
    exec .crcBit s = .next { s with crc := r } ∧
    r = (if s.crc.getLsbD 0 then (s.crc >>> 1) ^^^ 0x8C else s.crc >>> 1) ∧
    r.getLsbD 7 = s.crc.getLsbD 0 ∧
    r.getLsbD 6 = s.crc.getLsbD 7 ∧
    r.getLsbD 5 = s.crc.getLsbD 6 ∧
    r.getLsbD 4 = s.crc.getLsbD 5 ∧
    r.getLsbD 3 = (s.crc.getLsbD 4 ^^ s.crc.getLsbD 0) ∧
    r.getLsbD 2 = (s.crc.getLsbD 3 ^^ s.crc.getLsbD 0) ∧
    r.getLsbD 1 = s.crc.getLsbD 2 ∧
    r.getLsbD 0 = s.crc.getLsbD 1

/-- CRC_BYTE folds the byte in and then is eight CRC_BIT; it writes `CRC` only; an operand equal to the
register cancels it, a zero byte leaves a zero register (R73).
That it may be issued alone in every phase is the model's choice, log 24. -/
def Obligations.CrcByteIsXorThenEightBits : Prop :=
  ∀ (s : State) (b : Byte),
    exec (.crcByte b) s = execTimes .crcBit 8 { s with crc := s.crc ^^^ b } ∧
    (∃ r : Byte, exec (.crcByte b) s = .next { s with crc := r }) ∧
    exec (.crcByte s.crc) s = .next { s with crc := 0x00 } ∧
    (s.crc = 0x00 → exec (.crcByte 0x00) s = .next s)

/-- The closed form of CRC_BYTE: `T[CRC xor b]`, `T` linear with `T[0] = 0` and a bijection, and `T` the
table the spec prints (R74).
That CRC_BYTE may be issued alone in every phase is the model's choice, log 24. -/
def Obligations.CrcByteClosedForm : Prop :=
  (∀ (s : State) (b : Byte),
    exec (.crcByte b) s = .next { s with crc := crcByteStep 0x00 (s.crc ^^^ b) }) ∧
  (∀ a b : Byte, crcByteStep 0x00 (a ^^^ b) = crcByteStep 0x00 a ^^^ crcByteStep 0x00 b) ∧
  crcByteStep 0x00 0x00 = 0x00 ∧
  Function.Bijective (crcByteStep 0x00) ∧
  ∀ v : Byte, crcTable v = crcByteStep 0x00 v

/-- Eight steps of the bit-serial form, bit 0 of the byte first, give the register CRC_BYTE gives, for
every starting value (R78).
That CRC_BYTE may be issued alone in every phase is the model's choice, log 24. -/
def Obligations.CrcBitSerialFormAgrees : Prop :=
  (∀ (c : Byte) (d : Bool), crcSerialStep c d =
    (if (c.getLsbD 0 ^^ d) = true then (c >>> 1) ^^^ 0x8C else c >>> 1)) ∧
  ∀ (s : State) (b r : Byte),
    r = crcSerialStep (crcSerialStep (crcSerialStep (crcSerialStep
      (crcSerialStep (crcSerialStep (crcSerialStep (crcSerialStep s.crc
        (b.getLsbD 0)) (b.getLsbD 1)) (b.getLsbD 2)) (b.getLsbD 3))
          (b.getLsbD 4)) (b.getLsbD 5)) (b.getLsbD 6)) (b.getLsbD 7) →
    exec (.crcByte b) s = .next { s with crc := r } ∧ crcSerialByte s.crc b = r

/-- CRC_SEQ leaves `crc8` of the sequence in `CRC` and nothing else changed; `crc8` is the fold of
CRC_BYTE from `0x00`, first byte first, with the corner cases of R75.
That it may be issued alone in every phase is the model's choice, log 24. -/
def Obligations.CrcSeqIsTheFoldFromZero : Prop :=
  (∀ (s : State) (bs : List Byte),
    exec (.crcSeq bs) s = .next { s with crc := bs.foldl crcByteStep 0x00 } ∧
    crc8 bs = bs.foldl crcByteStep 0x00) ∧
  (∀ v : Byte, crc8 [v] = crcTable v) ∧
  (∀ n : Nat, crc8 (List.replicate n 0x00) = 0x00) ∧
  (∀ bs : List Byte, crc8 (0x00 :: bs) = crc8 bs) ∧
  crc8 [] = 0x00 ∧ crc8 [0x86, 0x00] = 0x85 ∧ crc8 [0x00, 0x86] = 0x51

/-- A sequence followed by its own checksum has checksum zero, and so has the payload region and
checksum of every packet (R79). That `frame` has a value for a body over 32 bytes too, for which R99 does
not define it, is the model's choice, log 27. -/
def Obligations.CrcResidueIsZero : Prop :=
  (∀ bs : List Byte, crc8 (bs ++ [crc8 bs]) = 0x00) ∧
  ∀ (o : Byte) (body : List Byte), crc8 ((frame o body).drop 2) = 0x00

/-! ### The frame assembler -/

/-- `BUF[0]` is written by FA_INIT, which puts `0xD5` there, and by nothing else: a reset issues it, no
other instruction writes that element, and no step without a reset does (R12, R91).
That FA_INIT may be issued alone, in every phase, is the model's choice, log 24. -/
def Obligations.OnlyFaInitWritesStartByte : Prop :=
  (∀ s : State, ∃ m : Memory, exec .faInit s = .next { s with buf := m } ∧
    m.read 0 = some 0xD5 ∧ ∀ a, a ≠ 0 → m.read a = s.buf.read a) ∧
  (∀ (s : State) (r : List Bool), s.rst = true :: r → ∃ t : State, step s = .next t ∧
    t.buf.read 0 = some 0xD5) ∧
  (∀ (i : Instr) (s t : State), i ≠ .faInit → exec i s = .next t → t.buf.read 0 = s.buf.read 0) ∧
  ∀ s t : State, s.noReset → step s = .next t → t.buf.read 0 = s.buf.read 0

/-- FA_PUT stores the byte unchanged at its index and changes nothing else (R92). That it faults off
2..34 is the model's reading of the operand range of R92 and of R95, log 13; that it may be issued alone in
every phase is the model's choice, log 24. -/
def Obligations.FaPutStoresByteUnchanged : Prop :=
  ∀ (s : State) (i : Nat) (b : Byte),
    (2 ≤ i → i ≤ 34 → ∃ m : Memory,
      exec (.faPut i b) s = .next { s with buf := m } ∧
      m.read i = some b ∧ ∀ a, a ≠ i → m.read a = s.buf.read a) ∧
    (i < 2 ∨ 34 < i → exec (.faPut i b) s = .fault (.bufIndex i))

/-- FA_SET_LEN completes from every state: `BUF[1] <- L + 1`, which fits 8 bits, and nothing else
(R93). That it may be issued alone in every phase is the model's choice, log 24. -/
def Obligations.FaSetLenWritesLPlusOne : Prop :=
  ∀ s : State, ∃ (m : Memory) (n : Byte),
    exec .faSetLen s = .next { s with buf := m } ∧
    m.read 1 = some n ∧ n.toNat = s.l.val + 1 ∧ ∀ a, a ≠ 1 → m.read a = s.buf.read a

/-- FA_SEAL, with the payload region `BUF[2 .. 2+L]` in the buffer, puts its checksum in `CRC` and in
`BUF[3+L]` and changes nothing else (R96).
That it may be issued alone in every phase is the model's choice, log 24. -/
def Obligations.FaSealStoresChecksum : Prop :=
  ∀ (s : State) (region : List Byte),
    region.length = s.l.val + 1 → s.buf.holds 2 region → ∃ m : Memory,
      exec .faSeal s = .next { s with crc := crc8 region, buf := m } ∧
      m.read (3 + s.l.val) = some (crc8 region) ∧
      ∀ a, a ≠ 3 + s.l.val → m.read a = s.buf.read a

/-- FA_SEAL faults on the first element of the payload region that nothing has written (R11, R96);
log 7. That it may be issued alone in every phase is the model's choice, log 24. -/
def Obligations.FaSealOfUnwrittenElementFaults : Prop :=
  ∀ (s : State) (a : Nat), 2 ≤ a → a ≤ 2 + s.l.val → s.buf.writtenIn 2 a → s.buf.read a = none →
    exec .faSeal s = .fault (.bufUnwritten a)

/-- FA_EMIT with a sink that accepts: the `L + 4` bytes of the buffer go out whole and in order, and
nothing else changes (R44, R97, R98).
That FA_EMIT issued alone begins at 0 whatever `OUT_IDX` is, is the model's choice, log 25. -/
def Obligations.FaEmitSendsTheBufferWhole : Prop :=
  ∀ (s : State) (v : List Byte) (rest : List OutAnswer),
    s.phase = .emit → v.length = s.l.val + 4 → s.buf.holds 0 v →
    s.answers = List.replicate (s.l.val + 4) .accept ++ rest →
    exec .faEmit s = .next { s with answers := rest, output := s.output ++ v, outIdx := s.l.val + 4 }

/-- FA_EMIT with a sink that accepts `j` bytes and then refuses, fails or does not answer: exactly the
first `j` bytes are out, and the error is ShortWrite or IoFailure (R44, R97, R142, R146, R164).
That FA_EMIT issued alone begins at 0 whatever `OUT_IDX` is, is the model's choice, log 25. -/
def Obligations.FaEmitStoppedLeavesPrefix : Prop :=
  ∀ (s : State) (v : List Byte) (j : Nat) (rest : List OutAnswer),
    s.phase = .emit → v.length = s.l.val + 4 → s.buf.holds 0 v → j < s.l.val + 4 →
    (s.answers = List.replicate j .accept ++ .refuse :: rest →
      exec .faEmit s = .next { s with
        answers := rest, output := s.output ++ v.take j, outIdx := j,
        errCode := .shortWrite, phase := .error }) ∧
    (∀ e, s.answers = List.replicate j .accept ++ .err e :: rest →
      exec .faEmit s = .next { s with
        answers := rest, output := s.output ++ v.take j, outIdx := j,
        errCode := .ioFailure, ioErr := some e, phase := .error }) ∧
    (s.answers = List.replicate j .accept ++ .wait :: rest →
      exec .faEmit s = .next { s with
        answers := rest, output := s.output ++ v.take j, outIdx := j }) ∧
    (s.answers = List.replicate j .accept →
      exec .faEmit s = .next { s with
        answers := [], output := s.output ++ v.take j, outIdx := j })

/-- FRAME of a body of at most 32 bytes at a command boundary, with a sink that accepts, appends exactly
`[0xD5, len(b) + 1, o] ++ b ++ [crc8([o] ++ b)]` to the output; a longer body faults (R99).
That FRAME is issued in `FETCH` and sets `L` is the model's choice, log 15, and so is the fault, log 13. -/
def Obligations.FrameAppendsThePacket : Prop :=
  ∀ (s : State) (o : Byte) (body : List Byte),
    s.phase = .fetch →
    (∀ (l : BodyLen) (rest : List OutAnswer), body.length = l.val → s.buf.read 0 = some startByte →
      s.answers = List.replicate (l.val + 4) .accept ++ rest → ∃ m : Memory,
        exec (.frame o body) s = .next { s with
          crc := crc8 (o :: body), buf := m, l := l, outIdx := l.val + 4, answers := rest,
          output := s.output ++
            ([0xD5, BitVec.ofNat 8 (body.length + 1), o] ++ body ++ [crc8 (o :: body)]) } ∧
        ∀ a, ¬(1 ≤ a ∧ a ≤ 3 + l.val) → m.read a = s.buf.read a) ∧
    (32 < body.length → exec (.frame o body) s = .fault (.frameTooLong body.length))

/-- The properties of `frame` R100 lists: (a) the start byte, (b) the size, (c) the length byte,
(d) the payload region, (e) the residue, (f) that opcode and body can be read back. -/
def Obligations.FrameProperties : Prop :=
  ∀ (o : Byte) (b : List Byte), b.length ≤ 32 →
    (frame o b)[0]? = some 0xD5 ∧
    (frame o b).length = b.length + 4 ∧
    (∃ n : Byte, (frame o b)[1]? = some n ∧ n.toNat = b.length + 1 ∧ (frame o b).length = n.toNat + 3) ∧
    ((frame o b).drop 2).take (b.length + 1) = o :: b ∧
    crc8 ((frame o b).drop 2) = 0x00 ∧
    decodePacket (frame o b) = .ok (.frame o b) ∧
    ∀ (o' : Byte) (b' : List Byte), b'.length ≤ 32 → frame o b = frame o' b' → o = o' ∧ b = b'

/-! ### Fetch and decode -/

/-- A step at a command boundary is SEQ_FETCH; with an opcode byte next it runs the instruction the
decoder reads from it, from the state in which the byte is accepted and latched; with the end of stream
next it runs SEQ_EOS (R61, R111, R119).
That `CRC` keeps its value while a command is incomplete is the model's choice, log 17 (R96 and I14 leave
it open); that a step uses up one sample of `rst` is log 20. -/
def Obligations.StepRunsTheDecodedInstruction : Prop :=
  ∀ (s : State) (o : Byte) (rest : List InEvent), s.noReset → s.phase = .fetch →
    step s = exec .seqFetch { s with rst := s.rst.tail } ∧
    (s.input = .byte o :: rest →
      decode s.cfg s.input = .ok (decodeByte s.cfg o, rest) ∧
      step s = exec (decodeByte s.cfg o) { s with
        rst := s.rst.tail, input := rest, buf := s.buf.write 2 o, rdIdx := 3, rdRem := 0,
        bytesConsumed := (s.bytesConsumed + 1) % 2 ^ s.cfg.countW, curOpcode := o, curLength := 0 }) ∧
    (s.input = .eos :: rest →
      decode s.cfg s.input = .ok (.seqEos, rest) ∧
      step s = exec .seqEos { s with rst := s.rst.tail, input := rest, rdIdx := 2, rdRem := 1 })

/-- SEQ_FETCH in phase `FETCH`: what it answers for each event of the source; for an opcode byte, the
decoded command run from the state in which the byte is accepted and latched, an unknown one ending in
the error (R111, R112, R119, R142, R164).
That `CRC` keeps its value once the opcode has arrived is the model's choice, log 17 (R96 and I14 leave it
open); the working indices after the read are log 22. -/
def Obligations.SeqFetchAnswersEachEvent : Prop :=
  ∀ (s : State) (rest : List InEvent), s.phase = .fetch →
    (s.input = .eos :: rest →
      exec .seqFetch s = .next { s with input := rest, rdIdx := 2, rdRem := 1, phase := .done }) ∧
    (∀ e, s.input = .err e :: rest →
      exec .seqFetch s = .next { s with
        input := rest, rdIdx := 2, rdRem := 1, phase := .error, errCode := .ioFailure, ioErr := some e }) ∧
    (s.input = .wait :: rest →
      exec .seqFetch s = .next { s with input := rest, rdIdx := 2, rdRem := 1 }) ∧
    (s.input = [] → exec .seqFetch s = .next { s with rdIdx := 2, rdRem := 1 }) ∧
    (∀ o, s.input = .byte o :: rest →
      exec .seqFetch s = exec (decodeByte s.cfg o) { s with
        input := rest, buf := s.buf.write 2 o, rdIdx := 3, rdRem := 0,
        bytesConsumed := (s.bytesConsumed + 1) % 2 ^ s.cfg.countW, curOpcode := o, curLength := 0 }) ∧
    (∀ o, s.input = .byte o :: rest → s.cfg.ruleOf o = none → ∃ m : Memory,
      exec .seqFetch s = .next { s with
        input := rest, rdIdx := 3, rdRem := 0, buf := m,
        bytesConsumed := (s.bytesConsumed + 1) % 2 ^ s.cfg.countW, curOpcode := o,
        curLength := 0, phase := .error, errCode := .unknownOpcode } ∧
      m.read 2 = some o ∧ ∀ a, a ≠ 2 → m.read a = s.buf.read a)

/-- Decode and encode agree: for every table, what a well-formed instruction is written as decodes to
it and to nothing else of the stream; FRAME's packet reads back; every input command has an encoding
(R51, R52, R53, R61, R100). -/
def Obligations.DecodeEncodeAgree : Prop :=
  ∀ (c : Config) (i : Instr), i.wf c = true →
    (∀ (es rest : List InEvent), encode c i = some es → decode c (es ++ rest) = .ok (i, rest)) ∧
    (∀ p : List Byte, encodePacket i = some p → decodePacket p = .ok i) ∧
    (∀ o : Byte, decodeByte c o = i → encode c i = some [.byte o])

/-- What the decoder gives is well formed for the table and is written as what it was read from: no two
encodings of one instruction; and every byte decodes, so none is without a meaning (R61, R62).
The packet clause is about the model's reader of format P, `decodePacket`: log 23. -/
def Obligations.DecodedIsWellFormedAndEncodesBack : Prop :=
  (∀ (c : Config) (o : Byte) (rest : List InEvent),
    decode c (.byte o :: rest) = .ok (decodeByte c o, rest)) ∧
  (∀ (c : Config) (evs rest : List InEvent) (i : Instr), decode c evs = .ok (i, rest) →
    i.wf c = true ∧ ∃ es, encode c i = some es ∧ evs = es ++ rest) ∧
  ∀ (c : Config) (p : List Byte) (i : Instr), decodePacket p = .ok i →
    i.wf c = true ∧ encodePacket i = some p

/-- Words written out from the spec's encodings decode to their instructions (R51, R52, R60, R114,
R116, R117), under the table of State.reset (log 4). -/
def Obligations.SpecWordsDecode : Prop :=
  decodeTableWord 8 0b10000110 = some .changeTool ∧
  decodeTableWord 8 0b00000000 = some .opcode00 ∧
  decodeTableWord 8 0b10001000 = some .toolAction ∧
  decodeTableWord 8 0b01111111 = some (.cmdUnknown 0x7F) ∧
  decode configInForce [.eos] = .ok (.seqEos, []) ∧
  decodePacket [0xD5, 0x02, 0x86, 0x00, 0x85] = .ok (.frame 0x86 [0x00])

/-! ### The commands -/

/-- CMD_UNKNOWN and OPCODE_00 at a command boundary: the fatal error UnknownOpcode, nothing else changed
(R112, R117, R143).
A command issued alone is taken as the one SEQ_FETCH has latched: the model's choice, log 25. -/
def Obligations.UnknownOpcodeIsFatal : Prop :=
  ∀ (s : State) (o : Byte) (i : Instr), (i = .cmdUnknown o ∨ i = .opcode00) → s.phase = .fetch →
    exec i s = .next { s with errCode := .unknownOpcode, phase := .error }

/-- A format F command of `n` body bytes, all at hand, with a sink that accepts: exactly `n` bytes are
consumed, the packet is `frame` of the opcode in `BUF[2]` and the body, and the registers are as R113
and R118 leave them (CMD_FIXED and CHANGE_TOOL; R113, R114, R118, R99). A length that does not fit
`CUR_LENGTH` is log 9; the working indices are log 22.
A command issued alone is taken as the one SEQ_FETCH has latched: the model's choice, log 25. -/
def Obligations.FixedCommandEmitsItsPacket : Prop :=
  ∀ (s : State) (i : Instr) (o op : Byte) (l : BodyLen) (body : List Byte) (rest : List InEvent)
    (ans : List OutAnswer),
    (i = .cmdFixed o (l.val : Int) ∨ (i = .changeTool ∧ l.val = 1)) →
    s.countInRange → s.phase = .fetch → s.buf.read 0 = some startByte → s.buf.read 2 = some op →
    body.length = l.val → s.input = body.map InEvent.byte ++ rest →
    s.answers = List.replicate (l.val + 4) .accept ++ ans → ∃ (m : Memory) (v : Int),
      exec i s = .next { s with
        crc := crc8 (op :: body), buf := m, l := l, curLength := v,
        rdIdx := 3 + l.val, rdRem := 0, outIdx := l.val + 4,
        bytesConsumed := (s.bytesConsumed + l.val) % 2 ^ s.cfg.countW,
        input := rest, answers := ans, output := s.output ++ frame op body } ∧
      (fitsSigned s.cfg.lenW l.val → v = l.val) ∧
      m.holds 0 (frame op body) ∧ ∀ a, l.val + 4 ≤ a → m.read a = s.buf.read a

/-- CHANGE_TOOL from the stream: the bytes `86 t` at a boundary, under a table with
`OPTAB[0x86] = Fixed(1)`, give the 5-byte packet `D5 02 86 t c` with `c = crc8([0x86, t])` (R114). -/
def Obligations.ChangeToolFromTheStream : Prop :=
  ∀ (s : State) (t : Byte) (rest : List InEvent) (ans : List OutAnswer),
    s.noReset → s.phase = .fetch → s.buf.read 0 = some startByte →
    s.cfg.ruleOf 0x86 = some (.fixed 1) → s.input = .byte 0x86 :: .byte t :: rest →
    s.answers = List.replicate 5 .accept ++ ans → ∃ u : State,
      step s = .next u ∧ u.output = s.output ++ [0xD5, 0x02, 0x86, t, crc8 [0x86, t]] ∧
      u.phase = .fetch ∧ u.input = rest ∧ u.answers = ans ∧
      u.bytesConsumed = (s.bytesConsumed + 2) % 2 ^ s.cfg.countW ∧ u.curOpcode = 0x86 ∧
      (fitsSigned s.cfg.lenW 1 → u.curLength = 1) ∧
      u.errCode = s.errCode ∧ u.ioErr = s.ioErr

/-- A table length off 0..32 is InternalTableInconsistency before any body byte is taken, with
`CUR_LENGTH` the entry's own value where it fits `LEN_W` bits and `L` not written (R63, R113, R145).
Where it does not fit, the value is free, log 9.
A command issued alone is taken as the one SEQ_FETCH has latched: the model's choice, log 25. -/
def Obligations.FixedLengthOutOfRangeIsFatal : Prop :=
  ∀ (s : State) (o : Byte) (n : Int), s.phase = .fetch → n < 0 ∨ 32 < n → ∃ v : Int,
    exec (.cmdFixed o n) s = .next { s with
      curLength := v, errCode := .internalTableInconsistency, phase := .error } ∧
    (fitsSigned s.cfg.lenW n → v = n)

/-- A format F body cut short after `g` bytes: TruncatedInput or IoFailure at the end of the stream or
at a failure, a hold in `BODY` when the source has nothing yet; the bytes that came are in the buffer
and counted (CMD_FIXED and CHANGE_TOOL; R42, R113, R142, R144, R164).
That `CRC` keeps its value while a command is incomplete or after its error is the model's choice, log 17
(R96 and I14 leave it open); a length that does not fit `CUR_LENGTH` is log 9.
A command issued alone is taken as the one SEQ_FETCH has latched: the model's choice, log 25. -/
def Obligations.FixedBodyCutShort : Prop :=
  ∀ (s : State) (i : Instr) (o : Byte) (l : BodyLen) (got : List Byte),
    (i = .cmdFixed o (l.val : Int) ∨ (i = .changeTool ∧ l.val = 1)) →
    s.countInRange → s.phase = .fetch → got.length < l.val → ∃ (m : Memory) (v : Int),
      (fitsSigned s.cfg.lenW l.val → v = l.val) ∧
      m.holds 3 got ∧ (∀ a, ¬(3 ≤ a ∧ a < 3 + got.length) → m.read a = s.buf.read a) ∧
      (∀ rest, s.input = got.map InEvent.byte ++ .eos :: rest →
        exec i s = .next { s with
          buf := m, l := l, curLength := v, rdIdx := 3 + got.length,
          rdRem := l.val - got.length, bytesConsumed := (s.bytesConsumed + got.length) % 2 ^ s.cfg.countW,
          input := rest, errCode := .truncatedInput, phase := .error }) ∧
      (∀ e rest, s.input = got.map InEvent.byte ++ .err e :: rest →
        exec i s = .next { s with
          buf := m, l := l, curLength := v, rdIdx := 3 + got.length,
          rdRem := l.val - got.length, bytesConsumed := (s.bytesConsumed + got.length) % 2 ^ s.cfg.countW,
          input := rest, errCode := .ioFailure, ioErr := some e, phase := .error }) ∧
      (∀ rest, s.input = got.map InEvent.byte ++ .wait :: rest →
        exec i s = .next { s with
          buf := m, l := l, curLength := v, rdIdx := 3 + got.length,
          rdRem := l.val - got.length, bytesConsumed := (s.bytesConsumed + got.length) % 2 ^ s.cfg.countW,
          input := rest, phase := .body }) ∧
      (s.input = got.map InEvent.byte →
        exec i s = .next { s with
          buf := m, l := l, curLength := v, rdIdx := 3 + got.length,
          rdRem := l.val - got.length, bytesConsumed := (s.bytesConsumed + got.length) % 2 ^ s.cfg.countW,
          input := [], phase := .body })

/-- A format E command with count at most 29, all its bytes at hand, with a sink that accepts: 3 header
and `count` data bytes are consumed, `L = count + 3`, `CUR_LENGTH = count`, and the packet is `frame` of
the opcode in `BUF[2]` and header ++ data (CMD_EMBEDDED and TOOL_ACTION; R115, R116, R118, R99). A count
that does not fit `CUR_LENGTH` is log 9; the working indices are log 22.
A command issued alone is taken as the one SEQ_FETCH has latched: the model's choice, log 25. -/
def Obligations.EmbeddedCommandEmitsItsPacket : Prop :=
  ∀ (s : State) (i : Instr) (o op h0 h1 c : Byte) (l : BodyLen) (data : List Byte)
    (rest : List InEvent) (ans : List OutAnswer),
    (i = .cmdEmbedded o ∨ i = .toolAction) →
    s.phase = .fetch → s.buf.read 0 = some startByte → s.buf.read 2 = some op →
    c.toNat + 3 = l.val → data.length = c.toNat →
    s.input = (h0 :: h1 :: c :: data).map InEvent.byte ++ rest →
    s.answers = List.replicate (l.val + 4) .accept ++ ans → ∃ (m : Memory) (v : Int),
      exec i s = .next { s with
        crc := crc8 (op :: h0 :: h1 :: c :: data), buf := m, l := l,
        curLength := v, rdIdx := 3 + l.val, rdRem := 0, outIdx := l.val + 4,
        bytesConsumed := (s.bytesConsumed + l.val) % 2 ^ s.cfg.countW,
        input := rest, answers := ans,
        output := s.output ++ frame op (h0 :: h1 :: c :: data) } ∧
      (fitsSigned s.cfg.lenW c.toNat → v = c.toNat) ∧
      m.holds 0 (frame op (h0 :: h1 :: c :: data)) ∧ ∀ a, l.val + 4 ≤ a → m.read a = s.buf.read a

/-- An embedded count of 30 to 255 is InternalTableInconsistency as soon as it is read, whatever follows:
no data byte is taken, `CUR_LENGTH = count`, `L` keeps its value, and `count + 3` never wraps
(CMD_EMBEDDED and TOOL_ACTION; R59, R64, R115, R145, R151).
That `CRC` keeps its value while a command is incomplete or after its error is the model's choice, log 17
(R96 and I14 leave it open); a count that does not fit `CUR_LENGTH` is log 9.
A command issued alone is taken as the one SEQ_FETCH has latched: the model's choice, log 25. -/
def Obligations.EmbeddedCountOverCeilingIsFatal : Prop :=
  ∀ (s : State) (i : Instr) (o h0 h1 c : Byte) (rest : List InEvent),
    (i = .cmdEmbedded o ∨ i = .toolAction) → s.phase = .fetch → 29 < c.toNat →
    s.input = .byte h0 :: .byte h1 :: .byte c :: rest → ∃ (m : Memory) (v : Int),
      exec i s = .next { s with
        buf := m, curLength := v, rdIdx := 6, rdRem := 0,
        bytesConsumed := (s.bytesConsumed + 3) % 2 ^ s.cfg.countW, input := rest,
        errCode := .internalTableInconsistency, phase := .error } ∧
      (fitsSigned s.cfg.lenW c.toNat → v = c.toNat) ∧
      m.holds 3 [h0, h1, c] ∧ ∀ a, ¬(3 ≤ a ∧ a ≤ 5) → m.read a = s.buf.read a

/-- A format E header cut short after 0 to 2 bytes (CMD_EMBEDDED and TOOL_ACTION; R42, R115, R142,
R144, R164).
That `CRC` keeps its value while a command is incomplete or after its error is the model's choice, log 17
(R96 and I14 leave it open).
A command issued alone is taken as the one SEQ_FETCH has latched: the model's choice, log 25. -/
def Obligations.EmbeddedHeaderCutShort : Prop :=
  ∀ (s : State) (i : Instr) (o : Byte) (got : List Byte),
    (i = .cmdEmbedded o ∨ i = .toolAction) → s.countInRange → s.phase = .fetch → got.length < 3 →
    ∃ m : Memory,
      m.holds 3 got ∧ (∀ a, ¬(3 ≤ a ∧ a < 3 + got.length) → m.read a = s.buf.read a) ∧
      (∀ rest, s.input = got.map InEvent.byte ++ .eos :: rest →
        exec i s = .next { s with
          buf := m, rdIdx := 3 + got.length, rdRem := 3 - got.length,
          bytesConsumed := (s.bytesConsumed + got.length) % 2 ^ s.cfg.countW, input := rest,
          errCode := .truncatedInput, phase := .error }) ∧
      (∀ e rest, s.input = got.map InEvent.byte ++ .err e :: rest →
        exec i s = .next { s with
          buf := m, rdIdx := 3 + got.length, rdRem := 3 - got.length,
          bytesConsumed := (s.bytesConsumed + got.length) % 2 ^ s.cfg.countW, input := rest,
          errCode := .ioFailure, ioErr := some e, phase := .error }) ∧
      (∀ rest, s.input = got.map InEvent.byte ++ .wait :: rest →
        exec i s = .next { s with
          buf := m, rdIdx := 3 + got.length, rdRem := 3 - got.length,
          bytesConsumed := (s.bytesConsumed + got.length) % 2 ^ s.cfg.countW, input := rest,
          phase := .header }) ∧
      (s.input = got.map InEvent.byte →
        exec i s = .next { s with
          buf := m, rdIdx := 3 + got.length, rdRem := 3 - got.length,
          bytesConsumed := (s.bytesConsumed + got.length) % 2 ^ s.cfg.countW, input := [],
          phase := .header })

/-- A format E command whose data is cut short after its header (CMD_EMBEDDED and TOOL_ACTION; R42,
R115, R142, R144, R164).
That `CRC` keeps its value while a command is incomplete or after its error is the model's choice, log 17
(R96 and I14 leave it open); a count that does not fit `CUR_LENGTH` is log 9.
A command issued alone is taken as the one SEQ_FETCH has latched: the model's choice, log 25. -/
def Obligations.EmbeddedDataCutShort : Prop :=
  ∀ (s : State) (i : Instr) (o h0 h1 c : Byte) (l : BodyLen) (got : List Byte),
    (i = .cmdEmbedded o ∨ i = .toolAction) → s.phase = .fetch →
    c.toNat + 3 = l.val → got.length < c.toNat → ∃ (m : Memory) (v : Int),
      (fitsSigned s.cfg.lenW c.toNat → v = c.toNat) ∧
      m.holds 3 (h0 :: h1 :: c :: got) ∧
      (∀ a, ¬(3 ≤ a ∧ a < 6 + got.length) → m.read a = s.buf.read a) ∧
      (∀ rest, s.input = (h0 :: h1 :: c :: got).map InEvent.byte ++ .eos :: rest →
        exec i s = .next { s with
          buf := m, l := l, curLength := v, rdIdx := 6 + got.length,
          rdRem := c.toNat - got.length,
          bytesConsumed := (s.bytesConsumed + 3 + got.length) % 2 ^ s.cfg.countW, input := rest,
          errCode := .truncatedInput, phase := .error }) ∧
      (∀ e rest, s.input = (h0 :: h1 :: c :: got).map InEvent.byte ++ .err e :: rest →
        exec i s = .next { s with
          buf := m, l := l, curLength := v, rdIdx := 6 + got.length,
          rdRem := c.toNat - got.length,
          bytesConsumed := (s.bytesConsumed + 3 + got.length) % 2 ^ s.cfg.countW, input := rest,
          errCode := .ioFailure, ioErr := some e, phase := .error }) ∧
      (∀ rest, s.input = (h0 :: h1 :: c :: got).map InEvent.byte ++ .wait :: rest →
        exec i s = .next { s with
          buf := m, l := l, curLength := v, rdIdx := 6 + got.length,
          rdRem := c.toNat - got.length,
          bytesConsumed := (s.bytesConsumed + 3 + got.length) % 2 ^ s.cfg.countW, input := rest,
          phase := .body }) ∧
      (s.input = (h0 :: h1 :: c :: got).map InEvent.byte →
        exec i s = .next { s with
          buf := m, l := l, curLength := v, rdIdx := 6 + got.length,
          rdRem := c.toNat - got.length,
          bytesConsumed := (s.bytesConsumed + 3 + got.length) % 2 ^ s.cfg.countW, input := [],
          phase := .body })

/-- SEQ_EMIT with the opcode and body in the buffer and a sink that accepts: length byte and checksum
are placed, the packet goes out, and the sequencer is back at a boundary; the diagnostic registers do
not change (R118).
That SEQ_EMIT issued alone runs on what `BUF` holds, whatever `RD_REM` is, is the model's choice, log 25. -/
def Obligations.SeqEmitSealsAndSends : Prop :=
  ∀ (s : State) (op : Byte) (body : List Byte) (ans : List OutAnswer),
    s.phase = .body → s.buf.read 0 = some startByte → body.length = s.l.val →
    s.buf.holds 2 (op :: body) → s.answers = List.replicate (s.l.val + 4) .accept ++ ans → ∃ m : Memory,
      exec .seqEmit s = .next { s with
        crc := crc8 (op :: body), buf := m, phase := .fetch, outIdx := s.l.val + 4, answers := ans,
        output := s.output ++ frame op body } ∧
      m.holds 0 (frame op body) ∧
      ∀ a, a ≠ 1 → a ≠ 3 + s.l.val → m.read a = s.buf.read a

/-- SEQ_EMIT with a sink that takes `j` bytes, fewer than the packet has, and then refuses, fails or does
not answer: the packet is sealed in the buffer, exactly its first `j` bytes are out, and the error is
ShortWrite or IoFailure, or the sequencer is held in `EMIT` (R44, R118, R142, R146, R164).
That SEQ_EMIT issued alone runs on what `BUF` holds, whatever `RD_REM` is, is the model's choice, log 25. -/
def Obligations.SeqEmitStoppedLeavesPrefix : Prop :=
  ∀ (s : State) (op : Byte) (body : List Byte) (j : Nat),
    s.phase = .body → s.buf.read 0 = some startByte → body.length = s.l.val →
    s.buf.holds 2 (op :: body) → j < s.l.val + 4 → ∃ m : Memory,
      m.holds 0 (frame op body) ∧
      (∀ a, a ≠ 1 → a ≠ 3 + s.l.val → m.read a = s.buf.read a) ∧
      (∀ ans, s.answers = List.replicate j .accept ++ .refuse :: ans →
        exec .seqEmit s = .next { s with
          crc := crc8 (op :: body), buf := m, outIdx := j, answers := ans,
          output := s.output ++ (frame op body).take j, errCode := .shortWrite, phase := .error }) ∧
      (∀ e ans, s.answers = List.replicate j .accept ++ .err e :: ans →
        exec .seqEmit s = .next { s with
          crc := crc8 (op :: body), buf := m, outIdx := j, answers := ans,
          output := s.output ++ (frame op body).take j, errCode := .ioFailure, ioErr := some e,
          phase := .error }) ∧
      (∀ ans, s.answers = List.replicate j .accept ++ .wait :: ans →
        exec .seqEmit s = .next { s with
          crc := crc8 (op :: body), buf := m, outIdx := j, answers := ans,
          output := s.output ++ (frame op body).take j, phase := .emit }) ∧
      (s.answers = List.replicate j .accept →
        exec .seqEmit s = .next { s with
          crc := crc8 (op :: body), buf := m, outIdx := j, answers := [],
          output := s.output ++ (frame op body).take j, phase := .emit })

/-- SEQ_EOS at a command boundary: `PHASE <- DONE` and no other register changes; a step that meets the
end of stream there ends cleanly (R119).
That SEQ_EOS issued alone needs no event at hand is the model's choice, log 25. -/
def Obligations.EndOfStreamAtBoundaryIsClean : Prop :=
  ∀ s : State, s.phase = .fetch →
    exec .seqEos s = .next { s with phase := .done } ∧
    (∀ rest, s.noReset → s.input = .eos :: rest → ∃ t : State, step s = .next t ∧
      t.doneFlag = true ∧ t.errorFlag = false ∧ t.errCode = s.errCode ∧ t.output = s.output ∧
      t.diagnostics = s.diagnostics ∧ t.buf = s.buf ∧ t.crc = s.crc ∧ t.l = s.l)

/-! ### The end of a run, and reset -/

/-- `DONE` and `ERROR` are absorbing: a step without a reset takes no event, offers no byte and changes
no register, however often; a reset starts the block afresh and keeps nothing of it (R155). -/
def Obligations.TerminalPhasesAreAbsorbing : Prop :=
  ∀ s : State, s.phase.terminal = true →
    (s.noReset → step s = .next { s with rst := s.rst.tail }) ∧
    (s.rst = [] → ∀ k : Nat, Host.Core.run core k s = .next s) ∧
    ∀ r : List Bool, s.rst = true :: r → step s = .next { State.reset with
      cfg := s.cfg, input := s.input, answers := s.answers, rst := r, output := s.output }

/-- An operation of the sequencer issued alone in a running phase that does not enable it is refused,
and in `DONE` and `ERROR` it changes nothing: the model's own choice, log 14 (R111 says when SEQ_FETCH
is enabled, R121 that nothing leaves the terminal phases). -/
def Obligations.OperationsOffTheirPhaseAreRefused : Prop :=
  (∀ (s : State) (o : Byte) (n : Int) (body : List Byte) (i : Instr), s.phase.terminal = true →
    i ∈ [.changeTool, .toolAction, .opcode00, .cmdFixed o n, .cmdEmbedded o, .cmdUnknown o, .seqEos,
      .seqFetch, .seqEmit, .faEmit, .frame o body] → exec i s = .next s) ∧
  ∀ (s : State) (o : Byte) (n : Int) (body : List Byte) (i : Instr), s.phase.terminal = false →
    (s.phase ≠ .fetch →
      i ∈ [.changeTool, .toolAction, .opcode00, .cmdFixed o n, .cmdEmbedded o, .cmdUnknown o, .seqEos,
        .seqFetch, .frame o body] → exec i s = .refused .notEnabled) ∧
    (s.phase ≠ .body → exec .seqEmit s = .refused .notEnabled) ∧
    (s.phase ≠ .emit → exec .faEmit s = .refused .notEnabled)

/-- Reset, in any phase: every register gets the value R170 gives, whatever was before; the table, both
streams and the output so far are not touched; and the next thing the block does is SEQ_FETCH
(R170, R171, R172). -/
def Obligations.ResetGivesTheResetState : Prop :=
  ∀ (s : State) (r : List Bool), s.rst = true :: r →
    step s = .next { State.reset with
      cfg := s.cfg, input := s.input, answers := s.answers, rst := r, output := s.output } ∧
    (∀ t : State, step s = .next t → t.noReset → step t = exec .seqFetch { t with rst := r.tail }) ∧
    State.reset.buf.read 0 = some 0xD5 ∧ (∀ a, a ≠ 0 → State.reset.buf.read a = none) ∧
    State.reset.crc = 0x00 ∧ State.reset.l = 0 ∧ State.reset.phase = .fetch ∧
    State.reset.doneFlag = false ∧ State.reset.errorFlag = false ∧ State.reset.errCode.bits = 0 ∧
    State.reset.ioErr = none ∧ State.reset.bytesConsumed = 0 ∧ State.reset.curOpcode = 0x00 ∧
    State.reset.curLength = 0 ∧ State.reset.rdIdx = 0 ∧ State.reset.rdRem = 0 ∧ State.reset.outIdx = 0

/-! ### Invariants and whole-machine rules -/

/-- The reset state meets the invariant. -/
def Obligations.ResetMeetsTheInvariant : Prop := BlockInv State.reset

/-- Every step keeps the invariant, from every state that has it: the buffer keeps its canonical form
and its start byte, `BYTES_CONSUMED` and `CUR_LENGTH` keep their widths, the error registers agree with
the phase, and in each phase the buffer, the indices, `L` and the diagnostics are those of the command in
progress (R11 to R21, R26, R34, R94). -/
def Obligations.StepKeepsTheInvariant : Prop :=
  ∀ s t : State, BlockInv s → step s = .next t → BlockInv t

/-- From a state that meets the invariant a step never faults, so no rule reads an unwritten element or
an index off the buffer (R11, R26, R95), and it refuses only an ill-formed environment (R46). -/
def Obligations.StepNeverFaults : Prop :=
  ∀ s : State, BlockInv s →
    (∃ t, step s = .next t) ∨
    (step s = .refused .illFormedSource ∧ .clash ∈ s.input) ∨
    (step s = .refused .illFormedSink ∧ .clash ∈ s.answers)

/-- No instruction and no step, reset included, writes the table (R24, R41, R171). -/
def Obligations.TableIsNeverWritten : Prop :=
  (∀ (i : Instr) (s t : State), exec i s = .next t → t.cfg = s.cfg) ∧
  ∀ s t : State, step s = .next t → t.cfg = s.cfg

/-- A write to the output cannot be taken back: every step, reset included, only appends (R35, R171). -/
def Obligations.OutputOnlyGrows : Prop :=
  ∀ s t : State, step s = .next t → ∃ v : List Byte, t.output = s.output ++ v

/-- Without a reset, a step takes events from the head of the input and no others, and `BYTES_CONSUMED`
grows by exactly the number of bytes among them, modulo `2^COUNT_W` (R15, R18, R35, R39, R161). -/
def Obligations.ConsumedCountMatchesInput : Prop :=
  ∀ s t : State, s.countInRange → s.noReset → step s = .next t → ∃ taken : List InEvent,
    s.input = taken ++ t.input ∧
    t.bytesConsumed = (s.bytesConsumed + byteCount taken) % 2 ^ s.cfg.countW

/-- The sequencer takes no input event while `PHASE = EMIT`, nor in `DONE` and `ERROR` (R39, R155). -/
def Obligations.NoInputTakenWhileEmitting : Prop :=
  ∀ s t : State, s.noReset → (s.phase = .emit ∨ s.phase.terminal = true) → step s = .next t →
    t.input = s.input ∧ t.bytesConsumed = s.bytesConsumed ∧ t.curOpcode = s.curOpcode ∧
    t.curLength = s.curLength

/-- Store and forward: a step that enters `ERROR` with UnknownOpcode, TruncatedInput or
InternalTableInconsistency, or with IoFailure because the source failed, has put nothing on the output;
one that enters it with ShortWrite, or with IoFailure because the sink failed, has put out exactly the
bytes of its packet, which the buffer holds, up to `OUT_IDX`, not all of them
(R34, R142 to R146, R153). -/
def Obligations.PartialPacketsOnlyFromWrites : Prop :=
  ∀ s t : State, BlockInv s → s.noReset → s.phase ≠ .error → step s = .next t → t.phase = .error →
    (t.errCode ∈ [.unknownOpcode, .truncatedInput, .internalTableInconsistency] →
      t.output = s.output ∧ t.answers = s.answers) ∧
    (t.errCode ∈ [.ioFailure, .shortWrite] →
      (∃ (e : IoErr) (taken : List InEvent), t.errCode = .ioFailure ∧ t.ioErr = some e ∧
        s.input = taken ++ .err e :: t.input ∧ t.output = s.output ∧ t.answers = s.answers) ∨
      ∃ (last : OutAnswer) (body : List Byte) (j : Nat),
        (t.errCode = .shortWrite ∧ last = .refuse ∨
          ∃ e, t.errCode = .ioFailure ∧ t.ioErr = some e ∧ last = .err e) ∧
        (j = if s.phase = .emit then s.outIdx else 0) ∧ j ≤ t.outIdx ∧ t.outIdx < t.l.val + 4 ∧
        body.length = t.l.val ∧ t.buf.holds 0 (frame t.curOpcode body) ∧
        s.answers = List.replicate (t.outIdx - j) .accept ++ last :: t.answers ∧
        t.output = s.output ++ ((frame t.curOpcode body).take t.outIdx).drop j)

/-- The rows of the phase graph that leave `FETCH`, one event at hand and the sink silent (R121). -/
def Obligations.PhaseGraphFromFetch : Prop :=
  ∀ (s : State) (ev : InEvent), BlockInv s → s.noReset → s.phase = .fetch → s.answers = [] →
    s.input = [ev] → ev ≠ .clash → ∃ t : State, step s = .next t ∧
      (ev = .eos → t.phase = .done) ∧
      (∀ e, ev = .err e → t.phase = .error ∧ t.errCode = .ioFailure ∧ t.ioErr = some e) ∧
      (∀ o, ev = .byte o →
        (s.cfg.ruleOf o = none → t.phase = .error ∧ t.errCode = .unknownOpcode) ∧
        (∀ n, s.cfg.ruleOf o = some (.fixed n) →
          (n < 0 ∨ 32 < n → t.phase = .error ∧ t.errCode = .internalTableInconsistency) ∧
          (n = 0 → t.phase = .emit) ∧
          (1 ≤ n → n ≤ 32 → t.phase = .body)) ∧
        (s.cfg.ruleOf o = some .embedded → t.phase = .header))

/-- The rows of the phase graph that leave `HEADER`, one event at hand and the sink silent (R121), and the
whole next state for each: a byte goes unchanged to `BUF[RD_IDX]`, `RD_IDX` and `RD_REM` move by one, and
no other index of the buffer changes but those of the length byte and the checksum when a count of 0 has
the packet sealed at once (R38, R42, R115, R118, R142, R144, R145).
That `CRC` keeps its value until then is the model's choice, log 17; a count that does not fit `CUR_LENGTH`
is log 9; that a step uses up one sample of `rst` is log 20. -/
def Obligations.PhaseGraphFromHeader : Prop :=
  ∀ (s : State) (ev : InEvent), BlockInv s → s.noReset → s.phase = .header → s.answers = [] →
    s.input = [ev] → ev ≠ .clash → ∃ t : State, step s = .next t ∧
      (ev = .eos → t = { s with
        rst := s.rst.tail, input := [], phase := .error, errCode := .truncatedInput }) ∧
      (∀ e, ev = .err e → t = { s with
        rst := s.rst.tail, input := [], phase := .error, errCode := .ioFailure, ioErr := some e }) ∧
      (∀ c, ev = .byte c → ∃ (m : Memory) (v : Int),
        m.read s.rdIdx = some c ∧ (fitsSigned s.cfg.lenW c.toNat → v = c.toNat) ∧
        (¬(s.rdRem = 1 ∧ c = 0) → ∀ a, a ≠ s.rdIdx → m.read a = s.buf.read a) ∧
        (1 < s.rdRem → t = { s with
          rst := s.rst.tail, input := [], buf := m, rdIdx := s.rdIdx + 1, rdRem := s.rdRem - 1,
          bytesConsumed := (s.bytesConsumed + 1) % 2 ^ s.cfg.countW }) ∧
        (s.rdRem = 1 → 29 < c.toNat → t = { s with
          rst := s.rst.tail, input := [], buf := m, rdIdx := s.rdIdx + 1, rdRem := 0,
          bytesConsumed := (s.bytesConsumed + 1) % 2 ^ s.cfg.countW, curLength := v,
          phase := .error, errCode := .internalTableInconsistency }) ∧
        (s.rdRem = 1 → c = 0 → ∃ body : List Byte, body.length = 3 ∧
          m.holds 0 (frame s.curOpcode body) ∧
          (∀ a, a ≠ s.rdIdx → a ≠ 1 → a ≠ 6 → m.read a = s.buf.read a) ∧
          t = { s with
            rst := s.rst.tail, input := [], buf := m, rdIdx := s.rdIdx + 1, rdRem := 0,
            bytesConsumed := (s.bytesConsumed + 1) % 2 ^ s.cfg.countW, curLength := v, l := 3,
            crc := crc8 (s.curOpcode :: body), outIdx := 0, phase := .emit }) ∧
        (s.rdRem = 1 → 1 ≤ c.toNat → c.toNat ≤ 29 → ∃ l : BodyLen, l.val = c.toNat + 3 ∧
          t = { s with
            rst := s.rst.tail, input := [], buf := m, rdIdx := s.rdIdx + 1, rdRem := c.toNat,
            bytesConsumed := (s.bytesConsumed + 1) % 2 ^ s.cfg.countW, curLength := v, l := l,
            phase := .body }))

/-- The rows of the phase graph that leave `BODY`, one event at hand and the sink silent (R121), and the
whole next state for each: a byte goes unchanged to `BUF[RD_IDX]`, `RD_IDX` and `RD_REM` move by one, and
no other index of the buffer changes but those of the length byte and the checksum when the last byte has
the packet sealed (R38, R42, R113, R115, R118, R142, R144).
That `CRC` keeps its value until then is the model's choice, log 17; that a step uses up one sample of `rst`
is log 20. -/
def Obligations.PhaseGraphFromBody : Prop :=
  ∀ (s : State) (ev : InEvent), BlockInv s → s.noReset → s.phase = .body → s.answers = [] →
    s.input = [ev] → ev ≠ .clash → ∃ t : State, step s = .next t ∧
      (ev = .eos → t = { s with
        rst := s.rst.tail, input := [], phase := .error, errCode := .truncatedInput }) ∧
      (∀ e, ev = .err e → t = { s with
        rst := s.rst.tail, input := [], phase := .error, errCode := .ioFailure, ioErr := some e }) ∧
      (∀ b, ev = .byte b → ∃ m : Memory,
        m.read s.rdIdx = some b ∧
        (1 < s.rdRem → (∀ a, a ≠ s.rdIdx → m.read a = s.buf.read a) ∧ t = { s with
          rst := s.rst.tail, input := [], buf := m, rdIdx := s.rdIdx + 1, rdRem := s.rdRem - 1,
          bytesConsumed := (s.bytesConsumed + 1) % 2 ^ s.cfg.countW }) ∧
        (s.rdRem = 1 → ∃ body : List Byte, body.length = s.l.val ∧
          m.holds 0 (frame s.curOpcode body) ∧
          (∀ a, a ≠ s.rdIdx → a ≠ 1 → a ≠ 3 + s.l.val → m.read a = s.buf.read a) ∧
          t = { s with
            rst := s.rst.tail, input := [], buf := m, rdIdx := s.rdIdx + 1, rdRem := 0,
            bytesConsumed := (s.bytesConsumed + 1) % 2 ^ s.cfg.countW,
            crc := crc8 (s.curOpcode :: body), outIdx := 0, phase := .emit }))

/-- The rows of the phase graph that leave `EMIT`, one answer at hand (R121), and the whole next state for
each: on `Accept` the output gains exactly the packet's byte at `OUT_IDX`, and `OUT_IDX` grows by one
(R44, R97, R118, R142, R146). That a step uses up one sample of `rst` is log 20. -/
def Obligations.PhaseGraphFromEmit : Prop :=
  ∀ (s : State) (a : OutAnswer), BlockInv s → s.noReset → s.phase = .emit → s.answers = [a] →
    a ≠ .clash → ∃ t : State, step s = .next t ∧
      (a = .accept → ∃ (body : List Byte) (b : Byte), body.length = s.l.val ∧
        s.buf.holds 0 (frame s.curOpcode body) ∧ (frame s.curOpcode body)[s.outIdx]? = some b ∧
        (s.outIdx < s.l.val + 3 → t = { s with
          rst := s.rst.tail, answers := [], output := s.output ++ [b], outIdx := s.outIdx + 1 }) ∧
        (s.outIdx = s.l.val + 3 → t = { s with
          rst := s.rst.tail, answers := [], output := s.output ++ [b], outIdx := s.outIdx + 1,
          phase := .fetch })) ∧
      (a = .refuse → t = { s with
        rst := s.rst.tail, answers := [], phase := .error, errCode := .shortWrite }) ∧
      (∀ e, a = .err e → t = { s with
        rst := s.rst.tail, answers := [], phase := .error, errCode := .ioFailure, ioErr := some e })

/-- A hold: with nothing from the source in a read, or nothing from the sink in a write, whether the list
has ended or a `wait` comes next, a step changes nothing, but that at a command boundary the read that
begins sets its own indices (R8, R42, R44, R111, R164).
That a held step is a next state is log 3, that the indices stay as the read set them log 22, what a `wait`
is log 2, and that a step uses up one sample of `rst` log 20. -/
def Obligations.HeldStepKeepsTheState : Prop :=
  ∀ s : State, BlockInv s → s.noReset →
    (s.phase = .fetch →
      (s.input = [] → step s = .next { s with rst := s.rst.tail, rdIdx := 2, rdRem := 1 }) ∧
      ∀ r, s.input = .wait :: r →
        step s = .next { s with rst := s.rst.tail, input := r, rdIdx := 2, rdRem := 1 }) ∧
    (s.phase = .header ∨ s.phase = .body →
      (s.input = [] → step s = .next { s with rst := s.rst.tail }) ∧
      ∀ r, s.input = .wait :: r → step s = .next { s with rst := s.rst.tail, input := r }) ∧
    (s.phase = .emit →
      (s.answers = [] → step s = .next { s with rst := s.rst.tail }) ∧
      ∀ r, s.answers = .wait :: r → step s = .next { s with rst := s.rst.tail, answers := r })

/-- Two events, or two answers, at once: the model refuses the environment; the pins give that event
exactly when more than one of them is set (R46, I10). -/
def Obligations.IllFormedEnvironmentIsRefused : Prop :=
  (∀ (s : State) (rest : List InEvent), BlockInv s → s.noReset →
    (s.phase = .fetch ∨ s.phase = .header ∨ s.phase = .body) → s.input = .clash :: rest →
    step s = .refused .illFormedSource) ∧
  (∀ (s : State) (rest : List OutAnswer), BlockInv s → s.noReset → s.phase = .emit →
    s.answers = .clash :: rest → step s = .refused .illFormedSink) ∧
  (∀ p : InPins, p.event = .clash ↔
    (p.inValid && p.inEos || p.inValid && p.inErr || p.inEos && p.inErr) = true) ∧
  (∀ p : OutPins, p.answer = .clash ↔
    (p.outReady && p.outRefuse || p.outReady && p.outErr || p.outRefuse && p.outErr) = true)

/-- In `EMIT` the buffer holds the command's packet, the byte offered is the packet's byte at `OUT_IDX`,
and the last one is its checksum (R46, R97, R98). -/
def Obligations.OfferedByteIsThePacketByte : Prop :=
  ∀ s : State, BlockInv s → s.phase = .emit → ∃ body : List Byte, body.length = s.l.val ∧
    s.buf.holds 0 (frame s.curOpcode body) ∧
    s.outValid = true ∧ s.outData = (frame s.curOpcode body)[s.outIdx]? ∧
    (s.outLast = true → s.outData = some (crc8 (s.curOpcode :: body)))

/-- Stale buffer bytes, `CRC`, `L` and the working indices never show: two runs from a command boundary
that agree on what can be seen, on the environment and on the table agree on it for ever (R26, R172). -/
def Obligations.StaleStateNeverShows : Prop :=
  ∀ (s₁ s₂ : State) (k : Nat) (t₁ : State), BlockInv s₁ → BlockInv s₂ → s₁.phase = .fetch →
    s₁.visible = s₂.visible → s₁.cfg = s₂.cfg → Host.Core.run core k s₁ = .next t₁ →
    ∃ t₂ : State, Host.Core.run core k s₂ = .next t₂ ∧ t₁.visible = t₂.visible

/-- Of the table only the length rules matter: names have no effect (R23), and TOOL_ACTION is
CMD_EMBEDDED whatever its opcode (R116). -/
def Obligations.OnlyTheLengthRulesMatter : Prop :=
  ∀ (s t : State) (c : Config), (∀ o, c.ruleOf o = s.cfg.ruleOf o) →
    c.countW = s.cfg.countW → c.lenW = s.cfg.lenW → step s = .next t →
    step { s with cfg := c } = .next { t with cfg := c }

/-- The flags: `DONE` and `ERROR` are never both 1, the codes are those of R141, and under the invariant
`ERR_CODE` is 0 exactly while `ERROR` is 0 (R16, R17, R141). -/
def Obligations.FlagsAndErrorCodes : Prop :=
  (∀ s : State, ¬(s.doneFlag = true ∧ s.errorFlag = true)) ∧
  (∀ s : State, BlockInv s → (s.errCode.bits = 0 ↔ s.errorFlag = false)) ∧
  (∀ x : ErrCode, x.bits ≠ 6 ∧ x.bits ≠ 7) ∧
  [ErrCode.none, .ioFailure, .unknownOpcode, .truncatedInput, .internalTableInconsistency,
    .shortWrite].map ErrCode.bits = [0, 1, 2, 3, 4, 5]

/-! ### The whole run -/

/-- The whole run of R122: from reset, for every table and every finite input ended by `Eos` or
`Err(e)`, with a sink that accepts, and with any waits between the events and between the answers, the
machine ends in the terminal phase, with the output and the fields, that `run(s, 0)` gives; a length that
does not fit `CUR_LENGTH` leaves the free value of log 9 there.
That the input is a finite list is log 26, what a `wait` is log 2. -/
def Obligations.WholeRunIsTheReframing : Prop :=
  ∀ (c : Config) (t : Terminator) (bs : List Byte) (evs : List InEvent) (ans : List OutAnswer) (m k : Nat),
    evs.filter (· ≠ .wait) = bs.map InEvent.byte ++ [t.event] →
    ans.filter (· ≠ .wait) = List.replicate m .accept →
    (reframeAll c t bs).output.length ≤ m → evs.length + ans.count .wait ≤ k → ∃ u : State,
      Host.Core.run core k (State.start c evs ans) = .next u ∧
      u.output = (reframeAll c t bs).output ∧
      u.errCode = (reframeAll c t bs).errCode ∧
      (u.phase = if (reframeAll c t bs).errCode = .none then .done else .error) ∧
      u.curOpcode = (reframeAll c t bs).opcode ∧
      u.curLength = lengthReg c.lenW (reframeAll c t bs).length ∧
      u.bytesConsumed = (reframeAll c t bs).bytes % 2 ^ c.countW ∧
      u.ioErr = (reframeAll c t bs).ioErr

/-- The same run with a sink that takes `j` bytes, fewer than the run would put out, and then refuses or
fails: the output is exactly the first `j` bytes of the run's, and the outcome ShortWrite or IoFailure,
with any waits between the events and between the answers (R122, R146).
That the input is a finite list is log 26, what a `wait` is log 2. -/
def Obligations.StoppedSinkLeavesPrefixOfTheRun : Prop :=
  ∀ (c : Config) (t : Terminator) (bs : List Byte) (evs : List InEvent) (ans : List OutAnswer) (j k : Nat),
    evs.filter (· ≠ .wait) = bs.map InEvent.byte ++ [t.event] →
    j < (reframeAll c t bs).output.length → evs.length + ans.count .wait ≤ k →
    (ans.filter (· ≠ .wait) = List.replicate j .accept ++ [.refuse] → ∃ u : State,
      Host.Core.run core k (State.start c evs ans) = .next u ∧
      u.output = (reframeAll c t bs).output.take j ∧ u.phase = .error ∧ u.errCode = .shortWrite) ∧
    ∀ e : IoErr, ans.filter (· ≠ .wait) = List.replicate j .accept ++ [.err e] → ∃ u : State,
      Host.Core.run core k (State.start c evs ans) = .next u ∧
      u.output = (reframeAll c t bs).output.take j ∧ u.phase = .error ∧ u.errCode = .ioFailure ∧
      u.ioErr = some e

/-- A clean run: when every command of the input is whole and known, the output is one packet a command,
in order, so its length is the input's plus 3 a command, and the run ends `DONE`, with any waits between
the events and between the answers (R38, R123).
That the input is a finite list is log 26, what a `wait` is log 2. -/
def Obligations.CleanRunEmitsOnePacketPerCommand : Prop :=
  ∀ (c : Config) (cmds : List (Byte × List Byte)) (evs : List InEvent) (ans : List OutAnswer) (m k : Nat),
    (∀ x ∈ cmds, c.ruleOf x.1 = some (.fixed x.2.length) ∧ x.2.length ≤ 32 ∨
      c.ruleOf x.1 = some .embedded ∧ ∃ h0 h1 n : Byte, ∃ data : List Byte,
        x.2 = h0 :: h1 :: n :: data ∧ data.length = n.toNat ∧ n.toNat ≤ 29) →
    evs.filter (· ≠ .wait) = (cmds.flatMap fun x => x.1 :: x.2).map InEvent.byte ++ [.eos] →
    ans.filter (· ≠ .wait) = List.replicate m .accept →
    (cmds.flatMap fun x => x.1 :: x.2).length + 3 * cmds.length ≤ m →
    cmds.length + 1 + evs.count .wait + ans.count .wait ≤ k →
    ∃ u : State,
      Host.Core.run core k (State.start c evs ans) = .next u ∧
      u.phase = .done ∧ u.errCode = .none ∧
      u.output = (cmds.flatMap fun x => frame x.1 x.2) ∧
      u.output.length = (cmds.flatMap fun x => x.1 :: x.2).length + 3 * cmds.length ∧
      u.bytesConsumed = (cmds.flatMap fun x => x.1 :: x.2).length % 2 ^ c.countW

/-- Waits do not show: two states that differ in nothing but the waits among the coming events and answers
come, if one comes to a terminal phase, to the same one, with the same output and registers; and until
then what one has put out the other puts out too, so held and endless runs show the same (R43, R47, R164).
What a `wait` is is log 2; the reset line stays idle. -/
def Obligations.WaitsDoNotShow : Prop :=
  ∀ (s₁ s₂ t₁ : State) (k : Nat), s₁.rst = [] → s₁.withoutWaits = s₂.withoutWaits →
    Host.Core.run core k s₁ = .next t₁ →
    (t₁.phase.terminal = true → ∃ t₂ : State, Host.Core.run core (k + s₂.waits) s₂ = .next t₂ ∧
      t₂.withoutWaits = t₁.withoutWaits ∧ t₂.observe = t₁.observe) ∧
    ∀ t₂ : State, Host.Core.run core (k + s₂.waits) s₂ = .next t₂ → ∃ v, t₂.output = t₁.output ++ v
end

