-- ==== Sys2Proof/Laws/State.lean ====
section
/-! SUPPORT. One lemma for each field of the state and each named update, true by rfl, so that no later
proof unfolds a record update. -/

namespace Sys2Proof.Machine

/-! ### CRC_CLEAR writes `CRC` only (R71) -/

@[simp] theorem crcClear_crc (s : State) : (crcClear s).crc = crcInit := rfl
@[simp] theorem crcClear_buf (s : State) : (crcClear s).buf = s.buf := rfl
@[simp] theorem crcClear_l (s : State) : (crcClear s).l = s.l := rfl
@[simp] theorem crcClear_phase (s : State) : (crcClear s).phase = s.phase := rfl
@[simp] theorem crcClear_errCode (s : State) : (crcClear s).errCode = s.errCode := rfl
@[simp] theorem crcClear_bytesConsumed (s : State) : (crcClear s).bytesConsumed = s.bytesConsumed := rfl
@[simp] theorem crcClear_curOpcode (s : State) : (crcClear s).curOpcode = s.curOpcode := rfl
@[simp] theorem crcClear_curLength (s : State) : (crcClear s).curLength = s.curLength := rfl
@[simp] theorem crcClear_ioErr (s : State) : (crcClear s).ioErr = s.ioErr := rfl
@[simp] theorem crcClear_rdIdx (s : State) : (crcClear s).rdIdx = s.rdIdx := rfl
@[simp] theorem crcClear_rdRem (s : State) : (crcClear s).rdRem = s.rdRem := rfl
@[simp] theorem crcClear_outIdx (s : State) : (crcClear s).outIdx = s.outIdx := rfl
@[simp] theorem crcClear_cfg (s : State) : (crcClear s).cfg = s.cfg := rfl
@[simp] theorem crcClear_input (s : State) : (crcClear s).input = s.input := rfl
@[simp] theorem crcClear_answers (s : State) : (crcClear s).answers = s.answers := rfl
@[simp] theorem crcClear_rst (s : State) : (crcClear s).rst = s.rst := rfl
@[simp] theorem crcClear_output (s : State) : (crcClear s).output = s.output := rfl

/-! ### CRC_BIT writes `CRC` only (R72) -/

@[simp] theorem crcShift_crc (s : State) : (crcShift s).crc = crcBitStep s.crc := rfl
@[simp] theorem crcShift_buf (s : State) : (crcShift s).buf = s.buf := rfl
@[simp] theorem crcShift_l (s : State) : (crcShift s).l = s.l := rfl
@[simp] theorem crcShift_phase (s : State) : (crcShift s).phase = s.phase := rfl
@[simp] theorem crcShift_errCode (s : State) : (crcShift s).errCode = s.errCode := rfl
@[simp] theorem crcShift_bytesConsumed (s : State) : (crcShift s).bytesConsumed = s.bytesConsumed := rfl
@[simp] theorem crcShift_curOpcode (s : State) : (crcShift s).curOpcode = s.curOpcode := rfl
@[simp] theorem crcShift_curLength (s : State) : (crcShift s).curLength = s.curLength := rfl
@[simp] theorem crcShift_ioErr (s : State) : (crcShift s).ioErr = s.ioErr := rfl
@[simp] theorem crcShift_rdIdx (s : State) : (crcShift s).rdIdx = s.rdIdx := rfl
@[simp] theorem crcShift_rdRem (s : State) : (crcShift s).rdRem = s.rdRem := rfl
@[simp] theorem crcShift_outIdx (s : State) : (crcShift s).outIdx = s.outIdx := rfl
@[simp] theorem crcShift_cfg (s : State) : (crcShift s).cfg = s.cfg := rfl
@[simp] theorem crcShift_input (s : State) : (crcShift s).input = s.input := rfl
@[simp] theorem crcShift_answers (s : State) : (crcShift s).answers = s.answers := rfl
@[simp] theorem crcShift_rst (s : State) : (crcShift s).rst = s.rst := rfl
@[simp] theorem crcShift_output (s : State) : (crcShift s).output = s.output := rfl

/-! ### CRC_BYTE writes `CRC` only (R73) -/

@[simp] theorem crcPut_crc (b : Byte) (s : State) : (crcPut b s).crc = crcByteStep s.crc b := rfl
@[simp] theorem crcPut_buf (b : Byte) (s : State) : (crcPut b s).buf = s.buf := rfl
@[simp] theorem crcPut_l (b : Byte) (s : State) : (crcPut b s).l = s.l := rfl
@[simp] theorem crcPut_phase (b : Byte) (s : State) : (crcPut b s).phase = s.phase := rfl
@[simp] theorem crcPut_errCode (b : Byte) (s : State) : (crcPut b s).errCode = s.errCode := rfl
@[simp] theorem crcPut_bytesConsumed (b : Byte) (s : State) : (crcPut b s).bytesConsumed = s.bytesConsumed := rfl
@[simp] theorem crcPut_curOpcode (b : Byte) (s : State) : (crcPut b s).curOpcode = s.curOpcode := rfl
@[simp] theorem crcPut_curLength (b : Byte) (s : State) : (crcPut b s).curLength = s.curLength := rfl
@[simp] theorem crcPut_ioErr (b : Byte) (s : State) : (crcPut b s).ioErr = s.ioErr := rfl
@[simp] theorem crcPut_rdIdx (b : Byte) (s : State) : (crcPut b s).rdIdx = s.rdIdx := rfl
@[simp] theorem crcPut_rdRem (b : Byte) (s : State) : (crcPut b s).rdRem = s.rdRem := rfl
@[simp] theorem crcPut_outIdx (b : Byte) (s : State) : (crcPut b s).outIdx = s.outIdx := rfl
@[simp] theorem crcPut_cfg (b : Byte) (s : State) : (crcPut b s).cfg = s.cfg := rfl
@[simp] theorem crcPut_input (b : Byte) (s : State) : (crcPut b s).input = s.input := rfl
@[simp] theorem crcPut_answers (b : Byte) (s : State) : (crcPut b s).answers = s.answers := rfl
@[simp] theorem crcPut_rst (b : Byte) (s : State) : (crcPut b s).rst = s.rst := rfl
@[simp] theorem crcPut_output (b : Byte) (s : State) : (crcPut b s).output = s.output := rfl

/-! ### FA_INIT writes `BUF` only (R91) -/

@[simp] theorem faInit_crc (s : State) : (faInit s).crc = s.crc := rfl
@[simp] theorem faInit_buf (s : State) : (faInit s).buf = s.buf.write 0 startByte := rfl
@[simp] theorem faInit_l (s : State) : (faInit s).l = s.l := rfl
@[simp] theorem faInit_phase (s : State) : (faInit s).phase = s.phase := rfl
@[simp] theorem faInit_errCode (s : State) : (faInit s).errCode = s.errCode := rfl
@[simp] theorem faInit_bytesConsumed (s : State) : (faInit s).bytesConsumed = s.bytesConsumed := rfl
@[simp] theorem faInit_curOpcode (s : State) : (faInit s).curOpcode = s.curOpcode := rfl
@[simp] theorem faInit_curLength (s : State) : (faInit s).curLength = s.curLength := rfl
@[simp] theorem faInit_ioErr (s : State) : (faInit s).ioErr = s.ioErr := rfl
@[simp] theorem faInit_rdIdx (s : State) : (faInit s).rdIdx = s.rdIdx := rfl
@[simp] theorem faInit_rdRem (s : State) : (faInit s).rdRem = s.rdRem := rfl
@[simp] theorem faInit_outIdx (s : State) : (faInit s).outIdx = s.outIdx := rfl
@[simp] theorem faInit_cfg (s : State) : (faInit s).cfg = s.cfg := rfl
@[simp] theorem faInit_input (s : State) : (faInit s).input = s.input := rfl
@[simp] theorem faInit_answers (s : State) : (faInit s).answers = s.answers := rfl
@[simp] theorem faInit_rst (s : State) : (faInit s).rst = s.rst := rfl
@[simp] theorem faInit_output (s : State) : (faInit s).output = s.output := rfl

/-! ### FA_SET_LEN writes `BUF` only (R93) -/

@[simp] theorem faSetLen_crc (s : State) : (faSetLen s).crc = s.crc := rfl
@[simp] theorem faSetLen_buf (s : State) : (faSetLen s).buf = s.buf.write 1 (BitVec.ofNat 8 (s.l.val + 1)) := rfl
@[simp] theorem faSetLen_l (s : State) : (faSetLen s).l = s.l := rfl
@[simp] theorem faSetLen_phase (s : State) : (faSetLen s).phase = s.phase := rfl
@[simp] theorem faSetLen_errCode (s : State) : (faSetLen s).errCode = s.errCode := rfl
@[simp] theorem faSetLen_bytesConsumed (s : State) : (faSetLen s).bytesConsumed = s.bytesConsumed := rfl
@[simp] theorem faSetLen_curOpcode (s : State) : (faSetLen s).curOpcode = s.curOpcode := rfl
@[simp] theorem faSetLen_curLength (s : State) : (faSetLen s).curLength = s.curLength := rfl
@[simp] theorem faSetLen_ioErr (s : State) : (faSetLen s).ioErr = s.ioErr := rfl
@[simp] theorem faSetLen_rdIdx (s : State) : (faSetLen s).rdIdx = s.rdIdx := rfl
@[simp] theorem faSetLen_rdRem (s : State) : (faSetLen s).rdRem = s.rdRem := rfl
@[simp] theorem faSetLen_outIdx (s : State) : (faSetLen s).outIdx = s.outIdx := rfl
@[simp] theorem faSetLen_cfg (s : State) : (faSetLen s).cfg = s.cfg := rfl
@[simp] theorem faSetLen_input (s : State) : (faSetLen s).input = s.input := rfl
@[simp] theorem faSetLen_answers (s : State) : (faSetLen s).answers = s.answers := rfl
@[simp] theorem faSetLen_rst (s : State) : (faSetLen s).rst = s.rst := rfl
@[simp] theorem faSetLen_output (s : State) : (faSetLen s).output = s.output := rfl

/-! ### SEQ_FETCH latches `CUR_OPCODE` and clears `CUR_LENGTH` (R111) -/

@[simp] theorem latchOpcode_crc (o : Byte) (s : State) : (latchOpcode o s).crc = s.crc := rfl
@[simp] theorem latchOpcode_buf (o : Byte) (s : State) : (latchOpcode o s).buf = s.buf := rfl
@[simp] theorem latchOpcode_l (o : Byte) (s : State) : (latchOpcode o s).l = s.l := rfl
@[simp] theorem latchOpcode_phase (o : Byte) (s : State) : (latchOpcode o s).phase = s.phase := rfl
@[simp] theorem latchOpcode_errCode (o : Byte) (s : State) : (latchOpcode o s).errCode = s.errCode := rfl
@[simp] theorem latchOpcode_bytesConsumed (o : Byte) (s : State) : (latchOpcode o s).bytesConsumed = s.bytesConsumed := rfl
@[simp] theorem latchOpcode_curOpcode (o : Byte) (s : State) : (latchOpcode o s).curOpcode = o := rfl
@[simp] theorem latchOpcode_curLength (o : Byte) (s : State) : (latchOpcode o s).curLength = 0 := rfl
@[simp] theorem latchOpcode_ioErr (o : Byte) (s : State) : (latchOpcode o s).ioErr = s.ioErr := rfl
@[simp] theorem latchOpcode_rdIdx (o : Byte) (s : State) : (latchOpcode o s).rdIdx = s.rdIdx := rfl
@[simp] theorem latchOpcode_rdRem (o : Byte) (s : State) : (latchOpcode o s).rdRem = s.rdRem := rfl
@[simp] theorem latchOpcode_outIdx (o : Byte) (s : State) : (latchOpcode o s).outIdx = s.outIdx := rfl
@[simp] theorem latchOpcode_cfg (o : Byte) (s : State) : (latchOpcode o s).cfg = s.cfg := rfl
@[simp] theorem latchOpcode_input (o : Byte) (s : State) : (latchOpcode o s).input = s.input := rfl
@[simp] theorem latchOpcode_answers (o : Byte) (s : State) : (latchOpcode o s).answers = s.answers := rfl
@[simp] theorem latchOpcode_rst (o : Byte) (s : State) : (latchOpcode o s).rst = s.rst := rfl
@[simp] theorem latchOpcode_output (o : Byte) (s : State) : (latchOpcode o s).output = s.output := rfl

/-! ### error entry writes the code, the I/O error and the phase, "Nothing else changes" (R152) -/

@[simp] theorem raiseError_crc (x : ErrClass) (s : State) : (raiseError x s).crc = s.crc := rfl
@[simp] theorem raiseError_buf (x : ErrClass) (s : State) : (raiseError x s).buf = s.buf := rfl
@[simp] theorem raiseError_l (x : ErrClass) (s : State) : (raiseError x s).l = s.l := rfl
@[simp] theorem raiseError_phase (x : ErrClass) (s : State) : (raiseError x s).phase = .error := rfl
@[simp] theorem raiseError_errCode (x : ErrClass) (s : State) : (raiseError x s).errCode = x.code := rfl
@[simp] theorem raiseError_bytesConsumed (x : ErrClass) (s : State) : (raiseError x s).bytesConsumed = s.bytesConsumed := rfl
@[simp] theorem raiseError_curOpcode (x : ErrClass) (s : State) : (raiseError x s).curOpcode = s.curOpcode := rfl
@[simp] theorem raiseError_curLength (x : ErrClass) (s : State) : (raiseError x s).curLength = s.curLength := rfl
@[simp] theorem raiseError_ioErr (x : ErrClass) (s : State) : (raiseError x s).ioErr = x.ioErrAfter s.ioErr := rfl
@[simp] theorem raiseError_rdIdx (x : ErrClass) (s : State) : (raiseError x s).rdIdx = s.rdIdx := rfl
@[simp] theorem raiseError_rdRem (x : ErrClass) (s : State) : (raiseError x s).rdRem = s.rdRem := rfl
@[simp] theorem raiseError_outIdx (x : ErrClass) (s : State) : (raiseError x s).outIdx = s.outIdx := rfl
@[simp] theorem raiseError_cfg (x : ErrClass) (s : State) : (raiseError x s).cfg = s.cfg := rfl
@[simp] theorem raiseError_input (x : ErrClass) (s : State) : (raiseError x s).input = s.input := rfl
@[simp] theorem raiseError_answers (x : ErrClass) (s : State) : (raiseError x s).answers = s.answers := rfl
@[simp] theorem raiseError_rst (x : ErrClass) (s : State) : (raiseError x s).rst = s.rst := rfl
@[simp] theorem raiseError_output (x : ErrClass) (s : State) : (raiseError x s).output = s.output := rfl

/-! ### reset writes the block's registers (R170) and nothing of the environment (R171) -/

@[simp] theorem applyReset_crc (s : State) : (applyReset s).crc = 0x00 := rfl
@[simp] theorem applyReset_buf (s : State) : (applyReset s).buf = [(0, startByte)] := rfl
@[simp] theorem applyReset_l (s : State) : (applyReset s).l = 0 := rfl
@[simp] theorem applyReset_phase (s : State) : (applyReset s).phase = .fetch := rfl
@[simp] theorem applyReset_errCode (s : State) : (applyReset s).errCode = .none := rfl
@[simp] theorem applyReset_bytesConsumed (s : State) : (applyReset s).bytesConsumed = 0 := rfl
@[simp] theorem applyReset_curOpcode (s : State) : (applyReset s).curOpcode = 0x00 := rfl
@[simp] theorem applyReset_curLength (s : State) : (applyReset s).curLength = 0 := rfl
@[simp] theorem applyReset_ioErr (s : State) : (applyReset s).ioErr = none := rfl
@[simp] theorem applyReset_rdIdx (s : State) : (applyReset s).rdIdx = 0 := rfl
@[simp] theorem applyReset_rdRem (s : State) : (applyReset s).rdRem = 0 := rfl
@[simp] theorem applyReset_outIdx (s : State) : (applyReset s).outIdx = 0 := rfl
@[simp] theorem applyReset_cfg (s : State) : (applyReset s).cfg = s.cfg := rfl
@[simp] theorem applyReset_input (s : State) : (applyReset s).input = s.input := rfl
@[simp] theorem applyReset_answers (s : State) : (applyReset s).answers = s.answers := rfl
@[simp] theorem applyReset_rst (s : State) : (applyReset s).rst = s.rst := rfl
@[simp] theorem applyReset_output (s : State) : (applyReset s).output = s.output := rfl

end Sys2Proof.Machine
end

