-- ==== Sys2Proof/Laws/Crc.lean ====
section
/-! SUPPORT. The CRC operations on the register, and the small laws of the pure functions. -/

namespace Sys2Proof.Machine

@[simp] theorem crcAbsorb_nil (c : Byte) : crcAbsorb c [] = c := rfl

@[simp] theorem crcAbsorb_cons (c b : Byte) (bs : List Byte) :
    crcAbsorb c (b :: bs) = crcAbsorb (crcByteStep c b) bs := rfl

theorem crcAbsorb_append (c : Byte) (bs cs : List Byte) :
    crcAbsorb c (bs ++ cs) = crcAbsorb (crcAbsorb c bs) cs := by
  induction bs generalizing c with
  | nil => rfl
  | cons b bs ih => simp [ih]

theorem crc8_append (bs cs : List Byte) : crc8 (bs ++ cs) = crcAbsorb (crc8 bs) cs :=
  crcAbsorb_append _ _ _

@[simp] theorem crcBits_zero (c : Byte) : crcBits 0 c = c := rfl

theorem crcBits_succ (k : Nat) (c : Byte) : crcBits (k + 1) c = crcBits k (crcBitStep c) := rfl

/-- The eight steps look at nothing but the combined value (R74). -/
theorem crcByteStep_eq (c b : Byte) : crcByteStep c b = crcBits 8 (c ^^^ b) := rfl

/-- The steps on the state are the pure steps on the register; nothing else changes. -/
theorem crcPutAll_eq (bs : List Byte) (s : State) :
    crcPutAll bs s = { s with crc := crcAbsorb s.crc bs } := by
  induction bs generalizing s with
  | nil => rfl
  | cons b bs ih => simp [crcPutAll, ih, crcPut]

/-- CRC_CLEAR and CRC_BYTE over a sequence leave its checksum in the register (R75). -/
theorem crcPutAll_clear (bs : List Byte) (s : State) :
    crcPutAll bs (crcClear s) = { s with crc := crc8 bs } := by
  rw [crcPutAll_eq]; rfl

end Sys2Proof.Machine
end

