-- ==== Sys2Proof/Laws/Memory.lean ====
section
/-! SUPPORT. The laws of the buffer as storage: read after write, writes at other indices, the canonical
form, runs of bytes, and the reads that fault. -/

namespace Sys2Proof.Machine

@[simp] theorem Memory.read_nil (a : Nat) : Memory.read [] a = none := rfl

theorem Memory.read_cons (k : Nat) (v : Byte) (m : Memory) (a : Nat) :
    Memory.read ((k, v) :: m) a = if a = k then some v else m.read a := rfl

theorem Memory.read_write (m : Memory) (i : Nat) (b : Byte) (a : Nat) :
    (m.write i b).read a = if a = i then some b else m.read a := by
  induction m with
  | nil => rfl
  | cons x t ih =>
    obtain ⟨k, v⟩ := x
    simp only [Memory.write]
    split
    · rfl
    · split
      · next h => subst h; simp only [Memory.read_cons]; split <;> rfl
      · simp only [Memory.read_cons, ih]
        split
        · next h1 h2 h3 => subst h3; rw [if_neg (fun h => h2 h.symm)]
        · rfl

@[simp] theorem Memory.read_write_same (m : Memory) (i : Nat) (b : Byte) :
    (m.write i b).read i = some b := by simp [Memory.read_write]

theorem Memory.read_write_other (m : Memory) {i a : Nat} (b : Byte) (h : a ≠ i) :
    (m.write i b).read a = m.read a := by simp [Memory.read_write, h]

/-- A write adds at most its own index. -/
theorem Memory.mem_write {m : Memory} {i : Nat} {b : Byte} {x : Host.Cell}
    (h : x ∈ m.write i b) : x = (i, b) ∨ x ∈ m := by
  induction m with
  | nil => simpa [Memory.write] using h
  | cons y t ih =>
    obtain ⟨k, v⟩ := y
    simp only [Memory.write] at h
    split at h
    · simpa using h
    · split at h
      · rcases List.mem_cons.1 h with h | h
        · exact .inl h
        · exact .inr (List.mem_cons_of_mem _ h)
      · rcases List.mem_cons.1 h with h | h
        · exact .inr (h ▸ List.mem_cons_self)
        · rcases ih h with h | h
          · exact .inl h
          · exact .inr (List.mem_cons_of_mem _ h)

/-- Every buffer write keeps the canonical form. -/
theorem Memory.wf_write {m : Memory} (hm : m.wf) (i : Nat) (b : Byte) : (m.write i b).wf := by
  induction m with
  | nil => simp [Memory.write]
  | cons y t ih =>
    obtain ⟨k, v⟩ := y
    obtain ⟨hk, ht⟩ := List.pairwise_cons.1 hm
    simp only [Memory.write]
    split
    · next hlt =>
      refine List.pairwise_cons.2 ⟨?_, hm⟩
      intro x hx
      rcases List.mem_cons.1 hx with h | h
      · subst h; exact hlt
      · exact Nat.lt_trans hlt (hk x h)
    · split
      · next h => subst h; exact List.pairwise_cons.2 ⟨hk, ht⟩
      · refine List.pairwise_cons.2 ⟨?_, ih ht⟩
        intro x hx
        rcases Memory.mem_write hx with h | h
        · subst h; show k < i; omega
        · exact hk x h

/-- A run of bytes stored at rising indices. -/
def Memory.writeAll : Memory → Nat → List Byte → Memory
  | m, _, [] => m
  | m, i, b :: bs => Memory.writeAll (m.write i b) (i + 1) bs

@[simp] theorem Memory.writeAll_nil (m : Memory) (i : Nat) : m.writeAll i [] = m := rfl

@[simp] theorem Memory.writeAll_cons (m : Memory) (i : Nat) (b : Byte) (bs : List Byte) :
    m.writeAll i (b :: bs) = (m.write i b).writeAll (i + 1) bs := rfl

theorem Memory.writeAll_append (m : Memory) (i : Nat) (bs cs : List Byte) :
    m.writeAll i (bs ++ cs) = (m.writeAll i bs).writeAll (i + bs.length) cs := by
  induction bs generalizing m i with
  | nil => simp
  | cons b bs ih =>
    simp only [List.cons_append, Memory.writeAll_cons, ih, List.length_cons]
    rw [show i + 1 + bs.length = i + (bs.length + 1) by omega]

theorem Memory.read_writeAll_other (m : Memory) (i : Nat) (bs : List Byte) {a : Nat}
    (h : a < i ∨ i + bs.length ≤ a) : (m.writeAll i bs).read a = m.read a := by
  induction bs generalizing m i with
  | nil => rfl
  | cons b bs ih =>
    simp only [List.length_cons] at h
    rw [Memory.writeAll_cons, ih _ _ (by omega), Memory.read_write_other _ _ (by omega)]

theorem Memory.holds_writeAll (m : Memory) (i : Nat) (bs : List Byte) :
    (m.writeAll i bs).holds i bs := by
  induction bs generalizing m i with
  | nil => intro j h; exact absurd h (Nat.not_lt_zero j)
  | cons b bs ih =>
    intro j h
    cases j with
    | zero => rw [Memory.writeAll_cons, Memory.read_writeAll_other _ _ _ (by omega)]; simp
    | succ j =>
      have := ih (m.write i b) (i + 1) j (by simpa using h)
      simpa [Nat.add_comm, Nat.add_left_comm] using this

theorem Memory.wf_writeAll {m : Memory} (hm : m.wf) (i : Nat) (bs : List Byte) :
    (m.writeAll i bs).wf := by
  induction bs generalizing m i with
  | nil => exact hm
  | cons b bs ih => exact ih (Memory.wf_write hm i b) (i + 1)

theorem Memory.sameOff_writeAll (m : Memory) (i n : Nat) (bs : List Byte) (h : bs.length ≤ n + 1) :
    m.sameOff (m.writeAll i bs) i (i + n) := by
  intro a ha
  exact Memory.read_writeAll_other _ _ _ (by omega)

/-! ### Runs of bytes -/

theorem Memory.holds_cons {m : Memory} {i : Nat} {b : Byte} {bs : List Byte} :
    m.holds i (b :: bs) ↔ m.read i = some b ∧ m.holds (i + 1) bs := by
  constructor
  · intro h
    refine ⟨h 0 (by simp), fun j hj => ?_⟩
    have := h (j + 1) (by simpa using hj)
    simpa [Nat.add_comm, Nat.add_left_comm] using this
  · rintro ⟨h0, h1⟩ j hj
    cases j with
    | zero => exact h0
    | succ j =>
      have := h1 j (by simpa using hj)
      simpa [Nat.add_comm, Nat.add_left_comm] using this

@[simp] theorem Memory.holds_nil (m : Memory) (i : Nat) : m.holds i [] :=
  fun j h => absurd h (Nat.not_lt_zero j)

theorem Memory.holds_append {m : Memory} {i : Nat} {bs cs : List Byte} :
    m.holds i (bs ++ cs) ↔ m.holds i bs ∧ m.holds (i + bs.length) cs := by
  induction bs generalizing i with
  | nil => simp
  | cons b bs ih =>
    simp only [List.cons_append, Memory.holds_cons, ih, List.length_cons, and_assoc]
    rw [show i + 1 + bs.length = i + (bs.length + 1) by omega]

/-- A run survives any change that keeps its indices. -/
theorem Memory.holds_congr {m m' : Memory} {i : Nat} {bs : List Byte} (h : m.holds i bs)
    (hm : ∀ a, i ≤ a → a < i + bs.length → m'.read a = m.read a) : m'.holds i bs :=
  fun j hj => (hm (i + j) (by omega) (by omega)).trans (h j hj)

theorem Memory.holds_writtenIn {m : Memory} {i : Nat} {bs : List Byte} (h : m.holds i bs) :
    m.writtenIn i (i + bs.length) := by
  intro a h1 h2
  have := h (a - i) (by omega)
  rw [show i + (a - i) = a by omega] at this
  simp [this]

/-- What is written has a value. -/
theorem Memory.exists_holds {m : Memory} {i n : Nat} (h : m.writtenIn i (i + n)) :
    ∃ bs : List Byte, bs.length = n ∧ m.holds i bs := by
  induction n generalizing i with
  | zero => exact ⟨[], rfl, Memory.holds_nil m i⟩
  | succ n ih =>
    obtain ⟨bs, hl, hb⟩ := ih (i := i + 1) (fun a h1 h2 => h a (by omega) (by omega))
    obtain ⟨b, hb0⟩ := Option.isSome_iff_exists.1 (h i (by omega) (by omega))
    exact ⟨b :: bs, by simp [hl], Memory.holds_cons.2 ⟨hb0, hb⟩⟩

theorem Memory.holds_unique {m : Memory} {i : Nat} {bs cs : List Byte} (hb : m.holds i bs)
    (hc : m.holds i cs) (hl : bs.length = cs.length) : bs = cs := by
  refine List.ext_getElem hl fun j h1 h2 => ?_
  have := (hb j h1).symm.trans (hc j h2)
  simpa using this

/-! ### Buffer reads of the state -/

theorem readBuf_ok {s : State} {i : Nat} {b : Byte} (hi : i < 36) (h : s.buf.read i = some b) :
    readBuf s i = .ok b := by simp [readBuf, bufSize, hi, h]

theorem readBuf_unwritten {s : State} {i : Nat} (hi : i < 36) (h : s.buf.read i = none) :
    readBuf s i = .error (.bufUnwritten i) := by simp [readBuf, bufSize, hi, h]

theorem readBuf_outside {s : State} {i : Nat} (hi : 36 ≤ i) :
    readBuf s i = .error (.bufIndex i) := by simp [readBuf, bufSize, Nat.not_lt.2 hi]

/-- A buffer read answers exactly what the buffer holds, inside it. -/
theorem readBuf_eq_ok {s : State} {i : Nat} {b : Byte} :
    readBuf s i = .ok b ↔ i < 36 ∧ s.buf.read i = some b := by
  constructor
  · intro h
    unfold readBuf at h
    split at h
    · next hi => split at h <;> simp_all
    · cases h
  · rintro ⟨hi, h⟩; exact readBuf_ok hi h

/-- A run the buffer holds is read whole. -/
theorem readRange_ok {s : State} {i : Nat} {bs : List Byte} (h : s.buf.holds i bs)
    (hi : i + bs.length ≤ 36) : readRange s i bs.length = .ok bs := by
  induction bs generalizing i with
  | nil => rfl
  | cons b bs ih =>
    obtain ⟨h0, h1⟩ := Memory.holds_cons.1 h
    simp only [List.length_cons] at hi ⊢
    simp only [readRange, readBuf_ok (s := s) (by omega) h0, ih h1 (by omega)]

/-- What a read of a run answers is what the buffer holds there. -/
theorem readRange_eq_ok {s : State} {i n : Nat} {bs : List Byte} (h : readRange s i n = .ok bs) :
    bs.length = n ∧ s.buf.holds i bs := by
  induction n generalizing i bs with
  | zero => cases h; exact ⟨rfl, Memory.holds_nil _ _⟩
  | succ n ih =>
    simp only [readRange] at h
    split at h
    · cases h
    · next b hb =>
      split at h
      · cases h
      · next cs hc =>
        cases h
        obtain ⟨hl, hh⟩ := ih hc
        exact ⟨by simp [hl], Memory.holds_cons.2 ⟨(readBuf_eq_ok.1 hb).2, hh⟩⟩

/-- A read of a run with an unwritten element faults. -/
theorem readRange_error {s : State} {i n a : Nat} (h1 : i ≤ a) (h2 : a < i + n)
    (ha : s.buf.read a = none) : ∃ f, readRange s i n = .error f := by
  cases h : readRange s i n with
  | error f => exact ⟨f, rfl⟩
  | ok bs =>
    obtain ⟨hl, hh⟩ := readRange_eq_ok h
    have := hh (a - i) (by omega)
    rw [show i + (a - i) = a by omega, ha] at this
    cases this

/-- The packet read depends on the buffer and `L` only. -/
theorem readRange_congr {s t : State} (h : s.buf = t.buf) (i n : Nat) :
    readRange s i n = readRange t i n := by
  induction n generalizing i with
  | zero => rfl
  | succ n ih => simp [readRange, readBuf, h, ih]

end Sys2Proof.Machine
end

