-- ==== Sys2Proof/Laws/Io.lean ====
section
/-! SUPPORT. What the stream primitives and the seal do, said once: the state after the bytes that
arrived, the state after the bytes that were taken, the loop equations for each event, and the one case
analysis of each loop. -/

namespace Sys2Proof.Machine

set_option Elab.async false

/-! ### Reading -/

/-- `BYTES_CONSUMED` of `w` bits after `k` more bytes, one at a time (R42). -/
def countAfter (w : Nat) : (k n : Nat) → Nat
  | 0, n => n
  | k + 1, n => countAfter w k ((n + 1) % 2 ^ w)

@[simp] theorem countAfter_zero (w n : Nat) : countAfter w 0 n = n := rfl

theorem countAfter_succ (w k n : Nat) : countAfter w (k + 1) n = countAfter w k ((n + 1) % 2 ^ w) := rfl

theorem countAfter_countAfter (w j k n : Nat) :
    countAfter w k (countAfter w j n) = countAfter w (j + k) n := by
  induction j generalizing n with
  | zero => simp
  | succ j ih => rw [Nat.succ_add_eq_add_succ, countAfter_succ, ih, ← countAfter_succ]; congr 1

/-- From a value of its width, `k` bytes add `k` modulo `2^w` (R18). -/
theorem countAfter_eq {w n : Nat} (h : n < 2 ^ w) (k : Nat) : countAfter w k n = (n + k) % 2 ^ w := by
  induction k generalizing n with
  | zero => simp [Nat.mod_eq_of_lt h]
  | succ k ih =>
    rw [countAfter_succ, ih (Nat.mod_lt _ (Nat.two_pow_pos w)), Nat.mod_add_mod]
    congr 1; omega

/-- The counter keeps its width. -/
theorem countAfter_lt {w n : Nat} (h : n < 2 ^ w) (k : Nat) : countAfter w k n < 2 ^ w := by
  rw [countAfter_eq h]; exact Nat.mod_lt _ (Nat.two_pow_pos w)

/-- The state after the bytes `bs` were accepted and `rest` is what the source has left (R42). -/
def received (bs : List Byte) (rest : List InEvent) (s : State) : State :=
  { s with
    input := rest
    buf := s.buf.writeAll s.rdIdx bs
    rdIdx := s.rdIdx + bs.length
    rdRem := s.rdRem - bs.length
    bytesConsumed := countAfter s.cfg.countW bs.length s.bytesConsumed }

@[simp] theorem received_crc (bs : List Byte) (r : List InEvent) (s : State) : (received bs r s).crc = s.crc := rfl
@[simp] theorem received_buf (bs : List Byte) (r : List InEvent) (s : State) :
    (received bs r s).buf = s.buf.writeAll s.rdIdx bs := rfl
@[simp] theorem received_l (bs : List Byte) (r : List InEvent) (s : State) : (received bs r s).l = s.l := rfl
@[simp] theorem received_phase (bs : List Byte) (r : List InEvent) (s : State) : (received bs r s).phase = s.phase := rfl
@[simp] theorem received_errCode (bs : List Byte) (r : List InEvent) (s : State) :
    (received bs r s).errCode = s.errCode := rfl
@[simp] theorem received_bytesConsumed (bs : List Byte) (r : List InEvent) (s : State) :
    (received bs r s).bytesConsumed = countAfter s.cfg.countW bs.length s.bytesConsumed := rfl
@[simp] theorem received_curOpcode (bs : List Byte) (r : List InEvent) (s : State) :
    (received bs r s).curOpcode = s.curOpcode := rfl
@[simp] theorem received_curLength (bs : List Byte) (r : List InEvent) (s : State) :
    (received bs r s).curLength = s.curLength := rfl
@[simp] theorem received_ioErr (bs : List Byte) (r : List InEvent) (s : State) : (received bs r s).ioErr = s.ioErr := rfl
@[simp] theorem received_rdIdx (bs : List Byte) (r : List InEvent) (s : State) :
    (received bs r s).rdIdx = s.rdIdx + bs.length := rfl
@[simp] theorem received_rdRem (bs : List Byte) (r : List InEvent) (s : State) :
    (received bs r s).rdRem = s.rdRem - bs.length := rfl
@[simp] theorem received_outIdx (bs : List Byte) (r : List InEvent) (s : State) :
    (received bs r s).outIdx = s.outIdx := rfl
@[simp] theorem received_cfg (bs : List Byte) (r : List InEvent) (s : State) : (received bs r s).cfg = s.cfg := rfl
@[simp] theorem received_input (bs : List Byte) (r : List InEvent) (s : State) : (received bs r s).input = r := rfl
@[simp] theorem received_answers (bs : List Byte) (r : List InEvent) (s : State) :
    (received bs r s).answers = s.answers := rfl
@[simp] theorem received_rst (bs : List Byte) (r : List InEvent) (s : State) : (received bs r s).rst = s.rst := rfl
@[simp] theorem received_output (bs : List Byte) (r : List InEvent) (s : State) :
    (received bs r s).output = s.output := rfl

theorem received_nil (s : State) : received [] s.input s = s := by simp [received]

theorem received_received (bs cs : List Byte) (r r' : List InEvent) (s : State) :
    received cs r' (received bs r s) = received (bs ++ cs) r' s := by
  simp [received, Memory.writeAll_append, Nat.sub_sub, Nat.add_assoc, countAfter_countAfter]

/-- An accepted byte, when FA_PUT's index is in range (R42, R92). -/
theorem acceptByte_ok (b : Byte) (r : List InEvent) (s : State) (h : 2 ≤ s.rdIdx ∧ s.rdIdx ≤ 34) :
    acceptByte b { s with input := r } = .ok (received [b] r s) := by
  simp [acceptByte, faPut, h, received, countAfter]

@[simp] theorem inLoop_zero (s : State) : inLoop 0 s = .ok s := rfl

theorem inLoop_byte {k : Nat} {s : State} {b : Byte} {r : List InEvent} (hin : s.input = .byte b :: r)
    (h : 2 ≤ s.rdIdx ∧ s.rdIdx ≤ 34) : inLoop (k + 1) s = inLoop k (received [b] r s) := by
  simp [inLoop, hin, acceptByte_ok b r s h]

theorem inLoop_end {k : Nat} {s : State} (hin : s.input = []) : inLoop (k + 1) s = .held s := by
  simp [inLoop, hin]

theorem inLoop_wait {k : Nat} {s : State} {r : List InEvent} (hin : s.input = .wait :: r) :
    inLoop (k + 1) s = .held { s with input := r } := by simp [inLoop, hin]

theorem inLoop_eos {k : Nat} {s : State} {r : List InEvent} (hin : s.input = .eos :: r) :
    inLoop (k + 1) s = .short { s with input := r } := by simp [inLoop, hin]

theorem inLoop_err {k : Nat} {s : State} {e : IoErr} {r : List InEvent} (hin : s.input = .err e :: r) :
    inLoop (k + 1) s = .fail e { s with input := r } := by simp [inLoop, hin]

theorem inLoop_clash {k : Nat} {s : State} {r : List InEvent} (hin : s.input = .clash :: r) :
    inLoop (k + 1) s = .refused .illFormedSource := by simp [inLoop, hin]

/-- The bytes at hand are accepted one by one, up to the number owed (R42). -/
theorem inLoop_received {bs : List Byte} {k : Nat} {s : State} {r : List InEvent}
    (hin : s.input = bs.map .byte ++ r) (hk : bs.length ≤ k) (h2 : 2 ≤ s.rdIdx)
    (h34 : s.rdIdx + bs.length ≤ 35) : inLoop k s = inLoop (k - bs.length) (received bs r s) := by
  induction bs generalizing k s with
  | nil =>
    have : s.input = r := by simpa using hin
    rw [← this, received_nil]; simp
  | cons b bs ih =>
    obtain ⟨k, rfl⟩ : ∃ k', k = k' + 1 := ⟨k - 1, by simp only [List.length_cons] at hk; omega⟩
    simp only [List.length_cons] at hk h34
    have hin' : s.input = .byte b :: (bs.map .byte ++ r) := by simpa using hin
    rw [inLoop_byte hin' ⟨h2, by omega⟩, ih (s := received [b] _ s) (by simp) (by omega)
      (by simp; omega) (by simp; omega), received_received]
    simp

/-- All the bytes owed are at hand. -/
theorem inLoop_all {bs : List Byte} {k : Nat} {s : State} {r : List InEvent}
    (hin : s.input = bs.map .byte ++ r) (hk : bs.length = k) (h2 : 2 ≤ s.rdIdx)
    (h34 : s.rdIdx + bs.length ≤ 35) : inLoop k s = .ok (received bs r s) := by
  rw [inLoop_received hin (by omega) h2 h34, hk, Nat.sub_self, inLoop_zero]

/-- Fewer bytes than owed are at hand: the event after them decides. -/
theorem inLoop_some {bs : List Byte} {k : Nat} {s : State} {r : List InEvent}
    (hin : s.input = bs.map .byte ++ r) (hk : bs.length < k) (h2 : 2 ≤ s.rdIdx)
    (h34 : s.rdIdx + bs.length ≤ 35) :
    ∃ j, inLoop k s = inLoop (j + 1) (received bs r s) :=
  ⟨k - bs.length - 1, by
    rw [inLoop_received hin (by omega) h2 h34, show k - bs.length = k - bs.length - 1 + 1 by omega]
    rfl⟩

/-- The event that ends a read early, and what the read answers then. -/
inductive Ends (s : State) : List InEvent → IoResult → Prop
  | silent : Ends s [] (.held s)
  | wait (r : List InEvent) : Ends s (.wait :: r) (.held { s with input := r })
  | eos (r : List InEvent) : Ends s (.eos :: r) (.short { s with input := r })
  | err (e : IoErr) (r : List InEvent) : Ends s (.err e :: r) (.fail e { s with input := r })
  | clash (r : List InEvent) : Ends s (.clash :: r) (.refused .illFormedSource)

/-- Everything a read can do: some of the bytes owed arrive, and either that is all of them or the next
event ends the read. -/
theorem inLoop_cases {k : Nat} {s : State} (h2 : 2 ≤ s.rdIdx) (h35 : s.rdIdx + k ≤ 35) :
    ∃ bs r, s.input = bs.map .byte ++ r ∧
      ((bs.length = k ∧ inLoop k s = .ok (received bs r s)) ∨
       (bs.length < k ∧ Ends (received bs r s) r (inLoop k s))) := by
  induction k generalizing s with
  | zero => exact ⟨[], s.input, rfl, .inl ⟨rfl, by rw [received_nil]; rfl⟩⟩
  | succ k ih =>
    match hin : s.input with
    | [] => exact ⟨[], [], rfl, .inr ⟨by simp, by
        rw [inLoop_end hin, ← hin, received_nil, hin]; exact .silent⟩⟩
    | .byte b :: r =>
      obtain ⟨bs, r', hb, hc⟩ := ih (s := received [b] r s) (by simp; omega) (by simp; omega)
      refine ⟨b :: bs, r', by simpa using hb, ?_⟩
      rw [inLoop_byte hin ⟨h2, by omega⟩, show b :: bs = [b] ++ bs from rfl, ← received_received [b] bs r r' s]
      rcases hc with ⟨hl, hr⟩ | ⟨hl, hr⟩
      · exact .inl ⟨by simp [hl], hr⟩
      · exact .inr ⟨by simp; omega, hr⟩
    | .eos :: r => exact ⟨[], _, rfl, .inr ⟨by simp, by
        rw [inLoop_eos hin]
        have := Ends.eos (s := received [] (.eos :: r) s) r
        simpa [received] using this⟩⟩
    | .err e :: r => exact ⟨[], _, rfl, .inr ⟨by simp, by
        rw [inLoop_err hin]
        have := Ends.err (s := received [] (.err e :: r) s) e r
        simpa [received] using this⟩⟩
    | .wait :: r => exact ⟨[], _, rfl, .inr ⟨by simp, by
        rw [inLoop_wait hin]
        have := Ends.wait (s := received [] (.wait :: r) s) r
        simpa [received] using this⟩⟩
    | .clash :: r => exact ⟨[], _, rfl, .inr ⟨by simp, by
        rw [inLoop_clash hin]; exact .clash r⟩⟩

/-! ### Writing -/

/-- The state after the sink took the bytes `bs` and `rest` is what it will answer next (R44). -/
def sent (bs : List Byte) (rest : List OutAnswer) (s : State) : State :=
  { s with answers := rest, output := s.output ++ bs, outIdx := s.outIdx + bs.length }

@[simp] theorem sent_crc (bs : List Byte) (r : List OutAnswer) (s : State) : (sent bs r s).crc = s.crc := rfl
@[simp] theorem sent_buf (bs : List Byte) (r : List OutAnswer) (s : State) : (sent bs r s).buf = s.buf := rfl
@[simp] theorem sent_l (bs : List Byte) (r : List OutAnswer) (s : State) : (sent bs r s).l = s.l := rfl
@[simp] theorem sent_phase (bs : List Byte) (r : List OutAnswer) (s : State) : (sent bs r s).phase = s.phase := rfl
@[simp] theorem sent_errCode (bs : List Byte) (r : List OutAnswer) (s : State) :
    (sent bs r s).errCode = s.errCode := rfl
@[simp] theorem sent_bytesConsumed (bs : List Byte) (r : List OutAnswer) (s : State) :
    (sent bs r s).bytesConsumed = s.bytesConsumed := rfl
@[simp] theorem sent_curOpcode (bs : List Byte) (r : List OutAnswer) (s : State) :
    (sent bs r s).curOpcode = s.curOpcode := rfl
@[simp] theorem sent_curLength (bs : List Byte) (r : List OutAnswer) (s : State) :
    (sent bs r s).curLength = s.curLength := rfl
@[simp] theorem sent_ioErr (bs : List Byte) (r : List OutAnswer) (s : State) : (sent bs r s).ioErr = s.ioErr := rfl
@[simp] theorem sent_rdIdx (bs : List Byte) (r : List OutAnswer) (s : State) : (sent bs r s).rdIdx = s.rdIdx := rfl
@[simp] theorem sent_rdRem (bs : List Byte) (r : List OutAnswer) (s : State) : (sent bs r s).rdRem = s.rdRem := rfl
@[simp] theorem sent_outIdx (bs : List Byte) (r : List OutAnswer) (s : State) :
    (sent bs r s).outIdx = s.outIdx + bs.length := rfl
@[simp] theorem sent_cfg (bs : List Byte) (r : List OutAnswer) (s : State) : (sent bs r s).cfg = s.cfg := rfl
@[simp] theorem sent_input (bs : List Byte) (r : List OutAnswer) (s : State) : (sent bs r s).input = s.input := rfl
@[simp] theorem sent_answers (bs : List Byte) (r : List OutAnswer) (s : State) : (sent bs r s).answers = r := rfl
@[simp] theorem sent_rst (bs : List Byte) (r : List OutAnswer) (s : State) : (sent bs r s).rst = s.rst := rfl
@[simp] theorem sent_output (bs : List Byte) (r : List OutAnswer) (s : State) :
    (sent bs r s).output = s.output ++ bs := rfl

theorem sent_nil (s : State) : sent [] s.answers s = s := by simp [sent]

theorem sent_sent (bs cs : List Byte) (r r' : List OutAnswer) (s : State) :
    sent cs r' (sent bs r s) = sent (bs ++ cs) r' s := by
  simp [sent, Nat.add_assoc]

@[simp] theorem outLoop_nil (s : State) : outLoop [] s = .ok s := rfl

theorem outLoop_accept {b : Byte} {bs : List Byte} {s : State} {r : List OutAnswer}
    (ha : s.answers = .accept :: r) : outLoop (b :: bs) s = outLoop bs (sent [b] r s) := by
  simp [outLoop, ha, sent]

/-- The bytes the sink takes go out in order (R44). -/
theorem outLoop_sent {v : List Byte} {n : Nat} {s : State} {r : List OutAnswer}
    (ha : s.answers = List.replicate n .accept ++ r) (hn : n ≤ v.length) :
    outLoop v s = outLoop (v.drop n) (sent (v.take n) r s) := by
  induction n generalizing v s with
  | zero =>
    have : s.answers = r := by simpa using ha
    rw [← this]; simp [sent_nil]
  | succ n ih =>
    match v, hn with
    | b :: bs, hn =>
      have ha' : s.answers = .accept :: (List.replicate n .accept ++ r) := by
        simpa [List.replicate_succ] using ha
      rw [outLoop_accept ha', ih (s := sent [b] _ s) (by simp) (by simpa using hn), sent_sent]
      simp

/-- The sink takes all of them. -/
theorem outLoop_all {v : List Byte} {s : State} {r : List OutAnswer}
    (ha : s.answers = List.replicate v.length .accept ++ r) : outLoop v s = .ok (sent v r s) := by
  rw [outLoop_sent ha (Nat.le_refl _)]; simp

/-- The answer that ends a write early, and what the write answers then. -/
inductive Stops (s : State) : List OutAnswer → IoResult → Prop
  | silent : Stops s [] (.held s)
  | wait (r : List OutAnswer) : Stops s (.wait :: r) (.held { s with answers := r })
  | refuse (r : List OutAnswer) : Stops s (.refuse :: r) (.short { s with answers := r })
  | err (e : IoErr) (r : List OutAnswer) : Stops s (.err e :: r) (.fail e { s with answers := r })
  | clash (r : List OutAnswer) : Stops s (.clash :: r) (.refused .illFormedSink)

/-- A byte is offered and the next answer is not `Accept`. -/
theorem outLoop_stops {b : Byte} {bs : List Byte} {s : State} (ha : ∀ r, s.answers ≠ .accept :: r) :
    Stops s s.answers (outLoop (b :: bs) s) := by
  cases s
  rename_i answers _ _
  match answers, ha with
  | [], _ => exact .silent
  | .accept :: r, ha => exact absurd rfl (ha r)
  | .refuse :: r, _ => exact .refuse r
  | .err e :: r, _ => exact .err e r
  | .wait :: r, _ => exact .wait r
  | .clash :: r, _ => exact .clash r

/-- Everything a write can do: the sink takes some of the bytes, and either that is all of them or the
next answer ends the write. -/
theorem outLoop_cases (v : List Byte) (s : State) :
    ∃ n r, n ≤ v.length ∧ s.answers = List.replicate n .accept ++ r ∧
      ((n = v.length ∧ outLoop v s = .ok (sent v r s)) ∨
       (n < v.length ∧ Stops (sent (v.take n) r s) r (outLoop v s))) := by
  induction v generalizing s with
  | nil => exact ⟨0, s.answers, Nat.le_refl _, rfl, .inl ⟨rfl, by rw [sent_nil]; rfl⟩⟩
  | cons b bs ih =>
    by_cases h : ∃ r, s.answers = .accept :: r
    · obtain ⟨r, hr⟩ := h
      obtain ⟨n, r', hn, ha, hc⟩ := ih (sent [b] r s)
      refine ⟨n + 1, r', by simpa using hn, by
        rw [hr, List.replicate_succ, List.cons_append]; exact congrArg _ (by simpa using ha), ?_⟩
      rw [outLoop_accept hr]
      rcases hc with ⟨hn, hr'⟩ | ⟨hn, hr'⟩
      · exact .inl ⟨by simp [hn], by rw [hr', sent_sent]; rfl⟩
      · refine .inr ⟨by simpa using hn, ?_⟩
        rw [sent_sent] at hr'
        simpa using hr'
    · have h' : ∀ r, s.answers ≠ .accept :: r := fun r hr => h ⟨r, hr⟩
      have := outLoop_stops (b := b) (bs := bs) h'
      refine ⟨0, s.answers, by simp, by simp, .inr ⟨by simp, ?_⟩⟩
      simpa [sent_nil] using this

/-! ### The packet and the seal -/

/-- A packet the buffer holds is what `OutWrite` offers (R97). -/
theorem packetBytes_ok {s : State} {v : List Byte} (h : s.buf.holds 0 v) (hl : v.length = s.l.val + 4) :
    packetBytes s = .ok v := by
  have := s.l.isLt
  rw [packetBytes, ← hl]; exact readRange_ok h (by omega)

theorem packetBytes_eq_ok {s : State} {v : List Byte} (h : packetBytes s = .ok v) :
    v.length = s.l.val + 4 ∧ s.buf.holds 0 v := readRange_eq_ok h

theorem payloadRegion_ok {s : State} {bs : List Byte} (h : s.buf.holds 2 bs)
    (hl : bs.length = s.l.val + 1) : payloadRegion s = .ok bs := by
  have := s.l.isLt
  rw [payloadRegion, ← hl]; exact readRange_ok h (by simp only [opcodeIdx]; omega)

theorem payloadRegion_eq_ok {s : State} {bs : List Byte} (h : payloadRegion s = .ok bs) :
    bs.length = s.l.val + 1 ∧ s.buf.holds 2 bs := readRange_eq_ok h

/-- FA_SEAL on a payload region the buffer holds (R96). -/
theorem faSeal_ok {s : State} {bs : List Byte} (h : s.buf.holds 2 bs) (hl : bs.length = s.l.val + 1) :
    faSeal s = .ok { s with crc := crc8 bs, buf := s.buf.write (3 + s.l.val) (crc8 bs) } := by
  simp [faSeal, payloadRegion_ok h hl, crcPutAll_clear, crcRead, bodyIdx]

/-- FA_SEAL answers a state only when the payload region is in the buffer (R96). -/
theorem faSeal_eq_ok {s t : State} (h : faSeal s = .ok t) : ∃ bs, bs.length = s.l.val + 1 ∧
    s.buf.holds 2 bs ∧ t = { s with crc := crc8 bs, buf := s.buf.write (3 + s.l.val) (crc8 bs) } := by
  unfold faSeal at h
  split at h
  · cases h
  · next bs hb =>
    obtain ⟨hl, hh⟩ := payloadRegion_eq_ok hb
    refine ⟨bs, hl, hh, ?_⟩
    simp only [crcPutAll_clear, crcRead, bodyIdx] at h
    exact (Except.ok.inj h).symm

/-- The buffer after the opcode and the body, FA_SET_LEN and FA_SEAL (R99). -/
def sealedBuf (m : Memory) (o : Byte) (body : List Byte) : Memory :=
  (m.write 1 (BitVec.ofNat 8 (body.length + 1))).write (3 + body.length) (crc8 (o :: body))

/-- With the start byte, the opcode and the body in place, the sealed buffer holds the packet (R99). -/
theorem sealedBuf_holds {m : Memory} {o : Byte} {body : List Byte} (h0 : m.read 0 = some startByte)
    (h2 : m.holds 2 (o :: body)) : (sealedBuf m o body).holds 0 (frame o body) := by
  have hb : (sealedBuf m o body).holds 2 (o :: body) :=
    Memory.holds_congr h2 fun a h1 h2 => by
      simp only [List.length_cons] at h2
      simp [sealedBuf, Memory.read_write, show a ≠ 3 + body.length by omega, show a ≠ 1 by omega]
  obtain ⟨hb0, hb1⟩ := Memory.holds_cons.1 hb
  show Memory.holds _ 0 (startByte :: BitVec.ofNat 8 (body.length + 1) :: o :: (body ++ [crc8 (o :: body)]))
  refine Memory.holds_cons.2 ⟨?_, Memory.holds_cons.2 ⟨?_, Memory.holds_cons.2 ⟨hb0, ?_⟩⟩⟩
  · simp [sealedBuf, Memory.read_write, h0, show (0 : Nat) ≠ 3 + body.length by omega]
  · simp [sealedBuf, Memory.read_write, show (1 : Nat) ≠ 3 + body.length by omega]
  · refine Memory.holds_append.2 ⟨hb1, Memory.holds_cons.2 ⟨?_, Memory.holds_nil _ _⟩⟩
    simp [sealedBuf]

@[simp] theorem frame_length (o : Byte) (body : List Byte) : (frame o body).length = body.length + 4 := by
  simp [frame]

/-! ### The length arithmetic -/

theorem bodyLen?_eq_some {n : Int} {l : BodyLen} : bodyLen? n = some l ↔ n = (l.val : Int) := by
  have := l.isLt
  unfold bodyLen?
  split
  · next h =>
    simp only [Option.some.injEq, Fin.ext_iff]
    omega
  · next h =>
    simp only [reduceCtorEq, false_iff]
    omega

theorem bodyLen?_eq_none {n : Int} : bodyLen? n = none ↔ n < 0 ∨ 32 < n := by
  unfold bodyLen?
  split
  · next h => simp only [reduceCtorEq, false_iff]; omega
  · next h => simp only [true_iff]; omega

/-- A length that fits is stored as it is (R20). -/
theorem lengthReg_fits {w : Nat} {n : Int} (h : fitsSigned w n) : lengthReg w n = n := if_pos h

/-- What is stored is a value of the register's width, whatever the length (R20). -/
theorem fitsSigned_lengthReg (w : Nat) (n : Int) : fitsSigned w (lengthReg w n) := by
  unfold lengthReg
  split
  · next h => exact h
  · have h1 := BitVec.le_two_mul_toInt (x := Config.openLength w n)
    have h2 := BitVec.two_mul_toInt_lt (x := Config.openLength w n)
    unfold fitsSigned
    push_cast
    exact ⟨h1, h2⟩

theorem fitsSigned_zero (w : Nat) : fitsSigned w 0 := by
  have := Nat.two_pow_pos w
  unfold fitsSigned; omega

end Sys2Proof.Machine
end

