-- ==== Sys2Proof/Laws/Phases.lean ====
section
/-! SUPPORT. What the work of each phase does, said once: the forward equations when the bytes and the
answers are at hand, and the one case analysis of each phase. -/

namespace Sys2Proof.Machine

/-! ### Phase EMIT -/

/-- `OutWrite` on a packet the buffer holds (R44). -/
theorem outResume_eq {s : State} {v : List Byte} (hv : s.buf.holds 0 v) (hl : v.length = s.l.val + 4) :
    outResume s = outLoop (v.drop s.outIdx) s := by
  simp [outResume, packetBytes_ok hv hl]

/-- Everything phase `EMIT` can do on a packet the buffer holds, `u` being the state after the bytes the
sink took. -/
inductive EmitEnds (u : State) : List OutAnswer → Host.Outcome State Fault Refusal → Prop
  | silent : EmitEnds u [] (.next u)
  | wait (r : List OutAnswer) : EmitEnds u (.wait :: r) (.next { u with answers := r })
  | refuse (r : List OutAnswer) :
      EmitEnds u (.refuse :: r) (.next (raiseError .shortWrite { u with answers := r }))
  | err (e : IoErr) (r : List OutAnswer) :
      EmitEnds u (.err e :: r) (.next (raiseError (.ioFailure e) { u with answers := r }))
  | clash (r : List OutAnswer) : EmitEnds u (.clash :: r) (.refused .illFormedSink)

theorem emitPhase_cases {s : State} {v : List Byte} (hv : s.buf.holds 0 v)
    (hl : v.length = s.l.val + 4) :
    ∃ n r, n ≤ (v.drop s.outIdx).length ∧ s.answers = List.replicate n .accept ++ r ∧
      ((n = (v.drop s.outIdx).length ∧
          emitPhase s = .next { sent (v.drop s.outIdx) r s with phase := .fetch }) ∨
       (n < (v.drop s.outIdx).length ∧
          EmitEnds (sent ((v.drop s.outIdx).take n) r s) r (emitPhase s))) := by
  obtain ⟨n, r, hn, ha, hc⟩ := outLoop_cases (v.drop s.outIdx) s
  refine ⟨n, r, hn, ha, ?_⟩
  unfold emitPhase
  rw [outResume_eq hv hl]
  rcases hc with ⟨hn', hr⟩ | ⟨hn', hr⟩
  · exact .inl ⟨hn', by rw [hr]⟩
  · refine .inr ⟨hn', ?_⟩
    generalize outLoop (v.drop s.outIdx) s = x at hr
    cases hr
    · exact .silent
    · exact .wait _
    · exact .refuse _
    · exact .err _ _
    · exact .clash _

/-- The sink takes all that is left of the packet. -/
theorem emitPhase_all {s : State} {v : List Byte} {r : List OutAnswer} (hv : s.buf.holds 0 v)
    (hl : v.length = s.l.val + 4)
    (ha : s.answers = List.replicate (v.drop s.outIdx).length .accept ++ r) :
    emitPhase s = .next { sent (v.drop s.outIdx) r s with phase := .fetch } := by
  simp [emitPhase, outResume_eq hv hl, outLoop_all ha]

/-- The sink takes `n` bytes more, fewer than are left, and then `r` decides. -/
theorem emitPhase_stops {s : State} {v : List Byte} {n : Nat} {r : List OutAnswer}
    (hv : s.buf.holds 0 v) (hl : v.length = s.l.val + 4) (hn : n < (v.drop s.outIdx).length)
    (ha : s.answers = List.replicate n .accept ++ r) (hr : ∀ r', r ≠ .accept :: r') :
    EmitEnds (sent ((v.drop s.outIdx).take n) r s) r (emitPhase s) := by
  unfold emitPhase
  rw [outResume_eq hv hl, outLoop_sent ha (Nat.le_of_lt hn)]
  obtain ⟨b, bs, hd⟩ : ∃ b bs, (v.drop s.outIdx).drop n = b :: bs := by
    cases h : (v.drop s.outIdx).drop n with
    | nil => have := congrArg List.length h; simp at this hn; omega
    | cons b bs => exact ⟨b, bs, rfl⟩
  rw [hd]
  have hst := outLoop_stops (b := b) (bs := bs) (s := sent ((v.drop s.outIdx).take n) r s) (by simpa using hr)
  rw [sent_answers] at hst
  generalize outLoop (b :: bs) _ = x at hst ⊢
  cases hst
  · exact .silent
  · exact .wait _
  · exact .refuse _
  · exact .err _ _
  · exact .clash _

/-! ### SEQ_EMIT -/

/-- FA_SET_LEN and FA_SEAL with the payload region in the buffer (R93, R96). -/
theorem seal_setLen {s : State} {o : Byte} {body : List Byte} (h : s.buf.holds 2 (o :: body))
    (hl : body.length = s.l.val) :
    faSeal (faSetLen s) = .ok { s with crc := crc8 (o :: body), buf := sealedBuf s.buf o body } := by
  have h2 : (faSetLen s).buf.holds 2 (o :: body) :=
    Memory.holds_congr h fun a h1 _ => by
      simp [Memory.read_write, show a ≠ 1 by omega]
  rw [faSeal_ok h2 (by simp [hl])]
  simp [sealedBuf, hl, faSetLen]

/-- SEQ_EMIT with the payload region in the buffer: the packet is sealed and phase `EMIT` begins
(R118). -/
theorem seqEmit_eq {s : State} {o : Byte} {body : List Byte} (h : s.buf.holds 2 (o :: body))
    (hl : body.length = s.l.val) :
    seqEmit s = emitPhase { s with
      crc := crc8 (o :: body), buf := sealedBuf s.buf o body, phase := .emit, outIdx := 0 } := by
  simp [seqEmit, seal_setLen h hl]

/-! ### The reading phases -/

/-- The event that ends a read of a command early and what the phase answers then, `u` being the state
after the bytes that came. -/
inductive CutShort (u : State) : List InEvent → Host.Outcome State Fault Refusal → Prop
  | silent : CutShort u [] (.next u)
  | wait (r : List InEvent) : CutShort u (.wait :: r) (.next { u with input := r })
  | eos (r : List InEvent) :
      CutShort u (.eos :: r) (.next (raiseError .truncatedInput { u with input := r }))
  | err (e : IoErr) (r : List InEvent) :
      CutShort u (.err e :: r) (.next (raiseError (.ioFailure e) { u with input := r }))
  | clash (r : List InEvent) : CutShort u (.clash :: r) (.refused .illFormedSource)

/-- All the bytes the body read owes are at hand. -/
theorem bodyPhase_all {s : State} {bs : List Byte} {r : List InEvent}
    (hin : s.input = bs.map .byte ++ r) (hk : bs.length = s.rdRem) (h2 : 2 ≤ s.rdIdx)
    (h35 : s.rdIdx + s.rdRem ≤ 35) : bodyPhase s = seqEmit (received bs r s) := by
  simp [bodyPhase, inResume, inLoop_all hin hk h2 (by omega)]

/-- Some are, and then `r` decides. -/
theorem bodyPhase_cut {s : State} {bs : List Byte} {r : List InEvent}
    (hin : s.input = bs.map .byte ++ r) (hk : bs.length < s.rdRem) (h2 : 2 ≤ s.rdIdx)
    (h35 : s.rdIdx + s.rdRem ≤ 35) (hr : ∀ b r', r ≠ .byte b :: r') :
    CutShort (received bs r s) r (bodyPhase s) := by
  obtain ⟨j, hj⟩ := inLoop_some hin hk h2 (by omega)
  unfold bodyPhase inResume
  rw [hj]
  match r, hr with
  | [], _ => rw [inLoop_end (received_input _ _ _)]; exact .silent
  | .byte b :: r', hr => exact absurd rfl (hr b r')
  | .wait :: r', _ => rw [inLoop_wait (received_input _ _ _)]; exact .wait r'
  | .eos :: r', _ => rw [inLoop_eos (received_input _ _ _)]; exact .eos r'
  | .err e :: r', _ => rw [inLoop_err (received_input _ _ _)]; exact .err e r'
  | .clash :: r', _ => rw [inLoop_clash (received_input _ _ _)]; exact .clash r'

/-- Everything phase `BODY` can do. -/
theorem bodyPhase_cases {s : State} (h2 : 2 ≤ s.rdIdx) (h35 : s.rdIdx + s.rdRem ≤ 35) :
    ∃ bs r, s.input = bs.map .byte ++ r ∧
      ((bs.length = s.rdRem ∧ bodyPhase s = seqEmit (received bs r s)) ∨
       (bs.length < s.rdRem ∧ CutShort (received bs r s) r (bodyPhase s))) := by
  obtain ⟨bs, r, hin, hc⟩ := inLoop_cases h2 h35
  refine ⟨bs, r, hin, ?_⟩
  rcases hc with ⟨hk, _⟩ | ⟨hk, he⟩
  · exact .inl ⟨hk, bodyPhase_all hin hk h2 h35⟩
  · refine .inr ⟨hk, bodyPhase_cut hin hk h2 h35 fun b r' hr => ?_⟩
    subst hr; cases he

/-- All the bytes the header read owes are at hand. -/
theorem headerPhase_all {s : State} {bs : List Byte} {r : List InEvent}
    (hin : s.input = bs.map .byte ++ r) (hk : bs.length = s.rdRem) (h2 : 2 ≤ s.rdIdx)
    (h35 : s.rdIdx + s.rdRem ≤ 35) : headerPhase s = resolveCount (received bs r s) := by
  simp [headerPhase, inResume, inLoop_all hin hk h2 (by omega)]

/-- Some are, and then `r` decides. -/
theorem headerPhase_cut {s : State} {bs : List Byte} {r : List InEvent}
    (hin : s.input = bs.map .byte ++ r) (hk : bs.length < s.rdRem) (h2 : 2 ≤ s.rdIdx)
    (h35 : s.rdIdx + s.rdRem ≤ 35) (hr : ∀ b r', r ≠ .byte b :: r') :
    CutShort (received bs r s) r (headerPhase s) := by
  obtain ⟨j, hj⟩ := inLoop_some hin hk h2 (by omega)
  unfold headerPhase inResume
  rw [hj]
  match r, hr with
  | [], _ => rw [inLoop_end (received_input _ _ _)]; exact .silent
  | .byte b :: r', hr => exact absurd rfl (hr b r')
  | .wait :: r', _ => rw [inLoop_wait (received_input _ _ _)]; exact .wait r'
  | .eos :: r', _ => rw [inLoop_eos (received_input _ _ _)]; exact .eos r'
  | .err e :: r', _ => rw [inLoop_err (received_input _ _ _)]; exact .err e r'
  | .clash :: r', _ => rw [inLoop_clash (received_input _ _ _)]; exact .clash r'

/-- Everything phase `HEADER` can do. -/
theorem headerPhase_cases {s : State} (h2 : 2 ≤ s.rdIdx) (h35 : s.rdIdx + s.rdRem ≤ 35) :
    ∃ bs r, s.input = bs.map .byte ++ r ∧
      ((bs.length = s.rdRem ∧ headerPhase s = resolveCount (received bs r s)) ∨
       (bs.length < s.rdRem ∧ CutShort (received bs r s) r (headerPhase s))) := by
  obtain ⟨bs, r, hin, hc⟩ := inLoop_cases h2 h35
  refine ⟨bs, r, hin, ?_⟩
  rcases hc with ⟨hk, _⟩ | ⟨hk, he⟩
  · exact .inl ⟨hk, headerPhase_all hin hk h2 h35⟩
  · refine .inr ⟨hk, headerPhase_cut hin hk h2 h35 fun b r' hr => ?_⟩
    subst hr; cases he

/-! ### The commands -/

/-- The count is in range: the data read begins (R115). -/
theorem resolveCount_in {s : State} {c : Byte} {l : BodyLen} (hc : s.buf.read 5 = some c)
    (hl : c.toNat + 3 = l.val) :
    resolveCount s = bodyPhase { s with
      curLength := lengthReg s.cfg.lenW c.toNat, l := l, phase := .body, rdIdx := 6, rdRem := c.toNat } := by
  have : bodyLen? ((c.toNat : Int) + 3) = some l := bodyLen?_eq_some.2 (by omega)
  simp [resolveCount, countIdx, readBuf_ok (s := s) (by omega) hc, embeddedCount, hdrLen, this,
    startBody, dataIdx]

/-- The count is over the ceiling (R64). -/
theorem resolveCount_over {s : State} {c : Byte} (hc : s.buf.read 5 = some c) (hl : 29 < c.toNat) :
    resolveCount s = .next (raiseError .internalTableInconsistency
      { s with curLength := lengthReg s.cfg.lenW c.toNat }) := by
  have : bodyLen? ((c.toNat : Int) + 3) = none := bodyLen?_eq_none.2 (by omega)
  simp [resolveCount, countIdx, readBuf_ok (s := s) (by omega) hc, embeddedCount, hdrLen, this]

/-- A length in range: the body read begins (R113). -/
theorem fixedCommand_in (l : BodyLen) (s : State) :
    fixedCommand (l.val : Int) s = bodyPhase { s with
      curLength := lengthReg s.cfg.lenW l.val, l := l, phase := .body, rdIdx := 3, rdRem := l.val } := by
  have := l.isLt
  have h : bodyLen? (l.val : Int) = some l := bodyLen?_eq_some.2 rfl
  simp [fixedCommand, h, startBody, bodyIdx]

/-- A length off 0..32 (R113, R145). -/
theorem fixedCommand_out {n : Int} (hn : n < 0 ∨ 32 < n) (s : State) :
    fixedCommand n s = .next (raiseError .internalTableInconsistency
      { s with curLength := lengthReg s.cfg.lenW n }) := by
  simp [fixedCommand, bodyLen?_eq_none.2 hn]

@[simp] theorem whenPhase_on {p : Phase} {s : State} (h : s.phase = p)
    (k : Host.Outcome State Fault Refusal) : whenPhase p s k = k := by simp [whenPhase, h]

theorem whenPhase_terminal {p : Phase} {s : State} (h : s.phase.terminal = true)
    (hp : p.terminal = false) (k : Host.Outcome State Fault Refusal) : whenPhase p s k = .next s := by
  have : s.phase ≠ p := by intro he; rw [he, hp] at h; cases h
  simp [whenPhase, this, h]

theorem whenPhase_off {p : Phase} {s : State} (h : s.phase.terminal = false) (hp : s.phase ≠ p)
    (k : Host.Outcome State Fault Refusal) : whenPhase p s k = .refused .notEnabled := by
  simp [whenPhase, hp, h]

/-- The decoder gives an input command, by the table's rule (R61). -/
theorem decodeByte_none {c : Config} {o : Byte} (h : c.ruleOf o = none) :
    decodeByte c o = .opcode00 ∨ decodeByte c o = .cmdUnknown o := by
  simp only [decodeByte, h]; split
  · exact .inl rfl
  · exact .inr rfl

theorem decodeByte_fixed {c : Config} {o : Byte} {n : Int} (h : c.ruleOf o = some (.fixed n)) :
    (decodeByte c o = .changeTool ∧ n = 1) ∨ decodeByte c o = .cmdFixed o n := by
  simp only [decodeByte, h]; split
  · next h => exact .inl ⟨rfl, h.2⟩
  · exact .inr rfl

theorem decodeByte_embedded {c : Config} {o : Byte} (h : c.ruleOf o = some .embedded) :
    decodeByte c o = .toolAction ∨ decodeByte c o = .cmdEmbedded o := by
  simp only [decodeByte, h]; split
  · exact .inl rfl
  · exact .inr rfl

/-- The command the decoder reads from an opcode byte, run at a command boundary, by the table's rule
alone (R111). -/
theorem runCommand_decodeByte {c : Config} {o : Byte} {s : State} (hp : s.phase = .fetch) :
    runCommand (decodeByte c o) s =
      match c.ruleOf o with
      | none => unknownCommand s
      | some (.fixed n) => fixedCommand n s
      | some .embedded => embeddedCommand s := by
  cases h : c.ruleOf o with
  | none =>
    rcases decodeByte_none h with hd | hd <;>
      simp [hd, runCommand, execOpcode00, execCmdUnknown, hp]
  | some r =>
    cases r with
    | fixed n =>
      rcases decodeByte_fixed h with ⟨hd, rfl⟩ | hd <;>
        simp [hd, runCommand, execChangeTool, execCmdFixed, hp]
    | embedded =>
      rcases decodeByte_embedded h with hd | hd <;>
        simp [hd, runCommand, execToolAction, execCmdEmbedded, hp]

/-- The state in which an opcode byte has been accepted and latched (R111). -/
def fetched (o : Byte) (r : List InEvent) (s : State) : State :=
  { s with
    input := r, buf := s.buf.write 2 o, rdIdx := 3, rdRem := 0,
    bytesConsumed := (s.bytesConsumed + 1) % 2 ^ s.cfg.countW, curOpcode := o, curLength := 0 }

@[simp] theorem fetched_crc (o : Byte) (r : List InEvent) (s : State) :
    (fetched o r s).crc = s.crc := rfl
@[simp] theorem fetched_buf (o : Byte) (r : List InEvent) (s : State) :
    (fetched o r s).buf = s.buf.write 2 o := rfl
@[simp] theorem fetched_l (o : Byte) (r : List InEvent) (s : State) :
    (fetched o r s).l = s.l := rfl
@[simp] theorem fetched_phase (o : Byte) (r : List InEvent) (s : State) :
    (fetched o r s).phase = s.phase := rfl
@[simp] theorem fetched_errCode (o : Byte) (r : List InEvent) (s : State) :
    (fetched o r s).errCode = s.errCode := rfl
@[simp] theorem fetched_bytesConsumed (o : Byte) (r : List InEvent) (s : State) :
    (fetched o r s).bytesConsumed = (s.bytesConsumed + 1) % 2 ^ s.cfg.countW := rfl
@[simp] theorem fetched_curOpcode (o : Byte) (r : List InEvent) (s : State) :
    (fetched o r s).curOpcode = o := rfl
@[simp] theorem fetched_curLength (o : Byte) (r : List InEvent) (s : State) :
    (fetched o r s).curLength = 0 := rfl
@[simp] theorem fetched_ioErr (o : Byte) (r : List InEvent) (s : State) :
    (fetched o r s).ioErr = s.ioErr := rfl
@[simp] theorem fetched_rdIdx (o : Byte) (r : List InEvent) (s : State) :
    (fetched o r s).rdIdx = 3 := rfl
@[simp] theorem fetched_rdRem (o : Byte) (r : List InEvent) (s : State) :
    (fetched o r s).rdRem = 0 := rfl
@[simp] theorem fetched_outIdx (o : Byte) (r : List InEvent) (s : State) :
    (fetched o r s).outIdx = s.outIdx := rfl
@[simp] theorem fetched_cfg (o : Byte) (r : List InEvent) (s : State) :
    (fetched o r s).cfg = s.cfg := rfl
@[simp] theorem fetched_input (o : Byte) (r : List InEvent) (s : State) :
    (fetched o r s).input = r := rfl
@[simp] theorem fetched_answers (o : Byte) (r : List InEvent) (s : State) :
    (fetched o r s).answers = s.answers := rfl
@[simp] theorem fetched_rst (o : Byte) (r : List InEvent) (s : State) :
    (fetched o r s).rst = s.rst := rfl
@[simp] theorem fetched_output (o : Byte) (r : List InEvent) (s : State) :
    (fetched o r s).output = s.output := rfl

/-- SEQ_FETCH with an opcode byte next (R111). -/
theorem fetchCommand_byte {s : State} {o : Byte} {r : List InEvent} (hin : s.input = .byte o :: r) :
    fetchCommand s = runCommand (decodeByte s.cfg o) (fetched o r s) := by
  have h := inLoop_all (bs := [o]) (k := 1) (s := { s with rdIdx := 2, rdRem := 1 }) (r := r)
    (by simpa using hin) rfl (by simp) (by simp)
  have h2 : readBuf (received [o] r { s with rdIdx := 2, rdRem := 1 }) 2 = .ok o :=
    readBuf_ok (by omega) (by simp)
  simp only [fetchCommand, inRead, inResume, opcodeIdx, h, h2]
  rfl

theorem fetchCommand_eos {s : State} {r : List InEvent} (hp : s.phase = .fetch)
    (hin : s.input = .eos :: r) :
    fetchCommand s = .next { s with input := r, rdIdx := 2, rdRem := 1, phase := .done } := by
  simp [fetchCommand, inRead, inResume, inLoop, hin, runCommand, execSeqEos, whenPhase, hp, opcodeIdx]

theorem fetchCommand_err {s : State} {e : IoErr} {r : List InEvent} (hin : s.input = .err e :: r) :
    fetchCommand s = .next (raiseError (.ioFailure e) { s with input := r, rdIdx := 2, rdRem := 1 }) := by
  simp [fetchCommand, inRead, inResume, inLoop, hin, opcodeIdx]

theorem fetchCommand_wait {s : State} {r : List InEvent} (hin : s.input = .wait :: r) :
    fetchCommand s = .next { s with input := r, rdIdx := 2, rdRem := 1 } := by
  simp [fetchCommand, inRead, inResume, inLoop, hin, opcodeIdx]

theorem fetchCommand_end {s : State} (hin : s.input = []) :
    fetchCommand s = .next { s with rdIdx := 2, rdRem := 1 } := by
  simp [fetchCommand, inRead, inResume, inLoop, hin, opcodeIdx]

theorem fetchCommand_clash {s : State} {r : List InEvent} (hin : s.input = .clash :: r) :
    fetchCommand s = .refused .illFormedSource := by
  simp [fetchCommand, inRead, inResume, inLoop, hin]

/-- A step without a reset only uses up a sample of the reset line before it goes on. -/
theorem step_noReset {s : State} (h : s.noReset) : step s = advance { s with rst := s.rst.tail } := by
  cases s
  rename_i rst _
  unfold step
  match rst, h with
  | [], _ => rfl
  | true :: r, h => exact absurd rfl h
  | false :: r, _ => rfl

theorem step_reset {s : State} {r : List Bool} (h : s.rst = true :: r) :
    step s = .next (applyReset { s with rst := r }) := by simp [step, h]

theorem advance_fetch {s : State} (h : s.phase = .fetch) : advance s = fetchCommand s := by
  simp [advance, h, execSeqFetch, whenPhase]

theorem advance_header {s : State} (h : s.phase = .header) : advance s = headerPhase s := by
  simp [advance, h]

theorem advance_body {s : State} (h : s.phase = .body) : advance s = bodyPhase s := by
  simp [advance, h]

theorem advance_emit {s : State} (h : s.phase = .emit) : advance s = emitPhase s := by
  simp [advance, h]

theorem advance_terminal {s : State} (h : s.phase.terminal = true) : advance s = .next s := by
  unfold advance
  cases hp : s.phase <;> simp_all [Phase.terminal]

end Sys2Proof.Machine
end

