-- ==== Sys2Proof/Laws/Keeps.lean ====
section
/-! SUPPORT. The one induction over everything the machine can do: a property that each primitive change
of state keeps is kept by every instruction and by every step, from any state whatever. -/

namespace Sys2Proof.Machine

/-- The primitive changes of state the operations are made of. -/
structure Closed (P : State → Prop) : Prop where
  popEvent : ∀ s ev r, P s → s.input = ev :: r → (∀ b, ev ≠ .byte b) → P { s with input := r }
  accept : ∀ s b r t, P s → s.input = .byte b :: r → acceptByte b { s with input := r } = .ok t → P t
  popAnswer : ∀ s a r, P s → s.answers = a :: r → P { s with answers := r }
  send : ∀ s b r, P s →
    P { s with answers := r, output := s.output ++ [b], outIdx := s.outIdx + 1 }
  toPhase : ∀ s p, P s → P { s with phase := p }
  startRead : ∀ s i k, P s → P { s with rdIdx := i, rdRem := k }
  startWrite : ∀ s, P s → P { s with outIdx := 0 }
  setCurLength : ∀ s v, P s → P { s with curLength := v }
  setBodyLen : ∀ s l, P s → P { s with l := l }
  latch : ∀ s o, P s → P (latchOpcode o s)
  raise : ∀ s x, P s → P (raiseError x s)
  setCrc : ∀ s c, P s → P { s with crc := c }
  writeBuf : ∀ s i b, P s → 1 ≤ i → P { s with buf := s.buf.write i b }

/-- The property holds of the state of a stream primitive's answer, if there is one. -/
def IoResult.All (P : State → Prop) : IoResult → Prop
  | .ok s => P s
  | .held s => P s
  | .short s => P s
  | .fail _ s => P s
  | .fault _ => True
  | .refused _ => True

/-- The property holds of the next state, if there is one. -/
def OutcomeAll (P : State → Prop) : Host.Outcome State Fault Refusal → Prop
  | .next s => P s
  | .fault _ => True
  | .refused _ => True

variable {P : State → Prop}

theorem Closed.faPut (h : Closed P) {s t : State} {i : Nat} {b : Byte} (hs : P s)
    (ht : faPut i b s = .ok t) : P t := by
  unfold Machine.faPut at ht
  split at ht
  · next hi => cases ht; exact h.writeBuf s i b hs (by omega)
  · cases ht

theorem Closed.faPutAll (h : Closed P) {bs : List Byte} {s t : State} {i : Nat} (hs : P s)
    (ht : faPutAll i bs s = .ok t) : P t := by
  induction bs generalizing s i with
  | nil => cases ht; exact hs
  | cons b bs ih =>
    simp only [Machine.faPutAll] at ht
    split at ht
    · cases ht
    · next s' hs' => exact ih (h.faPut hs hs') ht

theorem Closed.faSeal (h : Closed P) {s t : State} (hs : P s) (ht : faSeal s = .ok t) : P t := by
  obtain ⟨bs, _, _, rfl⟩ := faSeal_eq_ok ht
  exact h.writeBuf _ _ _ (h.setCrc _ _ hs) (by omega)

theorem Closed.inLoop (h : Closed P) {k : Nat} {s : State} (hs : P s) : (inLoop k s).All P := by
  induction k generalizing s with
  | zero => exact hs
  | succ k ih =>
    simp only [Machine.inLoop]
    split
    · exact hs
    · next b r hin =>
      split
      · trivial
      · next t ht => exact ih (h.accept s b r t hs hin ht)
    · next r hin => exact h.popEvent s _ r hs hin (by simp)
    · next e r hin => exact h.popEvent s _ r hs hin (by simp)
    · next r hin => exact h.popEvent s _ r hs hin (by simp)
    · trivial

theorem Closed.outLoop (h : Closed P) {v : List Byte} {s : State} (hs : P s) :
    (outLoop v s).All P := by
  induction v generalizing s with
  | nil => exact hs
  | cons b bs ih =>
    simp only [Machine.outLoop]
    split
    · exact hs
    · exact ih (h.send s b _ hs)
    · next r ha => exact h.popAnswer s _ r hs ha
    · next e r ha => exact h.popAnswer s _ r hs ha
    · next r ha => exact h.popAnswer s _ r hs ha
    · trivial

theorem Closed.outResume (h : Closed P) {s : State} (hs : P s) : (outResume s).All P := by
  unfold Machine.outResume
  split
  · trivial
  · exact h.outLoop hs

theorem Closed.emitPhase (h : Closed P) {s : State} (hs : P s) : OutcomeAll P (emitPhase s) := by
  have := h.outResume hs
  unfold Machine.emitPhase
  cases hr : Machine.outResume s <;> rw [hr] at this
  · exact h.toPhase _ _ this
  · exact this
  · exact h.raise _ _ this
  · exact h.raise _ _ this
  · trivial
  · trivial

theorem Closed.faSetLen (h : Closed P) {s : State} (hs : P s) : P (faSetLen s) :=
  h.writeBuf _ _ _ hs (by omega)

theorem Closed.seqEmit (h : Closed P) {s : State} (hs : P s) : OutcomeAll P (seqEmit s) := by
  unfold Machine.seqEmit
  split
  · trivial
  · next t ht =>
    have := h.startWrite _ (h.toPhase _ .emit (h.faSeal (h.faSetLen hs) ht))
    exact h.emitPhase this

theorem Closed.bodyPhase (h : Closed P) {s : State} (hs : P s) : OutcomeAll P (bodyPhase s) := by
  have := h.inLoop (k := s.rdRem) hs
  unfold Machine.bodyPhase inResume
  cases hr : Machine.inLoop s.rdRem s <;> rw [hr] at this
  · exact h.seqEmit this
  · exact this
  · exact h.raise _ _ this
  · exact h.raise _ _ this
  · trivial
  · trivial

theorem Closed.startBody (h : Closed P) {l : BodyLen} {k i : Nat} {s : State} (hs : P s) :
    OutcomeAll P (startBody l k i s) :=
  h.bodyPhase (h.startRead _ i k (h.toPhase _ .body (h.setBodyLen s l hs)))

theorem Closed.resolveCount (h : Closed P) {s : State} (hs : P s) : OutcomeAll P (resolveCount s) := by
  unfold Machine.resolveCount
  split
  · trivial
  · dsimp only
    split
    · exact h.raise _ _ (h.setCurLength _ _ hs)
    · exact h.startBody (h.setCurLength _ _ hs)

theorem Closed.headerPhase (h : Closed P) {s : State} (hs : P s) : OutcomeAll P (headerPhase s) := by
  have := h.inLoop (k := s.rdRem) hs
  unfold Machine.headerPhase inResume
  cases hr : Machine.inLoop s.rdRem s <;> rw [hr] at this
  · exact h.resolveCount this
  · exact this
  · exact h.raise _ _ this
  · exact h.raise _ _ this
  · trivial
  · trivial

theorem Closed.fixedCommand (h : Closed P) {n : Int} {s : State} (hs : P s) :
    OutcomeAll P (fixedCommand n s) := by
  unfold Machine.fixedCommand
  dsimp only
  split
  · exact h.raise _ _ (h.setCurLength _ _ hs)
  · exact h.startBody (h.setCurLength _ _ hs)

theorem Closed.embeddedCommand (h : Closed P) {s : State} (hs : P s) :
    OutcomeAll P (embeddedCommand s) :=
  h.headerPhase (h.startRead _ bodyIdx hdrLen (h.toPhase s .header hs))

theorem Closed.whenPhase {p : Phase} {s : State} {k : Host.Outcome State Fault Refusal} (hs : P s)
    (hk : OutcomeAll P k) : OutcomeAll P (whenPhase p s k) := by
  unfold Machine.whenPhase
  split
  · exact hk
  · split
    · exact hs
    · trivial

theorem Closed.runCommand (h : Closed P) {i : Instr} {s : State} (hs : P s) :
    OutcomeAll P (runCommand i s) := by
  cases i <;>
    first
      | trivial
      | exact Closed.whenPhase hs (h.fixedCommand hs)
      | exact Closed.whenPhase hs (h.embeddedCommand hs)
      | exact Closed.whenPhase hs (h.raise _ _ hs)
      | exact Closed.whenPhase hs (h.toPhase _ _ hs)

theorem Closed.fetchCommand (h : Closed P) {s : State} (hs : P s) : OutcomeAll P (fetchCommand s) := by
  have := h.inLoop (k := 1) (h.startRead s opcodeIdx 1 hs)
  unfold Machine.fetchCommand inRead inResume
  cases hr : Machine.inLoop 1 { s with rdIdx := opcodeIdx, rdRem := 1 } <;> rw [hr] at this
  · simp only
    split
    · trivial
    · exact h.runCommand (h.latch _ _ this)
  · exact this
  · exact h.runCommand this
  · exact h.raise _ _ this
  · trivial
  · trivial

/-- Every instruction but FA_INIT keeps a property that each primitive change keeps. -/
theorem Closed.exec (h : Closed P) {i : Instr} (hi : i ≠ .faInit) {s : State} (hs : P s) :
    OutcomeAll P (exec i s) := by
  cases i with
  | seqFetch => exact Closed.whenPhase hs (h.fetchCommand hs)
  | seqEmit => exact Closed.whenPhase hs (h.seqEmit hs)
  | crcClear => exact h.setCrc s _ hs
  | crcBit => exact h.setCrc s _ hs
  | crcByte b => exact h.setCrc s _ hs
  | crcSeq bs =>
    show P (crcPutAll bs (crcClear s))
    rw [crcPutAll_clear]; exact h.setCrc s _ hs
  | crcRead => exact hs
  | faInit => exact absurd rfl hi
  | faPut i b =>
    show OutcomeAll P (execFaPut i b s)
    unfold execFaPut
    split
    · trivial
    · next t ht => exact h.faPut hs ht
  | faSetLen => exact h.faSetLen hs
  | faSeal =>
    show OutcomeAll P (execFaSeal s)
    unfold execFaSeal
    split
    · trivial
    · next t ht => exact h.faSeal hs ht
  | faEmit =>
    refine Closed.whenPhase hs ?_
    have := h.outResume (h.startWrite s hs)
    unfold outWrite
    cases hr : Machine.outResume { s with outIdx := 0 } <;> rw [hr] at this
    · exact this
    · exact this
    · exact h.raise _ _ this
    · exact h.raise _ _ this
    · trivial
    · trivial
  | frame o body =>
    refine Closed.whenPhase hs ?_
    split
    · trivial
    · split
      · trivial
      · next t ht => exact h.seqEmit (h.setBodyLen _ _ (h.faPutAll hs ht))
  | changeTool => exact h.runCommand (i := .changeTool) hs
  | toolAction => exact h.runCommand (i := .toolAction) hs
  | opcode00 => exact h.runCommand (i := .opcode00) hs
  | cmdFixed o n => exact h.runCommand (i := .cmdFixed o n) hs
  | cmdEmbedded o => exact h.runCommand (i := .cmdEmbedded o) hs
  | cmdUnknown o => exact h.runCommand (i := .cmdUnknown o) hs
  | seqEos => exact h.runCommand (i := .seqEos) hs

/-- Going on without a reset keeps it too. -/
theorem Closed.advance (h : Closed P) {s : State} (hs : P s) : OutcomeAll P (advance s) := by
  unfold Machine.advance
  split
  · exact h.exec (i := .seqFetch) (by simp) hs
  · exact h.headerPhase hs
  · exact h.bodyPhase hs
  · exact h.emitPhase hs
  · exact hs
  · exact hs

end Sys2Proof.Machine
end

