-- ==== Sys2Proof/Laws/PerInstr.lean ====
section
/-! SUPPORT. The family `Encodable`, one lemma per constructor: an instruction is read from one symbol of
the input stream or from none, and has at most one of the two encodings. -/

namespace Sys2Proof.Laws

/-- An instruction is written as one symbol of the input stream (an opcode byte, or the end of stream) or
has no words there (R61, R70), and what is written on one stream is not written on the other. -/
def Encodable.Statement (i : Instr) : Prop :=
  ∀ c : Config,
    (encode c i = none ∨ ∃ ev, encode c i = some [ev] ∧ ev ≠ .wait ∧ ev ≠ .clash ∧ ∀ e, ev ≠ .err e) ∧
    (encode c i = none ∨ encodePacket i = none)

theorem Encodable.changeTool : Encodable.Statement .changeTool :=
  fun _ => ⟨.inr ⟨.byte 0x86, rfl, by simp, by simp, by simp⟩, .inr rfl⟩

theorem Encodable.toolAction : Encodable.Statement .toolAction :=
  fun c => ⟨.inr ⟨.byte c.opToolAction, rfl, by simp, by simp, by simp⟩, .inr rfl⟩

theorem Encodable.opcode00 : Encodable.Statement .opcode00 :=
  fun _ => ⟨.inr ⟨.byte 0x00, rfl, by simp, by simp, by simp⟩, .inr rfl⟩

theorem Encodable.cmdFixed (o : Byte) (n : Int) : Encodable.Statement (.cmdFixed o n) :=
  fun _ => ⟨.inr ⟨.byte o, rfl, by simp, by simp, by simp⟩, .inr rfl⟩

theorem Encodable.cmdEmbedded (o : Byte) : Encodable.Statement (.cmdEmbedded o) :=
  fun _ => ⟨.inr ⟨.byte o, rfl, by simp, by simp, by simp⟩, .inr rfl⟩

theorem Encodable.cmdUnknown (o : Byte) : Encodable.Statement (.cmdUnknown o) :=
  fun _ => ⟨.inr ⟨.byte o, rfl, by simp, by simp, by simp⟩, .inr rfl⟩

theorem Encodable.seqEos : Encodable.Statement .seqEos :=
  fun _ => ⟨.inr ⟨.eos, rfl, by simp, by simp, by simp⟩, .inr rfl⟩

theorem Encodable.seqFetch : Encodable.Statement .seqFetch :=
  fun _ => ⟨.inl rfl, .inl rfl⟩

theorem Encodable.seqEmit : Encodable.Statement .seqEmit :=
  fun _ => ⟨.inl rfl, .inl rfl⟩

theorem Encodable.crcClear : Encodable.Statement .crcClear :=
  fun _ => ⟨.inl rfl, .inl rfl⟩

theorem Encodable.crcBit : Encodable.Statement .crcBit :=
  fun _ => ⟨.inl rfl, .inl rfl⟩

theorem Encodable.crcByte (b : Byte) : Encodable.Statement (.crcByte b) :=
  fun _ => ⟨.inl rfl, .inl rfl⟩

theorem Encodable.crcSeq (bs : List Byte) : Encodable.Statement (.crcSeq bs) :=
  fun _ => ⟨.inl rfl, .inl rfl⟩

theorem Encodable.crcRead : Encodable.Statement .crcRead :=
  fun _ => ⟨.inl rfl, .inl rfl⟩

theorem Encodable.faInit : Encodable.Statement .faInit :=
  fun _ => ⟨.inl rfl, .inl rfl⟩

theorem Encodable.faPut (i : Nat) (b : Byte) : Encodable.Statement (.faPut i b) :=
  fun _ => ⟨.inl rfl, .inl rfl⟩

theorem Encodable.faSetLen : Encodable.Statement .faSetLen :=
  fun _ => ⟨.inl rfl, .inl rfl⟩

theorem Encodable.faSeal : Encodable.Statement .faSeal :=
  fun _ => ⟨.inl rfl, .inl rfl⟩

theorem Encodable.faEmit : Encodable.Statement .faEmit :=
  fun _ => ⟨.inl rfl, .inl rfl⟩

theorem Encodable.frame (o : Byte) (body : List Byte) : Encodable.Statement (.frame o body) :=
  fun _ => ⟨.inl rfl, .inl rfl⟩

end Sys2Proof.Laws
end

