-- ==== Sys2Proof/Laws/Waits.lean ====
section
/-! SUPPORT. What a `wait` in the coming events or answers does (log 2): the phase that meets it is held,
and goes on from there as it would have gone on had the `wait` not been there. -/

namespace Sys2Proof.Machine

/-! ### The state without its waits, field by field -/

@[simp] theorem withoutWaits_crc (s : State) : s.withoutWaits.crc = s.crc := rfl
@[simp] theorem withoutWaits_buf (s : State) : s.withoutWaits.buf = s.buf := rfl
@[simp] theorem withoutWaits_l (s : State) : s.withoutWaits.l = s.l := rfl
@[simp] theorem withoutWaits_phase (s : State) : s.withoutWaits.phase = s.phase := rfl
@[simp] theorem withoutWaits_errCode (s : State) : s.withoutWaits.errCode = s.errCode := rfl
@[simp] theorem withoutWaits_bytesConsumed (s : State) : s.withoutWaits.bytesConsumed = s.bytesConsumed := rfl
@[simp] theorem withoutWaits_curOpcode (s : State) : s.withoutWaits.curOpcode = s.curOpcode := rfl
@[simp] theorem withoutWaits_curLength (s : State) : s.withoutWaits.curLength = s.curLength := rfl
@[simp] theorem withoutWaits_ioErr (s : State) : s.withoutWaits.ioErr = s.ioErr := rfl
@[simp] theorem withoutWaits_rdIdx (s : State) : s.withoutWaits.rdIdx = s.rdIdx := rfl
@[simp] theorem withoutWaits_rdRem (s : State) : s.withoutWaits.rdRem = s.rdRem := rfl
@[simp] theorem withoutWaits_outIdx (s : State) : s.withoutWaits.outIdx = s.outIdx := rfl
@[simp] theorem withoutWaits_cfg (s : State) : s.withoutWaits.cfg = s.cfg := rfl
@[simp] theorem withoutWaits_rst (s : State) : s.withoutWaits.rst = s.rst := rfl
@[simp] theorem withoutWaits_output (s : State) : s.withoutWaits.output = s.output := rfl
@[simp] theorem withoutWaits_input (s : State) :
    s.withoutWaits.input = s.input.filter (· ≠ .wait) := rfl
@[simp] theorem withoutWaits_answers (s : State) :
    s.withoutWaits.answers = s.answers.filter (· ≠ .wait) := rfl

/-- Once the waits are out, none is left. -/
@[simp] theorem withoutWaits_withoutWaits (s : State) : s.withoutWaits.withoutWaits = s.withoutWaits := by
  simp [State.withoutWaits]

/-- The waits are taken out of the state of a stream primitive's answer. -/
def IoResult.withoutWaits : IoResult → IoResult
  | .ok s => .ok s.withoutWaits
  | .held s => .held s.withoutWaits
  | .short s => .short s.withoutWaits
  | .fail e s => .fail e s.withoutWaits
  | .fault f => .fault f
  | .refused r => .refused r

/-- The waits are taken out of the next state. -/
def outcomeWithoutWaits : Host.Outcome State Fault Refusal → Host.Outcome State Fault Refusal
  | .next s => .next s.withoutWaits
  | .fault f => .fault f
  | .refused r => .refused r

/-! ### The stream primitives -/

/-- A read or write from `s`, beside the same one with the waits taken out: the same answer, or a hold
at a `wait` from which going on gives the answer of the other. -/
inductive IoWaits (resume : State → IoResult) (s : State) : IoResult → IoResult → Prop
  | same (x : IoResult) (hx : x.All fun t => t.waits ≤ s.waits ∧ t.phase = s.phase) :
      IoWaits resume s x x.withoutWaits
  | held (t : State) (hw : t.waits < s.waits) (hp : t.phase = s.phase) :
      IoWaits resume s (.held t) (resume t.withoutWaits)

/-- What is known of the state a read or write goes on from holds of the one it began in. -/
theorem IoWaits.mono {resume : State → IoResult} {s s' : State} {x y : IoResult}
    (h : IoWaits resume s' x y) (hw : s'.waits ≤ s.waits) (hp : s'.phase = s.phase) :
    IoWaits resume s x y := by
  cases h with
  | same x hx =>
    refine .same x ?_
    cases x <;> first | trivial | exact ⟨Nat.le_trans hx.1 hw, hx.2.trans hp⟩
  | held t hw' hp' => exact .held t (Nat.lt_of_lt_of_le hw' hw) (hp'.trans hp)

theorem acceptByte_withoutWaits (b : Byte) (r : List InEvent) (s : State) :
    acceptByte b { s.withoutWaits with input := r.filter (· ≠ .wait) } =
      (acceptByte b { s with input := r }).map State.withoutWaits := by
  by_cases h : 2 ≤ s.rdIdx ∧ s.rdIdx ≤ 34
  · rw [acceptByte_ok b r s h, acceptByte_ok b _ s.withoutWaits h]; rfl
  · have hf : ∀ u : State, u.rdIdx = s.rdIdx → acceptByte b u = .error (.bufIndex s.rdIdx) := fun u hu => by
      simp [acceptByte, faPut, hu, h]
    rw [hf { s with input := r } rfl, hf { s.withoutWaits with input := r.filter (· ≠ .wait) } rfl]; rfl

/-- Everything a `wait` can do to a read. -/
theorem inLoop_waits {k : Nat} {s : State} (hk : s.rdRem = k) :
    IoWaits inResume s (inLoop k s) (inLoop k s.withoutWaits) := by
  induction k generalizing s with
  | zero => exact .same (.ok s) ⟨Nat.le_refl _, rfl⟩
  | succ k ih =>
    match hin : s.input with
    | [] =>
      rw [inLoop_end hin, inLoop_end (by simp [hin])]
      exact .same (.held s) ⟨Nat.le_refl _, rfl⟩
    | .byte b :: r =>
      simp only [inLoop, hin, withoutWaits_input,
        show ((InEvent.byte b :: r).filter (· ≠ .wait)) = .byte b :: r.filter (· ≠ .wait) by simp,
        acceptByte_withoutWaits]
      cases ha : acceptByte b { s with input := r } with
      | error f => exact .same (.fault f) trivial
      | ok t =>
        have ht : t.rdRem = s.rdRem - 1 ∧ t.waits = s.waits ∧ t.phase = s.phase := by
          unfold acceptByte faPut at ha
          split at ha
          · cases ha
          · next u hu =>
            split at hu
            · cases hu; cases ha; exact ⟨rfl, by simp [State.waits, hin], rfl⟩
            · cases hu
        exact (ih (s := t) (by omega)).mono (Nat.le_of_eq ht.2.1) ht.2.2
    | .wait :: r =>
      rw [inLoop_wait hin]
      have : s.withoutWaits = State.withoutWaits { s with input := r } := by simp [State.withoutWaits, hin]
      rw [this, ← hk]
      exact .held { s with input := r } (by simp [State.waits, hin]) rfl
    | .eos :: r =>
      rw [inLoop_eos hin, inLoop_eos (r := r.filter (· ≠ .wait)) (by simp [hin])]
      exact .same (.short { s with input := r }) ⟨by simp [State.waits, hin], rfl⟩
    | .err e :: r =>
      rw [inLoop_err hin, inLoop_err (e := e) (r := r.filter (· ≠ .wait)) (by simp [hin])]
      exact .same (.fail e { s with input := r }) ⟨by simp [State.waits, hin], rfl⟩
    | .clash :: r =>
      rw [inLoop_clash hin, inLoop_clash (r := r.filter (· ≠ .wait)) (by simp [hin])]
      exact .same (.refused .illFormedSource) trivial

theorem packetBytes_congr {s t : State} (hb : t.buf = s.buf) (hl : t.l = s.l) :
    packetBytes t = packetBytes s := by
  simp [packetBytes, hl, readRange_congr hb]

/-- Everything a `wait` can do to a write of the packet `v`, of which `OUT_IDX` bytes are out. -/
theorem outLoop_waits {v : List Byte} {s : State} (hv : packetBytes s = .ok v) (n : Nat)
    (hn : s.outIdx = n) :
    IoWaits outResume s (outLoop (v.drop n) s) (outLoop (v.drop n) s.withoutWaits) := by
  generalize hd : v.drop n = bs
  induction bs generalizing s n with
  | nil => exact .same (.ok s) ⟨Nat.le_refl _, rfl⟩
  | cons b bs ih =>
    match ha : s.answers with
    | [] =>
      simp only [outLoop, ha, withoutWaits_answers, List.filter_nil]
      exact .same (.held s) ⟨Nat.le_refl _, rfl⟩
    | .accept :: r =>
      simp only [outLoop, ha, withoutWaits_answers,
        show ((OutAnswer.accept :: r).filter (· ≠ .wait)) = .accept :: r.filter (· ≠ .wait) by simp]
      have hd' : v.drop (n + 1) = bs := by
        rw [← List.drop_drop, hd]; rfl
      have := ih (s := { s with answers := r, output := s.output ++ [b], outIdx := s.outIdx + 1 })
        (by rw [← hv]; exact packetBytes_congr rfl rfl) (n + 1) (by simp [hn]) hd'
      have hw : State.waits { s with answers := r, output := s.output ++ [b], outIdx := s.outIdx + 1 } ≤
        s.waits := by simp [State.waits, ha]
      exact this.mono hw rfl
    | .wait :: r =>
      simp only [outLoop, ha]
      have he : s.withoutWaits = State.withoutWaits { s with answers := r } := by simp [State.withoutWaits, ha]
      have ho : outResume (State.withoutWaits { s with answers := r }) =
          outLoop (b :: bs) (State.withoutWaits { s with answers := r }) := by
        have hv' : packetBytes (State.withoutWaits { s with answers := r }) = .ok v := by
          rw [← hv]; exact packetBytes_congr rfl rfl
        rw [outResume, hv']
        simp [hn, hd]
      have := IoWaits.held (resume := outResume) (s := s) { s with answers := r } (by simp [State.waits, ha]) rfl
      rw [ho] at this
      simp only [outLoop, ← he, withoutWaits_answers, ha] at this ⊢
      exact this
    | .refuse :: r =>
      simp only [outLoop, ha, withoutWaits_answers,
        show ((OutAnswer.refuse :: r).filter (· ≠ .wait)) = .refuse :: r.filter (· ≠ .wait) by simp]
      exact .same (.short { s with answers := r }) ⟨by simp [State.waits, ha], rfl⟩
    | .err e :: r =>
      simp only [outLoop, ha, withoutWaits_answers,
        show ((OutAnswer.err e :: r).filter (· ≠ .wait)) = .err e :: r.filter (· ≠ .wait) by simp]
      exact .same (.fail e { s with answers := r }) ⟨by simp [State.waits, ha], rfl⟩
    | .clash :: r =>
      simp only [outLoop, ha, withoutWaits_answers,
        show ((OutAnswer.clash :: r).filter (· ≠ .wait)) = .clash :: r.filter (· ≠ .wait) by simp]
      exact .same (.refused .illFormedSink) trivial

theorem outResume_waits (s : State) : IoWaits outResume s (outResume s) (outResume s.withoutWaits) := by
  unfold outResume
  rw [packetBytes_congr (s := s) (t := s.withoutWaits) rfl rfl]
  cases hv : packetBytes s with
  | error f => exact .same (.fault f) trivial
  | ok v => exact outLoop_waits hv _ rfl

/-! ### The phases -/

/-- A phase from `s`, beside the same phase with the waits taken out: the same outcome, or a hold at a
`wait` from which the machine goes on to the outcome of the other. -/
inductive StepWaits (s : State) :
    Host.Outcome State Fault Refusal → Host.Outcome State Fault Refusal → Prop
  | same (x : Host.Outcome State Fault Refusal) (hx : OutcomeAll (fun t => t.waits ≤ s.waits) x) :
      StepWaits s x (outcomeWithoutWaits x)
  | held (t : State) (hw : t.waits < s.waits) (hp : t.phase.terminal = false) :
      StepWaits s (.next t) (advance t.withoutWaits)

theorem StepWaits.mono {s s' : State} {x y : Host.Outcome State Fault Refusal} (h : StepWaits s' x y)
    (hw : s'.waits ≤ s.waits) : StepWaits s x y := by
  cases h with
  | same x hx =>
    refine .same x ?_
    cases x <;> first | trivial | exact Nat.le_trans hx hw
  | held t hw' hp => exact .held t (Nat.lt_of_lt_of_le hw' hw) hp

theorem emitPhase_waits {s : State} (hp : s.phase = .emit) :
    StepWaits s (emitPhase s) (emitPhase s.withoutWaits) := by
  have h := outResume_waits s
  unfold emitPhase
  generalize outResume s = x at h ⊢
  generalize outResume s.withoutWaits = y at h ⊢
  cases h with
  | same x hx =>
    cases x with
    | ok t => exact .same (.next { t with phase := .fetch }) hx.1
    | held t => exact .same (.next t) hx.1
    | short t => exact .same (.next (raiseError .shortWrite t)) hx.1
    | fail e t => exact .same (.next (raiseError (.ioFailure e) t)) hx.1
    | fault f => exact .same (.fault f) trivial
    | refused r => exact .same (.refused r) trivial
  | held t hw hp' =>
    have he : advance t.withoutWaits = emitPhase t.withoutWaits := by simp [advance, hp', hp]
    have := StepWaits.held (s := s) t hw (by rw [hp', hp]; rfl)
    rw [he] at this
    exact this

theorem faSeal_withoutWaits (s : State) :
    faSeal s.withoutWaits = (faSeal s).map State.withoutWaits := by
  have h : payloadRegion s.withoutWaits = payloadRegion s := by
    simp [payloadRegion, readRange_congr (s := s.withoutWaits) (t := s) rfl]
  unfold faSeal
  rw [h]
  cases payloadRegion s with
  | error f => rfl
  | ok bs => simp only [crcPutAll_clear]; rfl

theorem seqEmit_waits (s : State) : StepWaits s (seqEmit s) (seqEmit s.withoutWaits) := by
  unfold seqEmit
  have h : faSetLen s.withoutWaits = (faSetLen s).withoutWaits := rfl
  rw [h, faSeal_withoutWaits]
  cases ht : faSeal (faSetLen s) with
  | error f => exact .same (.fault f) trivial
  | ok t =>
    obtain ⟨bs, _, _, rfl⟩ := faSeal_eq_ok ht
    exact (emitPhase_waits (s := { faSetLen s with
      crc := crc8 bs, buf := (faSetLen s).buf.write (3 + (faSetLen s).l.val) (crc8 bs),
      phase := .emit, outIdx := 0 }) rfl).mono (Nat.le_refl _)

theorem bodyPhase_waits {s : State} (hp : s.phase = .body) :
    StepWaits s (bodyPhase s) (bodyPhase s.withoutWaits) := by
  have h : IoWaits inResume s (inResume s) (inResume s.withoutWaits) := inLoop_waits rfl
  unfold bodyPhase
  generalize inResume s = x at h ⊢
  generalize inResume s.withoutWaits = y at h ⊢
  cases h with
  | same x hx =>
    cases x with
    | ok t => exact (seqEmit_waits t).mono hx.1
    | held t => exact .same (.next t) hx.1
    | short t => exact .same (.next (raiseError .truncatedInput t)) hx.1
    | fail e t => exact .same (.next (raiseError (.ioFailure e) t)) hx.1
    | fault f => exact .same (.fault f) trivial
    | refused r => exact .same (.refused r) trivial
  | held t hw hp' =>
    have he : advance t.withoutWaits = bodyPhase t.withoutWaits := by simp [advance, hp', hp]
    have := StepWaits.held (s := s) t hw (by rw [hp', hp]; rfl)
    rw [he] at this
    exact this

theorem startBody_waits (l : BodyLen) (k i : Nat) (s : State) :
    StepWaits s (startBody l k i s) (startBody l k i s.withoutWaits) :=
  (bodyPhase_waits (s := { s with l := l, phase := .body, rdIdx := i, rdRem := k }) rfl).mono (Nat.le_refl _)

theorem resolveCount_waits (s : State) : StepWaits s (resolveCount s) (resolveCount s.withoutWaits) := by
  unfold resolveCount
  have h : readBuf s.withoutWaits countIdx = readBuf s countIdx := rfl
  rw [h]
  cases readBuf s countIdx with
  | error f => exact .same (.fault f) trivial
  | ok c =>
    dsimp only
    cases bodyLen? (embeddedCount c + hdrLen) with
    | none =>
      exact .same (.next (raiseError .internalTableInconsistency
        { s with curLength := lengthReg s.cfg.lenW (embeddedCount c) })) (Nat.le_refl _)
    | some l =>
      exact (startBody_waits l (embeddedCount c) dataIdx
        { s with curLength := lengthReg s.cfg.lenW (embeddedCount c) }).mono (Nat.le_refl _)

theorem headerPhase_waits {s : State} (hp : s.phase = .header) :
    StepWaits s (headerPhase s) (headerPhase s.withoutWaits) := by
  have h : IoWaits inResume s (inResume s) (inResume s.withoutWaits) := inLoop_waits rfl
  unfold headerPhase
  generalize inResume s = x at h ⊢
  generalize inResume s.withoutWaits = y at h ⊢
  cases h with
  | same x hx =>
    cases x with
    | ok t => exact (resolveCount_waits t).mono hx.1
    | held t => exact .same (.next t) hx.1
    | short t => exact .same (.next (raiseError .truncatedInput t)) hx.1
    | fail e t => exact .same (.next (raiseError (.ioFailure e) t)) hx.1
    | fault f => exact .same (.fault f) trivial
    | refused r => exact .same (.refused r) trivial
  | held t hw hp' =>
    have he : advance t.withoutWaits = headerPhase t.withoutWaits := by simp [advance, hp', hp]
    have := StepWaits.held (s := s) t hw (by rw [hp', hp]; rfl)
    rw [he] at this
    exact this

theorem fixedCommand_waits (n : Int) (s : State) :
    StepWaits s (fixedCommand n s) (fixedCommand n s.withoutWaits) := by
  unfold fixedCommand
  dsimp only
  cases bodyLen? n with
  | none =>
    exact .same (.next (raiseError .internalTableInconsistency
      { s with curLength := lengthReg s.cfg.lenW n })) (Nat.le_refl _)
  | some l =>
    exact (startBody_waits l l.val bodyIdx { s with curLength := lengthReg s.cfg.lenW n }).mono
      (Nat.le_refl _)

theorem embeddedCommand_waits (s : State) :
    StepWaits s (embeddedCommand s) (embeddedCommand s.withoutWaits) :=
  (headerPhase_waits (s := { s with phase := .header, rdIdx := bodyIdx, rdRem := hdrLen }) rfl).mono
    (Nat.le_refl _)

theorem fetchCommand_waits {s : State} (hp : s.phase = .fetch) :
    StepWaits s (fetchCommand s) (fetchCommand s.withoutWaits) := by
  match hin : s.input with
  | [] =>
    rw [fetchCommand_end hin, fetchCommand_end (by simp [hin])]
    exact .same (.next { s with rdIdx := 2, rdRem := 1 }) (Nat.le_refl _)
  | .byte o :: r =>
    rw [fetchCommand_byte hin, fetchCommand_byte (o := o) (r := r.filter (· ≠ .wait)) (by simp [hin]),
      runCommand_decodeByte (s := fetched o r s) hp,
      runCommand_decodeByte (s := fetched o _ s.withoutWaits) hp]
    have hf : fetched o (r.filter (· ≠ .wait)) s.withoutWaits = (fetched o r s).withoutWaits := rfl
    have hw : (fetched o r s).waits ≤ s.waits := by simp [State.waits, hin]
    rw [hf]
    simp only [withoutWaits_cfg]
    split
    · exact .same (.next (raiseError .unknownOpcode (fetched o r s))) hw
    · exact (fixedCommand_waits _ _).mono hw
    · exact (embeddedCommand_waits _).mono hw
  | .wait :: r =>
    rw [fetchCommand_wait hin]
    have h := StepWaits.held (s := s) { s with input := r, rdIdx := 2, rdRem := 1 }
      (by simp [State.waits, hin]) (by show s.phase.terminal = false; rw [hp]; rfl)
    have he : advance (State.withoutWaits { s with input := r, rdIdx := 2, rdRem := 1 }) =
        fetchCommand s.withoutWaits := by
      simp [advance, execSeqFetch, hp, fetchCommand, inRead, State.withoutWaits, hin]
    rw [he] at h
    exact h
  | .eos :: r =>
    rw [fetchCommand_eos hp hin, fetchCommand_eos (s := s.withoutWaits) (r := r.filter (· ≠ .wait)) hp (by simp [hin])]
    exact .same (.next { s with input := r, rdIdx := 2, rdRem := 1, phase := .done })
      (by simp [OutcomeAll, State.waits, hin])
  | .err e :: r =>
    rw [fetchCommand_err hin, fetchCommand_err (e := e) (r := r.filter (· ≠ .wait)) (by simp [hin])]
    exact .same (.next (raiseError (.ioFailure e) { s with input := r, rdIdx := 2, rdRem := 1 }))
      (by simp [OutcomeAll, State.waits, hin, raiseError])
  | .clash :: r =>
    rw [fetchCommand_clash hin, fetchCommand_clash (r := r.filter (· ≠ .wait)) (by simp [hin])]
    exact .same (.refused .illFormedSource) trivial

/-- Everything a `wait` can do to a step without a reset, from any state whatever. -/
theorem advance_waits (s : State) : StepWaits s (advance s) (advance s.withoutWaits) := by
  cases hp : s.phase with
  | fetch => rw [advance_fetch hp, advance_fetch (s := s.withoutWaits) hp]; exact fetchCommand_waits hp
  | header => rw [advance_header hp, advance_header (s := s.withoutWaits) hp]; exact headerPhase_waits hp
  | body => rw [advance_body hp, advance_body (s := s.withoutWaits) hp]; exact bodyPhase_waits hp
  | emit => rw [advance_emit hp, advance_emit (s := s.withoutWaits) hp]; exact emitPhase_waits hp
  | done =>
    have h : s.phase.terminal = true := by rw [hp]; rfl
    rw [advance_terminal h, advance_terminal (s := s.withoutWaits) h]; exact .same (.next s) (Nat.le_refl _)
  | error =>
    have h : s.phase.terminal = true := by rw [hp]; rfl
    rw [advance_terminal h, advance_terminal (s := s.withoutWaits) h]; exact .same (.next s) (Nat.le_refl _)

end Sys2Proof.Machine
end

