-- ==== Sys2Proof/Tests/Slice0.lean ====
section
/-! SUPPORT. Tests of the model against spec/95_test_vectors.md and the encodings of
spec/30_encoding.md, and a witness for the hypotheses of every obligation that has some. Expected
values are the spec's own (the vector's id stands in the name or the comment), never the model's. -/

open Sys2Proof Sys2Proof.Machine

namespace Sys2Proof.Tests

set_option Elab.async false

/-! ### Helpers -/

/-- `OPTAB_TEST` of 95_test_vectors.md. -/
def testTable : OpTable :=
  [(0x86, .known "CHANGE_TOOL" (.fixed 1)), (0x88, .known "TOOL_ACTION" .embedded),
    (0x81, .known "T_ZERO" (.fixed 0)), (0x85, .known "T_FOUR" (.fixed 4)),
    (0x90, .known "T_MAX" (.fixed 32))]

def testCfg : Config := ⟨testTable, 0x88, 64, 32⟩

/-- The same table with a 2-bit `COUNT_W` and a 7-bit `LEN_W` (R5: both may be overridden). -/
def narrowCfg : Config := ⟨testTable, 0x88, 2, 7⟩

/-- `OPTAB_BAD` of 95_test_vectors.md, and a second embedded opcode. -/
def badCfg : Config :=
  ⟨testTable ++ [(0xF0, .known "BAD_BIG" (.fixed 33)), (0xF1, .known "BAD_NEG" (.fixed (-1))),
    (0x89, .known "T_EMB" .embedded)], 0x88, 64, 32⟩

/-- A sink that accepts `n` bytes. -/
def takes (n : Nat) : List OutAnswer := List.replicate n .accept

/-- The reset state with an input and a sink. -/
def fresh (input : List InEvent) (answers : List OutAnswer) : State := State.start testCfg input answers

/-- The opcode `op` is in the buffer and latched, and the bytes `bs` come next. -/
def atCommand (op : Byte) (bs : List Byte) (answers : List OutAnswer) : State :=
  { fresh (bs.map .byte) answers with buf := [(0, 0xD5), (2, op)], curOpcode := op }

/-- `p` holds of the next state. -/
def nextIs (p : State → Bool) : Host.Outcome State Fault Refusal → Bool
  | .next s => p s
  | .fault _ => false
  | .refused _ => false

/-- The fault a step stops with. -/
def faultOf : Host.Outcome State Fault Refusal → Option Fault
  | .next _ => none
  | .fault f => some f
  | .refused _ => none

/-! ### Well-formedness: each check refuses an ill-formed term -/

theorem test_wf_changeTool : Instr.wf ⟨[], 0x88, 64, 32⟩ .changeTool = false := by decide
theorem test_wf_toolAction : Instr.wf ⟨testTable, 0x86, 64, 32⟩ .toolAction = false := by decide
theorem test_wf_opcode00 : Instr.wf ⟨[(0x00, .known "X" .embedded)], 0x88, 64, 32⟩ .opcode00 = false := by decide
theorem test_wf_cmdFixed_rule : Instr.wf testCfg (.cmdFixed 0x85 5) = false := by decide
theorem test_wf_cmdFixed_named : Instr.wf testCfg (.cmdFixed 0x86 1) = false := by decide
theorem test_wf_cmdEmbedded_rule : Instr.wf testCfg (.cmdEmbedded 0x85) = false := by decide
theorem test_wf_cmdEmbedded_named : Instr.wf testCfg (.cmdEmbedded 0x88) = false := by decide
theorem test_wf_cmdUnknown_rule : Instr.wf testCfg (.cmdUnknown 0x85) = false := by decide
theorem test_wf_cmdUnknown_named : Instr.wf testCfg (.cmdUnknown 0x00) = false := by decide
theorem test_wf_faPut_low : Instr.wf testCfg (.faPut 1 0x00) = false := by decide
theorem test_wf_faPut_high : Instr.wf testCfg (.faPut 35 0x00) = false := by decide
theorem test_wf_frame : Instr.wf testCfg (.frame 0x86 (List.replicate 33 0x00)) = false := by decide
theorem test_wf_accepts : [Instr.changeTool, .toolAction, .opcode00, .cmdFixed 0x90 32, .cmdUnknown 0x7F,
    .faPut 2 0x00, .faPut 34 0x00, .frame 0x90 (List.replicate 32 0x00)].all (Instr.wf testCfg) = true := by
  decide
theorem test_wf_table : ¬OpTable.wf [(0xF0, .known "BAD_BIG" (.fixed 33))] := fun h => by
  have : (0 : Int) ≤ 33 ∧ (33 : Int) ≤ 32 := h 0xF0
  omega
theorem test_wf_table_negative : ¬OpTable.wf [(0xF1, .known "BAD_NEG" (.fixed (-1)))] := fun h => by
  have : (0 : Int) ≤ -1 ∧ (-1 : Int) ≤ 32 := h 0xF1
  omega

/-! ### Decoding: words written out from the encodings of 30_encoding.md and the opcode table -/

theorem test_decode_changeTool : decodeTableWord 8 0b10000110 = some .changeTool := by decide
theorem test_decode_toolAction : decodeTableWord 8 0b10001000 = some .toolAction := by decide
theorem test_decode_opcode00 : decodeTableWord 8 0b00000000 = some .opcode00 := by decide
theorem test_decode_cmdUnknown : decodeTableWord 8 0b01111111 = some (.cmdUnknown 0x7F) := by decide
/-- Bits above `nbits` are 0, and the second byte is no part of the opcode. -/
theorem test_decode_two_bytes : decodeTableWord 16 0b0000001110000110 = some .changeTool := by decide
theorem test_decode_cmdFixed :
    decode testCfg [.byte 0b10010000, .byte 0x00] = .ok (.cmdFixed 0x90 32, [.byte 0x00]) := by rfl
theorem test_decode_cmdFixed_bad : decode badCfg [.byte 0b11110001] = .ok (.cmdFixed 0xF1 (-1), []) := by rfl
theorem test_decode_cmdEmbedded : decode badCfg [.byte 0b10001001] = .ok (.cmdEmbedded 0x89, []) := by rfl
theorem test_decode_seqEos : decode testCfg [.eos] = .ok (.seqEos, []) := by rfl
theorem test_decode_rejects :
    decode testCfg [] = .error .nothingYet ∧ decode testCfg [.wait] = .error .nothingYet ∧
    decode testCfg [.err 7] = .error .readFailure ∧ decode testCfg [.clash] = .error .illFormedSource := by
  exact ⟨rfl, rfl, rfl, rfl⟩
/-- Q3, bit by bit: start byte, length byte 1, opcode 0x81, checksum 0xD2. -/
theorem test_decode_frame :
    decodePacket [0b11010101, 0b00000001, 0b10000001, 0b11010010] = .ok (.frame 0x81 []) := by rfl
theorem test_decode_frame_rejects :
    decodePacket [0xD5, 0x01] = .error .tooShort ∧
    decodePacket [0xD4, 0x01, 0x81, 0xD2] = .error .badStart ∧
    decodePacket [0xD5, 0x00, 0x81, 0xD2] = .error .badLength ∧
    decodePacket [0xD5, 0x22, 0x81, 0xD2] = .error .badLength ∧
    decodePacket [0xD5, 0x02, 0x81, 0xD2] = .error .badSize ∧
    decodePacket [0xD5, 0x01, 0x81, 0xD3] = .error .badChecksum := by
  exact ⟨rfl, rfl, rfl, rfl, rfl, rfl⟩
/-- The internal operations have no words on either stream (R70). -/
theorem test_encode_internal :
    [Instr.seqFetch, .seqEmit, .crcClear, .crcBit, .crcByte 0x01, .crcSeq [0x01], .crcRead, .faInit,
      .faPut 2 0x01, .faSetLen, .faSeal, .faEmit].all
      (fun i => (encode testCfg i).isNone && (encodePacket i).isNone) = true := by decide

/-! ### One step of each instruction -/

/-- CB5 -/
theorem test_crcBit_folds : nextIs (·.crc == 0xF3) (exec .crcBit { State.reset with crc := 0xFF }) = true := by decide +kernel
/-- CB4 -/
theorem test_crcBit_shifts : nextIs (·.crc == 0x40) (exec .crcBit { State.reset with crc := 0x80 }) = true := by decide +kernel
/-- CY9 -/
theorem test_crcByte : nextIs (·.crc == 0xFE) (exec (.crcByte 0x34) { State.reset with crc := 0x12 }) = true := by decide +kernel
/-- CY7 -/
theorem test_crcByte_cancels :
    nextIs (·.crc == 0x00) (exec (.crcByte 0xFF) { State.reset with crc := 0xFF }) = true := by decide +kernel
/-- CS12, from a register that is not clear -/
theorem test_crcSeq_digits :
    nextIs (·.crc == 0xA1) (exec (.crcSeq [0x31, 0x32, 0x33, 0x34, 0x35, 0x36, 0x37, 0x38, 0x39])
      { State.reset with crc := 0x77 }) = true := by decide +kernel
/-- CS10 -/
theorem test_crcSeq_order : nextIs (·.crc == 0x2B) (exec (.crcSeq [0x03, 0x02, 0x01]) State.reset) = true := by decide +kernel
theorem test_crcClear : nextIs (·.crc == 0x00) (exec .crcClear { State.reset with crc := 0x5A }) = true := by decide +kernel
/-- CRC_READ after CS13 -/
theorem test_crcRead : (crcRead { State.reset with crc := 0x85 }).1 = 0x85 := by decide +kernel
theorem test_faInit :
    nextIs (fun t => t.buf.read 0 == some 0xD5) (exec .faInit { State.reset with buf := [] }) = true := by decide +kernel
theorem test_faPut_last :
    nextIs (fun t => t.buf == [(0, 0xD5), (34, 0xAB)]) (exec (.faPut 34 0xAB) State.reset) = true := by decide +kernel
theorem test_faPut_outside : faultOf (exec (.faPut 35 0xAB) State.reset) = some (.bufIndex 35) := by decide +kernel
/-- FA_SET_LEN with `L = 32` writes 0x21, with `L = 0` writes 0x01 (2.2). -/
theorem test_faSetLen_max :
    nextIs (fun t => t.buf.read 1 == some 0x21) (exec .faSetLen { State.reset with l := 32 }) = true := by decide +kernel
theorem test_faSetLen_zero :
    nextIs (fun t => t.buf.read 1 == some 0x01) (exec .faSetLen State.reset) = true := by decide +kernel
/-- FA_SEAL with `BUF[2..3] = 86 00`, `L = 1` writes `BUF[4] = 85` (2.2). -/
theorem test_faSeal :
    nextIs (fun t => t.buf.read 4 == some 0x85 && t.crc == 0x85)
      (exec .faSeal { State.reset with buf := [(0, 0xD5), (2, 0x86), (3, 0x00)], l := 1, crc := 0x33 }) = true := by decide +kernel
theorem test_faSeal_unwritten :
    faultOf (exec .faSeal { State.reset with buf := [(0, 0xD5), (2, 0x86)], l := 1 }) = some (.bufUnwritten 3) := by decide +kernel
/-- Q3's packet -/
theorem test_faEmit :
    nextIs (fun t => t.output == [0xD5, 0x01, 0x81, 0xD2] && t.outIdx == 4)
      (exec .faEmit { fresh [] (takes 4) with
        phase := .emit, buf := [(0, 0xD5), (1, 0x01), (2, 0x81), (3, 0xD2)] }) = true := by decide +kernel
/-- E16's sink: it refuses the third byte. -/
theorem test_faEmit_short :
    nextIs (fun t => t.output == [0xD5, 0x01] && t.errCode == .shortWrite && t.outIdx == 2)
      (exec .faEmit { fresh [] (takes 2 ++ [.refuse]) with
        phase := .emit, buf := [(0, 0xD5), (1, 0x01), (2, 0x81), (3, 0xD2)] }) = true := by decide +kernel
/-- Q10: the checksum equals the start byte and is sent as it is. -/
theorem test_frame :
    nextIs (fun t => t.output == [0xD5, 0x02, 0x86, 0x9F, 0xD5] && t.phase == .fetch)
      (exec (.frame 0x86 [0x9F]) (fresh [] (takes 5))) = true := by decide +kernel
theorem test_frame_too_long :
    faultOf (exec (.frame 0x86 (List.replicate 33 0x00)) State.reset) = some (.frameTooLong 33) := by decide +kernel
/-- P1's steps 2 to 7: length byte and checksum placed, five bytes out. -/
theorem test_seqEmit :
    nextIs (fun t => t.output == [0xD5, 0x02, 0x86, 0x00, 0x85] && t.phase == .fetch)
      (exec .seqEmit { fresh [] (takes 5) with
        phase := .body, l := 1, buf := [(0, 0xD5), (2, 0x86), (3, 0x00)] }) = true := by decide +kernel
/-- S2a -/
theorem test_changeTool :
    nextIs (fun t => t.output == [0xD5, 0x02, 0x86, 0x00, 0x85] && t.bytesConsumed == 1)
      (exec .changeTool (atCommand 0x86 [0x00] (takes 5))) = true := by decide +kernel
/-- E13, Q5 -/
theorem test_toolAction :
    nextIs (fun t => t.output == [0xD5, 0x04, 0x88, 0x00, 0x03, 0x00, 0x90] && t.curLength == 0)
      (exec .toolAction (atCommand 0x88 [0x00, 0x03, 0x00] (takes 7))) = true := by decide +kernel
/-- E8: `255 + 3` does not wrap. -/
theorem test_cmdEmbedded_over :
    nextIs (fun t => t.errCode == .internalTableInconsistency && t.curLength == 255 && t.l == 0)
      (exec (.cmdEmbedded 0x88) (atCommand 0x88 [0x00, 0x0A, 0xFF] [])) = true := by decide +kernel
/-- E5's header cut short, the source silent instead of ended -/
theorem test_cmdEmbedded_held :
    nextIs (fun t => t.phase == .header && t.rdRem == 1 && t.bytesConsumed == 2)
      (exec (.cmdEmbedded 0x88) (atCommand 0x88 [0x00, 0x0A] [])) = true := by decide +kernel
/-- E12: no body byte is read. -/
theorem test_cmdFixed_zero :
    nextIs (fun t => t.output == [0xD5, 0x01, 0x81, 0xD2] && t.bytesConsumed == 0)
      (exec (.cmdFixed 0x81 0) (atCommand 0x81 [0x77] (takes 4))) = true := by decide +kernel
/-- E11: the entry -1 -/
theorem test_cmdFixed_negative :
    nextIs (fun t => t.errCode == .internalTableInconsistency && t.curLength == -1)
      (exec (.cmdFixed 0xF1 (-1)) (atCommand 0xF1 [] [])) = true := by decide +kernel
/-- E2 -/
theorem test_cmdUnknown :
    nextIs (fun t => t.errorFlag && t.errCode.bits == 2 && t.curOpcode == 0x7F)
      (step (fresh [.byte 0x7F, .eos] [])) = true := by decide +kernel
/-- E1 -/
theorem test_opcode00 :
    nextIs (fun t => t.errorFlag && t.errCode.bits == 2 && t.input == [.eos])
      (step (fresh [.byte 0x00, .eos] [])) = true := by decide +kernel
/-- E0 -/
theorem test_seqEos : nextIs (fun t => t.doneFlag && t.output == []) (step (fresh [.eos] [])) = true := by decide +kernel
/-- E14 -/
theorem test_seqFetch_failure :
    nextIs (fun t => t.errCode.bits == 1 && t.ioErr == some 7 && t.bytesConsumed == 0)
      (exec .seqFetch (fresh [.err 7] [])) = true := by decide +kernel
/-- S2a, from the stream -/
theorem test_seqFetch_command :
    nextIs (fun t => t.output == [0xD5, 0x02, 0x86, 0x00, 0x85] && t.bytesConsumed == 2)
      (exec .seqFetch (fresh [.byte 0x86, .byte 0x00, .eos] (takes 5))) = true := by decide +kernel
/-- R42, with `COUNT_W` = 2: the fourth byte takes the counter from 3 to 0. -/
theorem test_count_wraps :
    nextIs (fun t => t.bytesConsumed == 0)
      (exec .seqFetch { fresh [.byte 0x81] [] with cfg := narrowCfg, bytesConsumed := 3 }) = true := by
  decide +kernel
/-- The ends of a 7-bit signed register: -64 to 63. -/
theorem test_fitsSigned :
    fitsSigned 7 63 ∧ ¬fitsSigned 7 64 ∧ fitsSigned 7 (-64) ∧ ¬fitsSigned 7 (-65) ∧ fitsSigned 32 255 := by
  decide
/-- A word placed for the fetch runs as the first instruction after reset. -/
theorem test_withFetchWord :
    nextIs (fun t => t.errorFlag && t.curOpcode == 0x7F) (step (State.reset.withFetchWord 8 0x7F)) = true := by decide +kernel
theorem test_reset_step :
    nextIs (fun t => t.phase == .fetch && t.errCode == .none && t.output == [0xD5])
      (step { fresh [] [] with phase := .error, errCode := .shortWrite, output := [0xD5], rst := [true] }) = true := by decide +kernel
theorem test_reset_memory : State.reset.buf.wf := by decide +kernel
/-- S2b's outcome has exit status 1, S2a's 0 (R141). -/
theorem test_exit_status :
    (fresh [] []).exitStatus = none ∧ State.exitStatus { fresh [] [] with phase := .done } = some 0 ∧
    State.exitStatus { fresh [] [] with phase := .error } = some 1 := by decide +kernel

/-! ### States that witness hypotheses -/

/-- A buffer whose listed indices are below 36 has no value from 36 on. -/
theorem inBounds_of {m : Memory} (h : m.all (fun x => x.1 < 36) = true) (a : Nat) (ha : bufSize ≤ a) :
    m.read a = none := by
  have ha : 36 ≤ a := ha
  induction m with
  | nil => rfl
  | cons x m ih =>
    simp only [List.all_cons, Bool.and_eq_true, decide_eq_true_eq] at h
    rw [Memory.read_cons, if_neg (by omega)]
    exact ih h.2

/-- Phase `HEADER` of `88`, one header byte in. -/
def inHeaderState : State :=
  { fresh [] [] with
    phase := .header, buf := [(0, 0xD5), (2, 0x88), (3, 0x00)], curOpcode := 0x88, rdIdx := 4, rdRem := 2 }

/-- The same, one header byte owed. -/
def lastHeaderState : State :=
  { fresh [] [] with
    phase := .header, buf := [(0, 0xD5), (2, 0x88), (3, 0x00), (4, 0x0A)], curOpcode := 0x88,
    rdIdx := 5, rdRem := 1 }

/-- Phase `BODY` of `85`, two body bytes owed. -/
def inBodyState : State :=
  { fresh [] [] with
    phase := .body, buf := [(0, 0xD5), (2, 0x85), (3, 0x01), (4, 0x02)], curOpcode := 0x85,
    l := 4, curLength := 4, rdIdx := 5, rdRem := 2 }

/-- The same, one owed. -/
def lastBodyState : State :=
  { fresh [] [] with
    phase := .body, buf := [(0, 0xD5), (2, 0x85), (3, 0x01), (4, 0x02), (5, 0x03)], curOpcode := 0x85,
    l := 4, curLength := 4, rdIdx := 6, rdRem := 1 }

/-- Phase `EMIT` of Q1's packet, `k` bytes out. -/
def inEmitState (k : Nat) : State :=
  { fresh [] [] with
    phase := .emit, buf := [(0, 0xD5), (1, 0x02), (2, 0x86), (3, 0x00), (4, 0x85)], curOpcode := 0x86,
    l := 1, curLength := 1, crc := 0x85, rdIdx := 4, outIdx := k }

theorem inHeaderState_inv : BlockInv inHeaderState :=
  ⟨by decide, inBounds_of (by decide), by decide, by decide, by decide, by decide, by decide, by decide,
    fun _ => ⟨by decide, by decide, by decide, by unfold Memory.writtenIn; decide, by decide, by decide,
      by decide⟩, by simp [inHeaderState], by simp [inHeaderState]⟩

theorem lastHeaderState_inv : BlockInv lastHeaderState :=
  ⟨by decide, inBounds_of (by decide), by decide, by decide, by decide, by decide, by decide, by decide,
    fun _ => ⟨by decide, by decide, by decide, by unfold Memory.writtenIn; decide, by decide, by decide,
      by decide⟩, by simp [lastHeaderState], by simp [lastHeaderState]⟩

theorem inBodyState_inv : BlockInv inBodyState :=
  ⟨by decide, inBounds_of (by decide), by decide, by decide, by decide, by decide, by decide, by decide, by simp [inBodyState],
    fun _ => ⟨by decide, by decide, by decide, by unfold Memory.writtenIn; decide, by decide,
      .inl ⟨4, by decide, by decide, by decide⟩⟩, by simp [inBodyState]⟩

theorem lastBodyState_inv : BlockInv lastBodyState :=
  ⟨by decide, inBounds_of (by decide), by decide, by decide, by decide, by decide, by decide, by decide, by simp [lastBodyState],
    fun _ => ⟨by decide, by decide, by decide, by unfold Memory.writtenIn; decide, by decide,
      .inl ⟨4, by decide, by decide, by decide⟩⟩, by simp [lastBodyState]⟩

theorem inEmitState_holds : Memory.holds [(0, 0xD5), (1, 0x02), (2, 0x86), (3, 0x00), (4, 0x85)] 0
    (frame 0x86 [0x00]) := by unfold Memory.holds; decide +kernel

theorem inEmitState_inv {k : Nat} (hk : k ≤ 4) : BlockInv (inEmitState k) :=
  ⟨by simp only [inEmitState]; decide, inBounds_of (by simp only [inEmitState]; decide),
    Nat.two_pow_pos 64, by simp only [inEmitState]; decide, rfl,
    by simp [inEmitState, fresh, State.start, State.reset],
    by simp [inEmitState, fresh, State.start, State.reset],
    ⟨by simp [inEmitState], by simp [inEmitState, fresh, State.start, State.reset],
      by simp [inEmitState]; omega⟩,
    by simp [inEmitState], by simp [inEmitState],
    fun _ => ⟨by simp [inEmitState]; omega, .inl ⟨1, by simp only [inEmitState]; decide, rfl, by simp only [inEmitState]; decide⟩,
      [0x00], rfl, inEmitState_holds⟩⟩

theorem fresh_inv (input : List InEvent) (answers : List OutAnswer) : BlockInv (fresh input answers) :=
  ⟨by simp only [fresh, State.start, State.reset]; decide,
    inBounds_of (by simp only [fresh, State.start, State.reset]; decide),
    Nat.two_pow_pos 64,
    by simp only [fresh, State.start, State.reset]; decide, rfl,
    by simp [fresh, State.start, State.reset], by simp [fresh, State.start, State.reset],
    ⟨Nat.zero_le _, Nat.zero_le _, Nat.zero_le _⟩,
    by simp [fresh, State.start, State.reset], by simp [fresh, State.start, State.reset],
    by simp [fresh, State.start, State.reset]⟩

/-! ### Witnesses: the hypotheses of each obligation, met together -/

theorem witness_CrcByteIsXorThenEightBits : State.reset.crc = 0x00 := rfl

theorem witness_CrcBitSerialFormAgrees : (0x5E : Byte) =
    crcSerialStep (crcSerialStep (crcSerialStep (crcSerialStep
      (crcSerialStep (crcSerialStep (crcSerialStep (crcSerialStep State.reset.crc
        ((0x01 : Byte).getLsbD 0)) ((0x01 : Byte).getLsbD 1)) ((0x01 : Byte).getLsbD 2))
          ((0x01 : Byte).getLsbD 3)) ((0x01 : Byte).getLsbD 4)) ((0x01 : Byte).getLsbD 5))
            ((0x01 : Byte).getLsbD 6)) ((0x01 : Byte).getLsbD 7) := by decide +kernel

theorem witness_OnlyFaInitWritesStartByte :
    (Instr.crcBit ≠ .faInit ∧ exec .crcBit State.reset = .next State.reset) ∧
    (fresh [] []).noReset ∧ step (fresh [] []) = .next { fresh [] [] with rdIdx := 2, rdRem := 1 } ∧
    State.rst { fresh [] [] with rst := [true] } = true :: [] :=
  ⟨⟨by decide, rfl⟩, by decide, rfl, rfl⟩

/-- Both clauses at the ends of their ranges: 2 and 34 inside, 1 and 35 outside. -/
theorem witness_FaPutStoresByteUnchanged :
    (2 ≤ 2 ∧ 2 ≤ 34) ∧ (2 ≤ 34 ∧ 34 ≤ 34) ∧ (1 < 2 ∨ 34 < 1) ∧ (35 < 2 ∨ 34 < 35) := by decide

/-- At `L = 1` and at `L = 0`. -/
theorem witness_FaSealStoresChecksum :
    ([0x86, 0x00] : List Byte).length = (inEmitState 0).l.val + 1 ∧ (inEmitState 0).buf.holds 2 [0x86, 0x00] ∧
    ([0x81] : List Byte).length = (atCommand 0x81 [] []).l.val + 1 ∧
    (atCommand 0x81 [] []).buf.holds 2 [0x81] :=
  ⟨rfl, by unfold Memory.holds; decide, rfl, by unfold Memory.holds; decide⟩

/-- The first and the last index of the range. -/
theorem witness_FaSealOfUnwrittenElementFaults :
    (2 ≤ 2 ∧ 2 ≤ 2 + State.reset.l.val ∧ State.reset.buf.writtenIn 2 2 ∧ State.reset.buf.read 2 = none) ∧
    (2 ≤ 3 ∧ 3 ≤ 2 + State.l { atCommand 0x86 [] [] with l := 1 } ∧
      (atCommand 0x86 [] []).buf.writtenIn 2 3 ∧ (atCommand 0x86 [] []).buf.read 3 = none) := by
  unfold Memory.writtenIn; decide

theorem witness_FaEmitSendsTheBufferWhole :
    State.phase { inEmitState 0 with answers := takes 5 } = .emit ∧
    (frame 0x86 [0x00]).length = (inEmitState 0).l.val + 4 ∧ (inEmitState 0).buf.holds 0 (frame 0x86 [0x00]) ∧
    takes 5 = List.replicate ((inEmitState 0).l.val + 4) .accept ++ [] :=
  ⟨rfl, rfl, inEmitState_holds, rfl⟩

/-- The first byte and the last, each way of stopping. -/
theorem witness_FaEmitStoppedLeavesPrefix :
    (inEmitState 0).phase = .emit ∧ (frame 0x86 [0x00]).length = (inEmitState 0).l.val + 4 ∧
    (inEmitState 0).buf.holds 0 (frame 0x86 [0x00]) ∧ 0 < (inEmitState 0).l.val + 4 ∧
    4 < (inEmitState 0).l.val + 4 ∧
    State.answers { inEmitState 0 with answers := [.refuse] } = List.replicate 0 .accept ++ .refuse :: [] ∧
    State.answers { inEmitState 0 with answers := takes 4 ++ [.err 7] } =
      List.replicate 4 .accept ++ .err 7 :: [] ∧
    State.answers { inEmitState 0 with answers := takes 4 ++ [.wait] } =
      List.replicate 4 .accept ++ .wait :: [] ∧
    (inEmitState 0).answers = List.replicate 0 .accept :=
  ⟨rfl, rfl, inEmitState_holds, by decide, by decide, rfl, rfl, rfl, rfl⟩

/-- An empty body, a body of 32 bytes, and one of 33. -/
theorem witness_FrameAppendsThePacket :
    (fresh [] (takes 36)).phase = .fetch ∧ (fresh [] (takes 36)).buf.read 0 = some startByte ∧
    ([] : List Byte).length = (0 : BodyLen).val ∧
    (fresh [] (takes 36)).answers = List.replicate ((0 : BodyLen).val + 4) .accept ++ takes 32 ∧
    (List.replicate 32 (0x00 : Byte)).length = (32 : BodyLen).val ∧
    (fresh [] (takes 36)).answers = List.replicate ((32 : BodyLen).val + 4) .accept ++ [] ∧
    32 < (List.replicate 33 (0x00 : Byte)).length :=
  ⟨rfl, rfl, rfl, rfl, by decide, by decide, by decide⟩

theorem witness_FrameProperties :
    ([] : List Byte).length ≤ 32 ∧ (List.replicate 32 (0x00 : Byte)).length ≤ 32 ∧
    frame 0x86 [0x00] = frame 0x86 [0x00] := by decide +kernel

theorem witness_StepRunsTheDecodedInstruction :
    (fresh [.byte 0x86, .byte 0x00] []).noReset ∧ (fresh [.byte 0x86, .byte 0x00] []).phase = .fetch ∧
    (fresh [.byte 0x86, .byte 0x00] []).input = .byte 0x86 :: [.byte 0x00] ∧
    (fresh [.eos] []).noReset ∧ (fresh [.eos] []).phase = .fetch ∧ (fresh [.eos] []).input = .eos :: [] := by
  decide

theorem witness_SeqFetchAnswersEachEvent :
    (fresh [.eos] []).phase = .fetch ∧ (fresh [.eos] []).input = .eos :: [] ∧
    (fresh [.err 7] []).input = .err 7 :: [] ∧ (fresh [.wait] []).input = .wait :: [] ∧
    (fresh [] []).input = [] ∧ (fresh [.byte 0x00] []).input = .byte 0x00 :: [] ∧
    (fresh [.byte 0x00] []).cfg.ruleOf 0x00 = none := by decide

theorem witness_DecodeEncodeAgree :
    Instr.wf testCfg (.cmdFixed 0x90 32) = true ∧
    encode testCfg (.cmdFixed 0x90 32) = some [.byte 0x90] ∧
    decodeByte testCfg 0x90 = .cmdFixed 0x90 32 ∧
    Instr.wf testCfg (.frame 0x81 []) = true ∧
    encodePacket (.frame 0x81 []) = some [0xD5, 0x01, 0x81, 0xD2] := by decide +kernel

theorem witness_DecodedIsWellFormedAndEncodesBack :
    decode testCfg [.byte 0x85, .eos] = .ok (.cmdFixed 0x85 4, [.eos]) ∧
    decodePacket [0xD5, 0x01, 0x81, 0xD2] = .ok (.frame 0x81 []) := ⟨rfl, rfl⟩

theorem witness_UnknownOpcodeIsFatal :
    (atCommand 0x7F [] []).phase = .fetch ∧ (atCommand 0x00 [] []).phase = .fetch := by decide

/-- CMD_FIXED with `n` 0 and 32, and CHANGE_TOOL. -/
theorem witness_FixedCommandEmitsItsPacket :
    (∃ (l : BodyLen) (body : List Byte), l.val = 0 ∧ (atCommand 0x81 [] (takes 4)).countInRange ∧
      fitsSigned testCfg.lenW l.val ∧ (atCommand 0x81 [] (takes 4)).phase = .fetch ∧
      (atCommand 0x81 [] (takes 4)).buf.read 0 = some startByte ∧
      (atCommand 0x81 [] (takes 4)).buf.read 2 = some 0x81 ∧ body.length = l.val ∧
      (atCommand 0x81 [] (takes 4)).input = body.map InEvent.byte ++ [] ∧
      (atCommand 0x81 [] (takes 4)).answers = List.replicate (l.val + 4) .accept ++ []) ∧
    (∃ l : BodyLen, l.val = 32 ∧ fitsSigned testCfg.lenW l.val ∧ (List.replicate 32 (0x11 : Byte)).length = l.val ∧
      (atCommand 0x90 (List.replicate 32 0x11) (takes 36)).input =
        (List.replicate 32 0x11).map InEvent.byte ++ [] ∧
      (atCommand 0x90 (List.replicate 32 0x11) (takes 36)).answers =
        List.replicate (l.val + 4) .accept ++ []) ∧
    (∃ l : BodyLen, Instr.changeTool = .changeTool ∧ l.val = 1 ∧ ([0x00] : List Byte).length = l.val ∧
      (atCommand 0x86 [0x00] (takes 5)).input = [0x00].map InEvent.byte ++ [] ∧
      (atCommand 0x86 [0x00] (takes 5)).answers = List.replicate (l.val + 4) .accept ++ []) :=
  ⟨⟨0, [], rfl, by decide, by decide, rfl, rfl, rfl, rfl, rfl, rfl⟩, ⟨32, rfl, by decide, by decide, by decide, by decide⟩,
    ⟨1, rfl, rfl, rfl, rfl, rfl⟩⟩

theorem witness_ChangeToolFromTheStream :
    (fresh [.byte 0x86, .byte 0x00] (takes 5)).noReset ∧
    (fresh [.byte 0x86, .byte 0x00] (takes 5)).phase = .fetch ∧
    (fresh [.byte 0x86, .byte 0x00] (takes 5)).buf.read 0 = some startByte ∧
    (fresh [.byte 0x86, .byte 0x00] (takes 5)).cfg.ruleOf 0x86 = some (.fixed 1) ∧
    (fresh [.byte 0x86, .byte 0x00] (takes 5)).input = .byte 0x86 :: .byte 0x00 :: [] ∧
    (fresh [.byte 0x86, .byte 0x00] (takes 5)).answers = List.replicate 5 .accept ++ [] ∧
    fitsSigned testCfg.lenW 1 := by decide

/-- The entries -1 and 33, the ends of the two ranges, which fit the register. -/
theorem witness_FixedLengthOutOfRangeIsFatal :
    (atCommand 0xF1 [] []).phase = .fetch ∧ ((-1 : Int) < 0 ∨ (32 : Int) < -1) ∧
    ((33 : Int) < 0 ∨ (32 : Int) < 33) ∧ fitsSigned testCfg.lenW (-1) ∧ fitsSigned testCfg.lenW 33 ∧
    fitsSigned testCfg.lenW (2 ^ 31 - 1) ∧ ¬fitsSigned testCfg.lenW (2 ^ 31) := by decide

/-- No byte of one, and 31 of 32. -/
theorem witness_FixedBodyCutShort :
    (atCommand 0x86 [] []).countInRange ∧ (atCommand 0x86 [] []).phase = .fetch ∧
    ([] : List Byte).length < (1 : BodyLen).val ∧ fitsSigned testCfg.lenW (32 : BodyLen).val ∧
    (List.replicate 31 (0x11 : Byte)).length < (32 : BodyLen).val ∧
    State.input { atCommand 0x86 [] [] with input := [.eos] } = ([] : List Byte).map InEvent.byte ++ .eos :: [] ∧
    State.input { atCommand 0x86 [] [] with input := [.err 7] } =
      ([] : List Byte).map InEvent.byte ++ .err 7 :: [] ∧
    State.input { atCommand 0x86 [] [] with input := [.wait] } =
      ([] : List Byte).map InEvent.byte ++ .wait :: [] ∧
    (atCommand 0x90 (List.replicate 31 0x11) []).input = (List.replicate 31 0x11).map InEvent.byte := by
  decide

/-- A count of 0 and a count of 29. -/
theorem witness_EmbeddedCommandEmitsItsPacket :
    (atCommand 0x88 [0x00, 0x03, 0x00] (takes 7)).phase = .fetch ∧
    (atCommand 0x88 [0x00, 0x03, 0x00] (takes 7)).buf.read 0 = some startByte ∧
    (atCommand 0x88 [0x00, 0x03, 0x00] (takes 7)).buf.read 2 = some 0x88 ∧
    (0x00 : Byte).toNat + 3 = (3 : BodyLen).val ∧ ([] : List Byte).length = (0x00 : Byte).toNat ∧
    (atCommand 0x88 [0x00, 0x03, 0x00] (takes 7)).input = [0x00, 0x03, 0x00].map InEvent.byte ++ [] ∧
    (atCommand 0x88 [0x00, 0x03, 0x00] (takes 7)).answers =
      List.replicate ((3 : BodyLen).val + 4) .accept ++ [] ∧
    (0x1D : Byte).toNat + 3 = (32 : BodyLen).val ∧
    (List.replicate 29 (0x11 : Byte)).length = (0x1D : Byte).toNat ∧
    fitsSigned testCfg.lenW (0x00 : Byte).toNat ∧ fitsSigned testCfg.lenW (0x1D : Byte).toNat := by decide

/-- A count of 30 and a count of 255. -/
theorem witness_EmbeddedCountOverCeilingIsFatal :
    (atCommand 0x88 [0x00, 0x0A, 0x1E] []).phase = .fetch ∧ 29 < (0x1E : Byte).toNat ∧
    (atCommand 0x88 [0x00, 0x0A, 0x1E] []).input = .byte 0x00 :: .byte 0x0A :: .byte 0x1E :: [] ∧
    29 < (0xFF : Byte).toNat ∧
    (atCommand 0x88 [0x00, 0x0A, 0xFF] []).input = .byte 0x00 :: .byte 0x0A :: .byte 0xFF :: [] ∧
    fitsSigned testCfg.lenW (0x1E : Byte).toNat ∧ fitsSigned testCfg.lenW (0xFF : Byte).toNat := by decide

theorem witness_EmbeddedHeaderCutShort :
    (atCommand 0x88 [0x00, 0x0A] []).countInRange ∧ (atCommand 0x88 [0x00, 0x0A] []).phase = .fetch ∧
    ([0x00, 0x0A] : List Byte).length < 3 ∧
    ([] : List Byte).length < 3 ∧
    State.input { atCommand 0x88 [] [] with input := [.eos] } = ([] : List Byte).map InEvent.byte ++ .eos :: [] ∧
    State.input { atCommand 0x88 [] [] with input := [.err 7] } =
      ([] : List Byte).map InEvent.byte ++ .err 7 :: [] ∧
    State.input { atCommand 0x88 [] [] with input := [.wait] } =
      ([] : List Byte).map InEvent.byte ++ .wait :: [] ∧
    (atCommand 0x88 [0x00, 0x0A] []).input = [0x00, 0x0A].map InEvent.byte := by decide

theorem witness_EmbeddedDataCutShort :
    (atCommand 0x88 [0x00, 0x0A, 0x02, 0xAA] []).phase = .fetch ∧
    (0x02 : Byte).toNat + 3 = (5 : BodyLen).val ∧ ([0xAA] : List Byte).length < (0x02 : Byte).toNat ∧
    (0x1D : Byte).toNat + 3 = (32 : BodyLen).val ∧ ([] : List Byte).length < (0x1D : Byte).toNat ∧
    (atCommand 0x88 [0x00, 0x0A, 0x02, 0xAA] []).input =
      [0x00, 0x0A, 0x02, 0xAA].map InEvent.byte ∧
    State.input { atCommand 0x88 [] [] with input := [.byte 0x00, .byte 0x0A, .byte 0x1D, .eos] } =
      [0x00, 0x0A, 0x1D].map InEvent.byte ++ .eos :: [] ∧
    State.input { atCommand 0x88 [] [] with input := [.byte 0x00, .byte 0x0A, .byte 0x1D, .err 7] } =
      [0x00, 0x0A, 0x1D].map InEvent.byte ++ .err 7 :: [] ∧
    State.input { atCommand 0x88 [] [] with input := [.byte 0x00, .byte 0x0A, .byte 0x1D, .wait] } =
      [0x00, 0x0A, 0x1D].map InEvent.byte ++ .wait :: [] := by decide

/-- Phase `BODY` with Q1's opcode and body in the buffer. -/
def bodyReadState : State :=
  { fresh [] (takes 5) with phase := .body, l := 1, buf := [(0, 0xD5), (2, 0x86), (3, 0x00)] }

theorem witness_SeqEmitSealsAndSends :
    bodyReadState.phase = .body ∧ bodyReadState.buf.read 0 = some startByte ∧
    ([0x00] : List Byte).length = bodyReadState.l.val ∧ bodyReadState.buf.holds 2 [0x86, 0x00] ∧
    bodyReadState.answers = List.replicate (bodyReadState.l.val + 4) .accept ++ [] :=
  ⟨rfl, rfl, rfl, by unfold Memory.holds; decide, rfl⟩

/-- The first byte and the last, each way of stopping; the other premises are the witness's above. -/
theorem witness_SeqEmitStoppedLeavesPrefix :
    0 < bodyReadState.l.val + 4 ∧ 4 < bodyReadState.l.val + 4 ∧
    State.answers { bodyReadState with answers := [.refuse] } = List.replicate 0 .accept ++ .refuse :: [] ∧
    State.answers { bodyReadState with answers := takes 4 ++ [.err 7] } =
      List.replicate 4 .accept ++ .err 7 :: [] ∧
    State.answers { bodyReadState with answers := takes 4 ++ [.wait] } =
      List.replicate 4 .accept ++ .wait :: [] ∧
    State.answers { bodyReadState with answers := takes 4 } = List.replicate 4 .accept := by decide

theorem witness_EndOfStreamAtBoundaryIsClean :
    (fresh [.eos] []).phase = .fetch ∧ (fresh [.eos] []).noReset ∧ (fresh [.eos] []).input = .eos :: [] := by
  decide

theorem witness_TerminalPhasesAreAbsorbing :
    (State.phase { fresh [] [] with phase := .done }).terminal = true ∧
    (State.phase { fresh [] [] with phase := .error }).terminal = true ∧ (fresh [] []).noReset ∧
    (fresh [] []).rst = [] ∧
    State.rst { fresh [] [] with phase := .error, rst := [true] } = true :: [] := by decide

theorem witness_OperationsOffTheirPhaseAreRefused :
    (inEmitState 0).phase.terminal = false ∧ (inEmitState 0).phase ≠ .fetch ∧ (inEmitState 0).phase ≠ .body ∧
    (fresh [] []).phase.terminal = false ∧ (fresh [] []).phase ≠ .emit ∧
    (State.phase { fresh [] [] with phase := .done }).terminal = true := by decide

theorem witness_ResetGivesTheResetState :
    State.rst { inEmitState 2 with rst := [true, false] } = true :: [false] ∧
    step { fresh [] [] with rst := [true] } = .next (fresh [] []) ∧ (fresh [] []).noReset :=
  ⟨rfl, rfl, by decide⟩

theorem witness_StepKeepsTheInvariant :
    BlockInv inBodyState ∧ step inBodyState = .next inBodyState := ⟨inBodyState_inv, rfl⟩

/-- A state that goes on, one whose source is ill formed and one whose sink is. -/
theorem witness_StepNeverFaults :
    BlockInv (fresh [.eos] []) ∧ BlockInv (fresh [.clash] []) ∧ BlockInv (inEmitState 4) :=
  ⟨fresh_inv _ _, fresh_inv _ _, inEmitState_inv (by decide)⟩

theorem witness_TableIsNeverWritten :
    exec .crcRead State.reset = .next State.reset ∧ step inBodyState = .next inBodyState := ⟨rfl, rfl⟩

theorem witness_OutputOnlyGrows : step inBodyState = .next inBodyState := rfl

theorem witness_ConsumedCountMatchesInput :
    (fresh [.byte 0x85] []).countInRange ∧ (fresh [.byte 0x85] []).noReset ∧ nextIs (fun _ => true) (step (fresh [.byte 0x85] [])) = true := by
  decide +kernel

theorem witness_NoInputTakenWhileEmitting :
    (inEmitState 2).noReset ∧ (inEmitState 2).phase = .emit ∧
    step (inEmitState 2) = .next (inEmitState 2) ∧
    (State.phase { fresh [] [] with phase := .done }).terminal = true ∧
    step { fresh [] [] with phase := .done } = .next { fresh [] [] with phase := .done } :=
  ⟨by decide, rfl, by rfl, by decide, by rfl⟩

/-- E3, E7's count, E1, E14, E16 and E17: a step into each class the statement speaks of, IoFailure from
either side. -/
theorem witness_PartialPacketsOnlyFromWrites :
    (∀ i a, BlockInv (fresh i a)) ∧ (fresh [] []).noReset ∧ (fresh [] []).phase ≠ .error ∧
    nextIs (fun t => t.phase == .error && t.errCode == .truncatedInput)
      (step (fresh [.byte 0x86, .eos] [])) = true ∧
    nextIs (fun t => t.phase == .error && t.errCode == .internalTableInconsistency)
      (step (fresh [.byte 0x88, .byte 0x00, .byte 0x0A, .byte 0x1E] [])) = true ∧
    nextIs (fun t => t.phase == .error && t.errCode == .unknownOpcode) (step (fresh [.byte 0x00] [])) = true ∧
    nextIs (fun t => t.phase == .error && t.errCode == .shortWrite)
      (step (fresh [.byte 0x86, .byte 0x00] [.accept, .accept, .refuse])) = true ∧
    nextIs (fun t => t.phase == .error && t.errCode == .ioFailure && t.input == [])
      (step (fresh [.err 7] [])) = true ∧
    nextIs (fun t => t.phase == .error && t.errCode == .ioFailure && t.answers == [])
      (step (fresh [.byte 0x86, .byte 0x00] [.err 7])) = true :=
  ⟨fresh_inv, by decide, by decide, by decide +kernel, by decide +kernel, by decide +kernel,
    by decide +kernel, by decide +kernel, by decide +kernel⟩

/-- Each rule of the table: unknown, out of range, 0, in range, embedded. -/
theorem witness_PhaseGraphFromFetch :
    BlockInv (fresh [.byte 0x81] []) ∧ (fresh [.byte 0x81] []).noReset ∧
    (fresh [.byte 0x81] []).phase = .fetch ∧ (fresh [.byte 0x81] []).answers = [] ∧
    (fresh [.byte 0x81] []).input = [.byte 0x81] ∧ InEvent.byte 0x81 ≠ .clash ∧
    testCfg.ruleOf 0x00 = none ∧ badCfg.ruleOf 0xF0 = some (.fixed 33) ∧ badCfg.ruleOf 0xF1 = some (.fixed (-1)) ∧
    testCfg.ruleOf 0x81 = some (.fixed 0) ∧ testCfg.ruleOf 0x86 = some (.fixed 1) ∧
    testCfg.ruleOf 0x90 = some (.fixed 32) ∧ testCfg.ruleOf 0x88 = some .embedded :=
  ⟨fresh_inv _ _, by decide, rfl, rfl, rfl, by decide, by decide, by decide, by decide, by decide, by decide,
    by decide, by decide⟩

/-- Two header bytes owed, and one; the counts where the clauses meet. -/
theorem witness_PhaseGraphFromHeader :
    BlockInv inHeaderState ∧ inHeaderState.noReset ∧ inHeaderState.phase = .header ∧
    inHeaderState.answers = [] ∧ 1 < inHeaderState.rdRem ∧
    BlockInv lastHeaderState ∧ lastHeaderState.rdRem = 1 ∧
    State.input { lastHeaderState with input := [.byte 0x1E] } = [.byte 0x1E] ∧ 29 < (0x1E : Byte).toNat ∧
    1 ≤ (0x1D : Byte).toNat ∧ (0x1D : Byte).toNat ≤ 29 ∧ 1 ≤ (0x01 : Byte).toNat ∧
    ¬1 ≤ (0x00 : Byte).toNat ∧ fitsSigned lastHeaderState.cfg.lenW (0x1E : Byte).toNat :=
  ⟨inHeaderState_inv, by decide, rfl, rfl, by decide, lastHeaderState_inv, rfl, rfl, by decide, by decide,
    by decide, by decide, by decide, by decide⟩

theorem witness_PhaseGraphFromBody :
    BlockInv inBodyState ∧ inBodyState.noReset ∧ inBodyState.phase = .body ∧ inBodyState.answers = [] ∧
    1 < inBodyState.rdRem ∧ BlockInv lastBodyState ∧ lastBodyState.rdRem = 1 ∧
    State.input { lastBodyState with input := [.byte 0x04] } = [.byte 0x04] :=
  ⟨inBodyState_inv, by decide, rfl, rfl, by decide, lastBodyState_inv, rfl, rfl⟩

/-- The last byte of the packet, and the one before. -/
theorem witness_PhaseGraphFromEmit :
    BlockInv (inEmitState 3) ∧ BlockInv (inEmitState 4) ∧ (inEmitState 4).noReset ∧
    (inEmitState 4).phase = .emit ∧ State.answers { inEmitState 4 with answers := [.accept] } = [.accept] ∧
    OutAnswer.accept ≠ .clash ∧ (inEmitState 3).outIdx < (inEmitState 3).l.val + 3 ∧
    (inEmitState 4).outIdx = (inEmitState 4).l.val + 3 :=
  ⟨inEmitState_inv (by decide), inEmitState_inv (by decide), by decide, rfl, rfl, by decide, by decide, rfl⟩

theorem witness_HeldStepKeepsTheState :
    BlockInv (fresh [] []) ∧ (fresh [] []).noReset ∧ (fresh [] []).phase = .fetch ∧ (fresh [] []).input = [] ∧
    BlockInv (fresh [.wait] []) ∧ (fresh [.wait] []).input = .wait :: [] ∧
    BlockInv inHeaderState ∧ inHeaderState.phase = .header ∧ inHeaderState.input = [] ∧
    BlockInv inBodyState ∧ inBodyState.phase = .body ∧ inBodyState.input = [] ∧
    State.input { inBodyState with input := [.wait] } = .wait :: [] ∧
    BlockInv (inEmitState 2) ∧ (inEmitState 2).phase = .emit ∧ (inEmitState 2).answers = [] ∧
    State.answers { inEmitState 2 with answers := [.wait] } = .wait :: [] :=
  ⟨fresh_inv _ _, by decide, rfl, rfl, fresh_inv _ _, rfl, inHeaderState_inv, rfl, rfl, inBodyState_inv, rfl, rfl,
    rfl, inEmitState_inv (by decide), rfl, rfl, rfl⟩

theorem witness_IllFormedEnvironmentIsRefused :
    BlockInv (fresh [.clash] []) ∧ (fresh [.clash] []).noReset ∧ (fresh [.clash] []).phase = .fetch ∧
    (fresh [.clash] []).input = .clash :: [] ∧
    BlockInv (inEmitState 2) ∧ (inEmitState 2).noReset ∧ (inEmitState 2).phase = .emit ∧
    State.answers { inEmitState 2 with answers := [.clash] } = .clash :: [] :=
  ⟨fresh_inv _ _, by decide, rfl, rfl, inEmitState_inv (by decide), by decide, rfl, rfl⟩

theorem witness_OfferedByteIsThePacketByte :
    BlockInv (inEmitState 4) ∧ (inEmitState 4).phase = .emit ∧ (inEmitState 4).outLast = true :=
  ⟨inEmitState_inv (by decide), rfl, by decide⟩

/-- Two boundaries that differ in `CRC`, `L`, a working index and stale buffer bytes. -/
def staleState : State :=
  { fresh [] [] with buf := [(0, 0xD5), (2, 0x86), (3, 0x55), (35, 0x01)], crc := 0x77, l := 9, outIdx := 13 }

theorem witness_StaleStateNeverShows :
    BlockInv (fresh [] []) ∧ BlockInv staleState ∧ (fresh [] []).phase = .fetch ∧
    (fresh [] []).visible = staleState.visible ∧ (fresh [] []).cfg = staleState.cfg ∧
    fresh [] [] ≠ staleState ∧
    Host.Core.run core 1 (fresh [] []) = .next { fresh [] [] with rdIdx := 2, rdRem := 1 } :=
  ⟨fresh_inv _ _,
    ⟨by decide, inBounds_of (by decide), by decide, by decide, rfl, by decide, by decide, by decide, by simp [staleState, fresh, State.start, State.reset],
      by simp [staleState, fresh, State.start, State.reset], by simp [staleState, fresh, State.start, State.reset]⟩,
    rfl, rfl, rfl, by decide, rfl⟩

/-- The same rules under other names, and another `OP_TOOL_ACTION`. -/
theorem witness_OnlyTheLengthRulesMatter :
    (∀ o, Config.ruleOf ⟨[(0x88, .known "OTHER" .embedded)], 0x01, 64, 32⟩ o =
      (State.cfg { fresh [] [] with cfg := ⟨[(0x88, .known "TOOL_ACTION" .embedded)], 0x88, 64, 32⟩ }).ruleOf o) ∧
    nextIs (fun _ => true)
      (step { fresh [] [] with cfg := ⟨[(0x88, .known "TOOL_ACTION" .embedded)], 0x88, 64, 32⟩ }) = true :=
  ⟨fun o => by simp only [Config.ruleOf, OpTable.lookup]; split <;> rfl, by decide⟩

theorem witness_FlagsAndErrorCodes : BlockInv (fresh [] []) := fresh_inv _ _

/-- S2a's input, with a wait before the body byte. -/
def waitingInput : List InEvent := [.byte 0x86, .wait, .byte 0x00, .eos]

/-- A sink that takes two bytes, waits, and goes on with `r`. -/
def waitingSink (r : List OutAnswer) : List OutAnswer := takes 2 ++ .wait :: r

/-- S2a and S2b: the run of the whole-run function, and bounds on the sink and the steps. -/
theorem witness_WholeRunIsTheReframing :
    waitingInput.filter (· ≠ .wait) = [0x86, 0x00].map InEvent.byte ++ [Terminator.eos.event] ∧
    (waitingSink (takes 3)).filter (· ≠ .wait) = List.replicate 5 .accept ∧
    (reframeAll testCfg .eos [0x86, 0x00]).output.length ≤ 5 ∧
    waitingInput.length + (waitingSink (takes 3)).count .wait ≤ 5 ∧
    (reframeAll testCfg .eos [0x86, 0x00]).errCode = .none ∧
    (reframeAll testCfg .eos [0x86, 0x00, 0x00, 0x02]).errCode = .unknownOpcode ∧
    (reframeAll testCfg .eos [0x86, 0x00, 0x00, 0x02]).bytes = 3 := by decide +kernel

theorem witness_StoppedSinkLeavesPrefixOfTheRun :
    waitingInput.filter (· ≠ .wait) = [0x86, 0x00].map InEvent.byte ++ [Terminator.eos.event] ∧
    2 < (reframeAll testCfg .eos [0x86, 0x00]).output.length ∧
    (waitingSink [.refuse]).filter (· ≠ .wait) = List.replicate 2 .accept ++ [.refuse] ∧
    (waitingSink [.err 7]).filter (· ≠ .wait) = List.replicate 2 .accept ++ [.err 7] ∧
    waitingInput.length + (waitingSink [.refuse]).count .wait ≤ 5 ∧
    waitingInput.length + (waitingSink [.err 7]).count .wait ≤ 5 := by decide +kernel

/-- E1's command, with a wait in each list and without: the run that waits is held twice on its way. -/
theorem witness_WaitsDoNotShow :
    (fresh [.wait, .eos] [.wait]).rst = [] ∧
    (fresh [.wait, .eos] [.wait]).withoutWaits = (fresh [.eos] []).withoutWaits ∧
    fresh [.wait, .eos] [.wait] ≠ fresh [.eos] [] ∧
    nextIs (fun t => t.phase == .done) (Host.Core.run core 2 (fresh [.wait, .eos] [.wait])) = true ∧
    nextIs (fun t => t.phase == .done)
      (Host.Core.run core (2 + (fresh [.eos] []).waits) (fresh [.eos] [])) = true := by
  decide +kernel

/-- One command of each format, P2's first two. -/
theorem witness_CleanRunEmitsOnePacketPerCommand :
    (∀ x ∈ ([(0x81, []), (0x88, [0x00, 0x0A, 0x02, 0xAA, 0x55])] : List (Byte × List Byte)),
      testCfg.ruleOf x.1 = some (.fixed x.2.length) ∧ x.2.length ≤ 32 ∨
      testCfg.ruleOf x.1 = some .embedded ∧ ∃ h0 h1 n : Byte, ∃ data : List Byte,
        x.2 = h0 :: h1 :: n :: data ∧ data.length = n.toNat ∧ n.toNat ≤ 29) ∧
    (([(0x81, []), (0x88, [0x00, 0x0A, 0x02, 0xAA, 0x55])] : List (Byte × List Byte)).flatMap
      fun x => x.1 :: x.2).length + 3 * 2 ≤ 13 ∧
    ([.byte 0x81, .wait, .byte 0x88, .byte 0x00, .byte 0x0A, .byte 0x02, .byte 0xAA, .wait, .byte 0x55, .eos] :
      List InEvent).filter (· ≠ .wait) =
      (([(0x81, []), (0x88, [0x00, 0x0A, 0x02, 0xAA, 0x55])] : List (Byte × List Byte)).flatMap
        fun x => x.1 :: x.2).map InEvent.byte ++ [.eos] ∧
    (takes 13).filter (· ≠ .wait) = List.replicate 13 .accept ∧ 2 + 1 + 2 + 0 ≤ 5 := by
  refine ⟨?_, by decide, by decide, by decide, by decide⟩
  intro x hx
  simp only [List.mem_cons, List.not_mem_nil, or_false] at hx
  rcases hx with rfl | rfl
  · exact .inl ⟨by decide, by decide⟩
  · exact .inr ⟨by decide, 0x00, 0x0A, 0x02, [0xAA, 0x55], rfl, by decide, by decide⟩

end Sys2Proof.Tests
end

section
/-! Holds (R8, R164): with nothing from the source in a read, or nothing from the sink in a write, the
block stays where it is. -/

namespace Sys2Proof.Machine

/-! ### The stream primitives on a hold -/

/-- An `InRead` that still owes a byte looks at the source (R42). -/
theorem inResume_asks {s : State} (hrem : 1 ≤ s.rdRem) : ∃ k, inResume s = inLoop (k + 1) s := by
  obtain ⟨k, hk⟩ := Nat.exists_eq_add_of_le' hrem
  exact ⟨k, by rw [inResume, hk]⟩

/-- It is held where the events have ended (R42). -/
theorem inResume_end {s : State} (hrem : 1 ≤ s.rdRem) (hin : s.input = []) : inResume s = .held s := by
  obtain ⟨k, hk⟩ := inResume_asks hrem
  exact hk.trans (inLoop_end hin)

/-- It is held by a wait, which is used up (R42, log 2). -/
theorem inResume_wait {s : State} {r : List InEvent} (hrem : 1 ≤ s.rdRem) (hin : s.input = .wait :: r) :
    inResume s = .held { s with input := r } := by
  obtain ⟨k, hk⟩ := inResume_asks hrem
  exact hk.trans (inLoop_wait hin)

theorem outLoop_end {b : Byte} {bs : List Byte} {s : State} (ha : s.answers = []) :
    outLoop (b :: bs) s = .held s := by simp [outLoop, ha]

theorem outLoop_wait {b : Byte} {bs : List Byte} {s : State} {r : List OutAnswer}
    (ha : s.answers = .wait :: r) : outLoop (b :: bs) s = .held { s with answers := r } := by
  simp [outLoop, ha]

/-! ### What the invariant says of a phase that can be held -/

/-- The reset line is no part of the invariant. -/
theorem BlockInv.withRst {s : State} (h : BlockInv s) (r : List Bool) : BlockInv { s with rst := r } where
  canonical := h.canonical
  inBounds := h.inBounds
  countInRange := h.countInRange
  lengthInRange := h.lengthInRange
  startByteHeld := h.startByteHeld
  codeIffError := h.codeIffError
  ioErrIff := h.ioErrIff
  indices := h.indices
  inHeader := h.inHeader
  inBody := h.inBody
  inEmit := h.inEmit

/-- In `HEADER` and `BODY` the read still owes a byte (R14). -/
theorem BlockInv.byteOwed {s : State} (h : BlockInv s) (hp : s.phase = .header ∨ s.phase = .body) :
    1 ≤ s.rdRem :=
  hp.elim (fun hp => (h.inHeader hp).1) fun hp => (h.inBody hp).1

/-- In `EMIT` a byte is still to be offered (R34, R44). -/
theorem BlockInv.outResume_offers {s : State} (h : BlockInv s) (hp : s.phase = .emit) :
    ∃ b bs, outResume s = outLoop (b :: bs) s := by
  obtain ⟨hidx, -, body, hlen, hholds⟩ := h.inEmit hp
  have hl : (frame s.curOpcode body).length = s.l.val + 4 := by rw [frame_length, hlen]
  exact ⟨_, _, by rw [outResume_eq hholds hl, List.drop_eq_getElem_cons (by omega)]⟩

/-! ### A phase whose stream primitive is held -/

/-- A held read of a command in progress is the whole step (R164). -/
theorem advance_inHeld {s t : State} (hp : s.phase = .header ∨ s.phase = .body)
    (h : inResume s = .held t) : advance s = .next t := by
  rcases hp with hp | hp
  · simp [advance_header hp, headerPhase, h]
  · simp [advance_body hp, bodyPhase, h]

/-- A held write is the whole step (R164). -/
theorem advance_outHeld {s t : State} (hp : s.phase = .emit) (h : outResume s = .held t) :
    advance s = .next t := by
  simp [advance_emit hp, emitPhase, h]

/-! ### Holds from the invariant's states -/

theorem advance_fetch_end {s : State} (hp : s.phase = .fetch) (hin : s.input = []) :
    advance s = .next { s with rdIdx := 2, rdRem := 1 } := by
  rw [advance_fetch hp, fetchCommand_end hin]

theorem advance_fetch_wait {s : State} {r : List InEvent} (hp : s.phase = .fetch)
    (hin : s.input = .wait :: r) : advance s = .next { s with input := r, rdIdx := 2, rdRem := 1 } := by
  rw [advance_fetch hp, fetchCommand_wait hin]

theorem BlockInv.advance_emit_end {s : State} (h : BlockInv s) (hp : s.phase = .emit)
    (ha : s.answers = []) : advance s = .next s := by
  obtain ⟨b, bs, ho⟩ := h.outResume_offers hp
  exact advance_outHeld hp (ho.trans (outLoop_end ha))

theorem BlockInv.advance_emit_wait {s : State} {r : List OutAnswer} (h : BlockInv s)
    (hp : s.phase = .emit) (ha : s.answers = .wait :: r) :
    advance s = .next { s with answers := r } := by
  obtain ⟨b, bs, ho⟩ := h.outResume_offers hp
  exact advance_outHeld hp (ho.trans (outLoop_wait ha))

/-- Settles O49: without a reset a step is `advance` on the state with one sample of `rst` used up, and
each phase's read or write is held there, a byte being owed or to be offered by the invariant. -/
theorem heldStepKeepsTheState : Obligations.HeldStepKeepsTheState := by
  intro s hinv hrst
  rw [step_noReset hrst]
  have hinv' : BlockInv { s with rst := s.rst.tail } := hinv.withRst _
  refine ⟨fun hp => ⟨fun hin => ?_, fun r hin => ?_⟩, fun hp => ⟨fun hin => ?_, fun r hin => ?_⟩,
    fun hp => ⟨fun ha => ?_, fun r ha => ?_⟩⟩
  · exact advance_fetch_end hp hin
  · exact advance_fetch_wait hp hin
  · exact advance_inHeld hp (inResume_end (hinv'.byteOwed hp) hin)
  · exact advance_inHeld hp (inResume_wait (hinv'.byteOwed hp) hin)
  · exact hinv'.advance_emit_end hp ha
  · exact hinv'.advance_emit_wait hp ha

end Sys2Proof.Machine
end

section
/-! The block's invariant over a step (R11 to R21, R26, R34, R94): each phase's work is followed through
the states inside a step, in which a read may owe no byte any more, and ends in a state of the invariant or
in the refusal of an ill-formed environment. -/

namespace Sys2Proof.Machine

/-! ### What holds between the phases' ends -/

/-- What the invariant says, whatever command is in progress, of a block that has not failed. -/
structure Healthy (s : State) : Prop where
  canonical : s.buf.wf
  inBounds : ∀ a, bufSize ≤ a → s.buf.read a = none
  countInRange : s.countInRange
  lengthInRange : fitsSigned s.cfg.lenW s.curLength
  startByteHeld : s.buf.read 0 = some startByte
  noCode : s.errCode = .none
  noIoErr : s.ioErr = none
  indices : s.rdIdx ≤ 35 ∧ s.rdRem ≤ 32 ∧ s.outIdx ≤ 36

/-- The bytes `got` of the command in progress stand in the buffer after its opcode, and the next one goes
behind them (R36, R42). -/
structure Reading (s : State) (got : List Byte) : Prop extends Healthy s where
  holds : s.buf.holds 2 (s.curOpcode :: got)
  next : s.rdIdx = 3 + got.length

theorem BlockInv.healthy {s : State} (h : BlockInv s) (hp : s.phase ≠ .error) : Healthy s where
  canonical := h.canonical
  inBounds := h.inBounds
  countInRange := h.countInRange
  lengthInRange := h.lengthInRange
  startByteHeld := h.startByteHeld
  noCode := h.codeIffError.2 hp
  noIoErr := by
    have hio : ¬s.ioErr.isSome = true := fun hs => by
      have := h.ioErrIff.1 hs
      rw [h.codeIffError.2 hp] at this; cases this
    simpa using hio
  indices := h.indices

/-- The invariant of a running block, from its parts. -/
theorem Healthy.blockInv {s : State} (h : Healthy s) (hp : s.phase ≠ .error)
    (inHeader : s.phase = .header →
      1 ≤ s.rdRem ∧ 3 ≤ s.rdIdx ∧ s.rdIdx + s.rdRem = 6 ∧ s.buf.writtenIn 2 s.rdIdx ∧
      s.buf.read 2 = some s.curOpcode ∧ s.cfg.ruleOf s.curOpcode = some .embedded ∧ s.curLength = 0)
    (inBody : s.phase = .body →
      1 ≤ s.rdRem ∧ 3 ≤ s.rdIdx ∧ s.rdIdx + s.rdRem = 3 + s.l.val ∧ s.buf.writtenIn 2 s.rdIdx ∧
      s.buf.read 2 = some s.curOpcode ∧ s.lengthResolved)
    (inEmit : s.phase = .emit →
      s.outIdx < s.l.val + 4 ∧ s.lengthResolved ∧
      ∃ body : List Byte, body.length = s.l.val ∧ s.buf.holds 0 (frame s.curOpcode body)) :
    BlockInv s where
  canonical := h.canonical
  inBounds := h.inBounds
  countInRange := h.countInRange
  lengthInRange := h.lengthInRange
  startByteHeld := h.startByteHeld
  codeIffError := by simp [h.noCode, hp]
  ioErrIff := by simp [h.noCode, h.noIoErr]
  indices := h.indices
  inHeader := inHeader
  inBody := inBody
  inEmit := inEmit

/-- At a command boundary, and once the run is done, no command is in progress. -/
theorem Healthy.blockInv_idle {s : State} (h : Healthy s) (hp : s.phase = .fetch ∨ s.phase = .done) :
    BlockInv s := by
  refine h.blockInv ?_ ?_ ?_ ?_ <;> rcases hp with hp | hp <;> simp [hp]

/-- Error entry from any running state gives an error state of the invariant (R17, R21, R152). -/
theorem Healthy.failed {s : State} (h : Healthy s) (x : ErrClass) : BlockInv (raiseError x s) where
  canonical := h.canonical
  inBounds := h.inBounds
  countInRange := h.countInRange
  lengthInRange := h.lengthInRange
  startByteHeld := h.startByteHeld
  codeIffError := by cases x <;> simp [ErrClass.code]
  ioErrIff := by cases x <;> simp [ErrClass.code, ErrClass.ioErrAfter, h.noIoErr]
  indices := h.indices
  inHeader := fun hp => by cases hp
  inBody := fun hp => by cases hp
  inEmit := fun hp => by cases hp

/-- A reset gives a state of the invariant from every state (R170). -/
theorem blockInv_applyReset (s : State) : BlockInv (applyReset s) :=
  Healthy.blockInv_idle
    { canonical := by simp
      inBounds := fun a ha => by
        have : a ≠ 0 := by simp only [bufSize] at ha; omega
        simp [Memory.read_cons, this]
      countInRange := Nat.two_pow_pos _
      lengthInRange := fitsSigned_zero _
      startByteHeld := rfl
      noCode := rfl
      noIoErr := rfl
      indices := ⟨Nat.zero_le _, Nat.zero_le _, Nat.zero_le _⟩ } (.inl rfl)

/-! ### The changes of a running block -/

/-- A write inside the buffer, off its start byte. -/
theorem Healthy.writeBuf {s : State} (h : Healthy s) {i : Nat} (b : Byte) (h1 : 1 ≤ i) (h36 : i < 36) :
    Healthy { s with buf := s.buf.write i b } :=
  { h with
    canonical := Memory.wf_write h.canonical i b
    inBounds := fun a ha =>
      (Memory.read_write_other _ _ (by simp only [bufSize] at ha; omega)).trans (h.inBounds a ha)
    startByteHeld := (Memory.read_write_other _ _ (by omega)).trans h.startByteHeld }

theorem Healthy.writeAll {s : State} (h : Healthy s) {i : Nat} (bs : List Byte) (h1 : 1 ≤ i)
    (h36 : i + bs.length ≤ 36) : Healthy { s with buf := s.buf.writeAll i bs } :=
  { h with
    canonical := Memory.wf_writeAll h.canonical i bs
    inBounds := fun a ha =>
      (Memory.read_writeAll_other _ _ _ (.inr (by simp only [bufSize] at ha; omega))).trans (h.inBounds a ha)
    startByteHeld := (Memory.read_writeAll_other _ _ _ (.inl (by omega))).trans h.startByteHeld }

/-- FA_SET_LEN and FA_SEAL on a body (R93, R96). -/
theorem Healthy.sealedBuf {s : State} (h : Healthy s) (o : Byte) {body : List Byte}
    (hl : body.length ≤ 32) : Healthy { s with buf := sealedBuf s.buf o body } :=
  (h.writeBuf _ (Nat.le_refl 1) (by omega)).writeBuf _ (by omega) (by omega)

/-- Any length, as `CUR_LENGTH` can hold it (R20). -/
theorem Healthy.withCurLength {s : State} (h : Healthy s) (n : Int) :
    Healthy { s with curLength := lengthReg s.cfg.lenW n } :=
  { h with lengthInRange := fitsSigned_lengthReg _ _ }

theorem Healthy.fetch {s : State} (h : Healthy s) (o : Byte) (r : List InEvent) :
    Healthy (fetched o r s) :=
  { h.writeBuf (i := 2) o (by omega) (by omega) with
    countInRange := Nat.mod_lt _ (Nat.two_pow_pos _)
    lengthInRange := fitsSigned_zero _
    indices := ⟨by simp, by simp, h.indices.2.2⟩ }

/-- The accepted opcode byte is in the buffer, and nothing behind it (R111). -/
theorem Healthy.reading_fetched {s : State} (h : Healthy s) (o : Byte) (r : List InEvent) :
    Reading (fetched o r s) [] :=
  { h.fetch o r with
    holds := by simp [Memory.holds_cons]
    next := rfl }

/-- The bytes that arrive come behind those in the buffer (R42). -/
theorem Reading.receive {s : State} {got bs : List Byte} (h : Reading s got) (r : List InEvent)
    (hl : got.length + bs.length ≤ 32) : Reading (received bs r s) (got ++ bs) :=
  have hidx : s.rdIdx = 3 + got.length := h.next
  { h.toHealthy.writeAll (i := s.rdIdx) bs (by omega) (by omega) with
    countInRange := countAfter_lt h.countInRange _
    indices := ⟨by simp; omega, by have := h.indices.2.1; simp; omega, h.indices.2.2⟩
    holds := by
      rw [received_curOpcode, received_buf, ← List.cons_append, Memory.holds_append]
      constructor
      · exact Memory.holds_congr h.holds fun a _ ha =>
          Memory.read_writeAll_other _ _ _ (.inl (by simp only [List.length_cons] at ha; omega))
      · rw [show 2 + (s.curOpcode :: got).length = s.rdIdx by simp only [List.length_cons]; omega]
        exact Memory.holds_writeAll _ _ _
    next := by simp only [received_rdIdx, List.length_append]; omega }

/-- `L` is resolved and the read of the `k` bytes that are missing begins (R113, R115). -/
theorem Reading.beginBody {s : State} {got : List Byte} (h : Reading s got) {n : Int} {l : BodyLen}
    {i k : Nat} (hi : i = 3 + got.length) (hk : got.length + k = l.val) :
    Reading { s with
      curLength := lengthReg s.cfg.lenW n, l := l, phase := .body, rdIdx := i, rdRem := k } got :=
  have h32 := l.isLt
  { h with
    lengthInRange := fitsSigned_lengthReg _ _
    indices := ⟨by dsimp only; omega, by dsimp only; omega, h.indices.2.2⟩
    next := hi }

/-- The read of the three header bytes begins (R115). -/
theorem Reading.beginHeader {s : State} (h : Reading s []) :
    Reading { s with phase := .header, rdIdx := bodyIdx, rdRem := hdrLen } [] :=
  { h with
    indices := ⟨by simp [bodyIdx], by simp [hdrLen], h.indices.2.2⟩
    next := rfl }

/-- What has been read is in the buffer, the opcode first (R11, R36). -/
theorem Reading.writtenIn {s : State} {got : List Byte} (h : Reading s got) :
    s.buf.writtenIn 2 s.rdIdx := by
  have := Memory.holds_writtenIn h.holds
  rwa [show 2 + (s.curOpcode :: got).length = s.rdIdx by rw [h.next, List.length_cons]; omega] at this

theorem Reading.opcode {s : State} {got : List Byte} (h : Reading s got) :
    s.buf.read 2 = some s.curOpcode := (Memory.holds_cons.1 h.holds).1

/-- A header read that owes a byte is a state of the invariant (R115). -/
theorem Reading.blockInv_header {s : State} {got : List Byte} (h : Reading s got)
    (hp : s.phase = .header) (hrem : 1 ≤ s.rdRem) (howed : got.length + s.rdRem = 3)
    (hrule : s.cfg.ruleOf s.curOpcode = some .embedded) (hlen : s.curLength = 0) : BlockInv s := by
  have hidx := h.next
  refine h.toHealthy.blockInv (by simp [hp]) (fun _ => ?_) (by simp [hp]) (by simp [hp])
  exact ⟨hrem, by omega, by omega, h.writtenIn, h.opcode, hrule, hlen⟩

/-- A body read that owes a byte is a state of the invariant (R113, R115). -/
theorem Reading.blockInv_body {s : State} {got : List Byte} (h : Reading s got)
    (hp : s.phase = .body) (hrem : 1 ≤ s.rdRem) (howed : got.length + s.rdRem = s.l.val)
    (hres : s.lengthResolved) : BlockInv s := by
  have hidx := h.next
  refine h.toHealthy.blockInv (by simp [hp]) (by simp [hp]) (fun _ => ?_) (by simp [hp])
  exact ⟨hrem, by omega, by omega, h.writtenIn, h.opcode, hres⟩

/-- In `HEADER` and `BODY` the invariant gives the bytes read so far. -/
theorem BlockInv.exists_reading {s : State} (h : BlockInv s) (hp : s.phase = .header ∨ s.phase = .body) :
    ∃ got, Reading s got := by
  obtain ⟨h3, hw, ho⟩ : 3 ≤ s.rdIdx ∧ s.buf.writtenIn 2 s.rdIdx ∧ s.buf.read 2 = some s.curOpcode := by
    rcases hp with hp | hp
    · obtain ⟨-, h3, -, hw, ho, -⟩ := h.inHeader hp; exact ⟨h3, hw, ho⟩
    · obtain ⟨-, h3, -, hw, ho, -⟩ := h.inBody hp; exact ⟨h3, hw, ho⟩
  obtain ⟨got, hl, hg⟩ := Memory.exists_holds (m := s.buf) (i := 3) (n := s.rdIdx - 3)
    fun a h1 h2 => hw a (by omega) (by omega)
  have hne : s.phase ≠ .error := by rcases hp with hp | hp <;> simp [hp]
  exact ⟨got, { h.healthy hne with holds := Memory.holds_cons.2 ⟨ho, hg⟩, next := by omega }⟩

/-! ### The coming events and answers are no part of the invariant -/

theorem BlockInv.withInput {s : State} (h : BlockInv s) (r : List InEvent) :
    BlockInv { s with input := r } := { h with }

theorem BlockInv.withAnswers {s : State} (h : BlockInv s) (r : List OutAnswer) :
    BlockInv { s with answers := r } := { h with }

theorem Healthy.withInput {s : State} (h : Healthy s) (r : List InEvent) :
    Healthy { s with input := r } := { h with }

theorem Healthy.withAnswers {s : State} (h : Healthy s) (r : List OutAnswer) :
    Healthy { s with answers := r } := { h with }

/-! ### Sound outcomes -/

/-- What a step from a state of the invariant may come to: a state of the invariant, or the refusal of an
environment in which two events or two answers stand at once (R46). -/
inductive Sound (s : State) : Host.Outcome State Fault Refusal → Prop
  | next (t : State) (h : BlockInv t) : Sound s (.next t)
  | source (h : .clash ∈ s.input) : Sound s (.refused .illFormedSource)
  | sink (h : .clash ∈ s.answers) : Sound s (.refused .illFormedSink)

/-- A clash that is still to come later was to come before. -/
theorem Sound.mono {s s' : State} {x : Host.Outcome State Fault Refusal} (h : Sound s' x)
    (hin : s'.input ⊆ s.input) (ha : s'.answers ⊆ s.answers) : Sound s x := by
  cases h with
  | next t ht => exact .next t ht
  | source hc => exact .source (hin hc)
  | sink hc => exact .sink (ha hc)

/-- An outcome is judged by the coming events and answers only. -/
theorem Sound.congr {s s' : State} {x : Host.Outcome State Fault Refusal} (h : Sound s' x)
    (hin : s'.input = s.input) (ha : s'.answers = s.answers) : Sound s x :=
  h.mono (hin ▸ List.Subset.refl _) (ha ▸ List.Subset.refl _)

/-- A write that is stopped, `u` being the state after the bytes the sink took. -/
theorem EmitEnds.sound {u : State} {x : Host.Outcome State Fault Refusal} (h : EmitEnds u u.answers x)
    (hu : BlockInv u) (hp : u.phase ≠ .error) : Sound u x := by
  have hh := hu.healthy hp
  generalize ha : u.answers = r at h
  cases h with
  | silent => exact .next u hu
  | wait r => exact .next _ (hu.withAnswers r)
  | refuse r => exact .next _ ((hh.withAnswers r).failed _)
  | err e r => exact .next _ ((hh.withAnswers r).failed _)
  | clash r => exact .sink (by simp [ha])

/-- A read of a command that is cut short, `u` being the state after the bytes that came. -/
theorem CutShort.sound {u : State} {x : Host.Outcome State Fault Refusal} (h : CutShort u u.input x)
    (hu : BlockInv u) (hp : u.phase ≠ .error) : Sound u x := by
  have hh := hu.healthy hp
  generalize hin : u.input = r at h
  cases h with
  | silent => exact .next u hu
  | wait r => exact .next _ (hu.withInput r)
  | eos r => exact .next _ ((hh.withInput r).failed _)
  | err e r => exact .next _ ((hh.withInput r).failed _)
  | clash r => exact .source (by simp [hin])

/-! ### The phases -/

/-- The packet of the command in progress is in the buffer, and `OUT_IDX` bytes of it are out. -/
theorem Healthy.emitPhase_sound {s : State} (h : Healthy s) (hp : s.phase = .emit)
    (hout : s.outIdx ≤ s.l.val + 4) (hres : s.lengthResolved) {body : List Byte}
    (hl : body.length = s.l.val) (hv : s.buf.holds 0 (frame s.curOpcode body)) :
    Sound s (emitPhase s) := by
  have hlv : (frame s.curOpcode body).length = s.l.val + 4 := by rw [frame_length, hl]
  have h32 : s.l.val < 33 := s.l.isLt
  obtain ⟨n, r, hn, ha, ⟨-, he⟩ | ⟨hlt, he⟩⟩ := emitPhase_cases hv hlv
  · rw [he]
    refine .next _ (Healthy.blockInv_idle { h with indices := ⟨h.indices.1, h.indices.2.1, ?_⟩ } (.inl rfl))
    simp only [sent_outIdx, List.length_drop, hlv]; omega
  · have hout' : s.outIdx + n < s.l.val + 4 := by simp only [List.length_drop, hlv] at hlt; omega
    have hu : BlockInv (sent ((List.drop s.outIdx (frame s.curOpcode body)).take n) r s) := by
      have hn' : (sent ((List.drop s.outIdx (frame s.curOpcode body)).take n) r s).outIdx = s.outIdx + n := by
        rw [sent_outIdx, List.length_take, Nat.min_eq_left hn]
      refine Healthy.blockInv { h with indices := ⟨h.indices.1, h.indices.2.1, by omega⟩ }
        (by simp [hp]) (by simp [hp]) (by simp [hp]) (fun _ => ⟨?_, hres, body, hl, hv⟩)
      rw [hn', sent_l]; exact hout'
    exact (he.sound hu (by simp [hp])).mono (List.Subset.refl _) (by rw [ha]; exact List.subset_append_right _ _)

/-- The body is read: SEQ_EMIT seals its packet and sends it (R118). -/
theorem Reading.seqEmit_sound {s : State} {body : List Byte} (h : Reading s body)
    (hl : body.length = s.l.val) (hres : s.lengthResolved) : Sound s (seqEmit s) := by
  have h32 := s.l.isLt
  rw [seqEmit_eq h.holds hl]
  have hh : Healthy { s with
      crc := crc8 (s.curOpcode :: body), buf := sealedBuf s.buf s.curOpcode body, phase := .emit, outIdx := 0 } :=
    { h.toHealthy.sealedBuf s.curOpcode (body := body) (by omega) with
      indices := ⟨h.indices.1, h.indices.2.1, Nat.zero_le _⟩ }
  exact (hh.emitPhase_sound rfl (Nat.zero_le _) hres hl (sealedBuf_holds h.startByteHeld h.holds)).congr rfl rfl

theorem Reading.bodyPhase_sound {s : State} {got : List Byte} (h : Reading s got)
    (hp : s.phase = .body) (howed : got.length + s.rdRem = s.l.val) (hres : s.lengthResolved) :
    Sound s (bodyPhase s) := by
  have h32 := s.l.isLt
  have hidx := h.next
  obtain ⟨bs, r, hin, ⟨hk, he⟩ | ⟨hk, he⟩⟩ := bodyPhase_cases (s := s) (by omega) (by omega)
  all_goals
    have hr : Reading (received bs r s) (got ++ bs) := h.receive r (by omega)
    have hsub : (received bs r s).input ⊆ s.input := by
      rw [hin]; exact List.subset_append_right _ _
  · rw [he]
    exact (hr.seqEmit_sound (by simp; omega) hres).mono hsub (List.Subset.refl _)
  · refine (he.sound (hr.blockInv_body hp ?_ ?_ hres) (by simp [hp])).mono hsub (List.Subset.refl _)
    · simp; omega
    · simp; omega

/-- The header is read: the count, its range check, the data (R115). -/
theorem Reading.resolveCount_sound {s : State} {got : List Byte} (h : Reading s got)
    (hl : got.length = 3) (hrule : s.cfg.ruleOf s.curOpcode = some .embedded) :
    Sound s (resolveCount s) := by
  have hc : s.buf.read 5 = some got[2] := (Memory.holds_cons.1 h.holds).2 2 (by omega)
  by_cases hover : 29 < got[2].toNat
  · rw [resolveCount_over hc hover]
    exact .next _ ((h.toHealthy.withCurLength _).failed _)
  · obtain ⟨l, hcl⟩ : ∃ l : BodyLen, got[2].toNat + 3 = l.val := ⟨⟨got[2].toNat + 3, by omega⟩, rfl⟩
    rw [resolveCount_in hc hcl]
    have howed : got.length + got[2].toNat = l.val := by omega
    have hlen : ((got[2].toNat : Int)) = (l.val : Int) - 3 := by omega
    have hr := h.beginBody (n := got[2].toNat) (i := 6) (by omega) howed
    exact (hr.bodyPhase_sound rfl howed
      (.inr ⟨hrule, by show 3 ≤ l.val; omega, congrArg (lengthReg _) hlen⟩)).congr rfl rfl

theorem Reading.headerPhase_sound {s : State} {got : List Byte} (h : Reading s got)
    (hp : s.phase = .header) (howed : got.length + s.rdRem = 3)
    (hrule : s.cfg.ruleOf s.curOpcode = some .embedded) (hlen : s.curLength = 0) :
    Sound s (headerPhase s) := by
  have hidx := h.next
  obtain ⟨bs, r, hin, ⟨hk, he⟩ | ⟨hk, he⟩⟩ := headerPhase_cases (s := s) (by omega) (by omega)
  all_goals
    have hr : Reading (received bs r s) (got ++ bs) := h.receive r (by omega)
    have hsub : (received bs r s).input ⊆ s.input := by
      rw [hin]; exact List.subset_append_right _ _
  · rw [he]
    exact (hr.resolveCount_sound (by simp; omega) hrule).mono hsub (List.Subset.refl _)
  · refine (he.sound (hr.blockInv_header hp ?_ ?_ hrule hlen) (by simp [hp])).mono hsub (List.Subset.refl _)
    · simp; omega
    · simp; omega

/-- A command of format F, its opcode latched (R113). -/
theorem Reading.fixedCommand_sound {s : State} (h : Reading s []) {n : Int}
    (hrule : s.cfg.ruleOf s.curOpcode = some (.fixed n)) : Sound s (fixedCommand n s) := by
  by_cases hn : n < 0 ∨ 32 < n
  · rw [fixedCommand_out hn]
    exact .next _ ((h.toHealthy.withCurLength _).failed _)
  · obtain ⟨l, rfl⟩ : ∃ l : BodyLen, n = (l.val : Int) := ⟨⟨n.toNat, by omega⟩, by simp; omega⟩
    have h32 := l.isLt
    rw [fixedCommand_in]
    have hr := h.beginBody (n := l.val) (l := l) (i := 3) rfl (Nat.zero_add _)
    exact (hr.bodyPhase_sound rfl (Nat.zero_add _) (.inl ⟨_, hrule, rfl, rfl⟩)).congr rfl rfl

/-- A command of format E, its opcode latched (R115). -/
theorem Reading.embeddedCommand_sound {s : State} (h : Reading s [])
    (hrule : s.cfg.ruleOf s.curOpcode = some .embedded) (hlen : s.curLength = 0) :
    Sound s (embeddedCommand s) := by
  exact (h.beginHeader.headerPhase_sound rfl rfl hrule hlen).congr rfl rfl

theorem Healthy.fetchCommand_sound {s : State} (h : Healthy s) (hp : s.phase = .fetch) :
    Sound s (fetchCommand s) := by
  have hasked : ∀ r : List InEvent, Healthy { s with input := r, rdIdx := 2, rdRem := 1 } := fun r =>
    { h with indices := ⟨by simp, by simp, h.indices.2.2⟩ }
  match hin : s.input with
  | [] =>
    rw [fetchCommand_end hin]
    exact .next _ (Healthy.blockInv_idle { hasked [] with } (.inl hp))
  | .wait :: r => rw [fetchCommand_wait hin]; exact .next _ ((hasked r).blockInv_idle (.inl hp))
  | .eos :: r =>
    rw [fetchCommand_eos hp hin]
    exact .next _ (Healthy.blockInv_idle { hasked r with } (.inr rfl))
  | .err e :: r => rw [fetchCommand_err hin]; exact .next _ ((hasked r).failed _)
  | .clash :: r => rw [fetchCommand_clash hin]; exact .source (by simp [hin])
  | .byte o :: r =>
    have hr : Reading (fetched o r s) [] := h.reading_fetched o r
    rw [fetchCommand_byte hin, runCommand_decodeByte (s := fetched o r s) hp]
    refine Sound.mono (s' := fetched o r s) ?_ (by simp [hin]) (List.Subset.refl _)
    cases hrule : s.cfg.ruleOf o with
    | none => exact .next _ (hr.toHealthy.failed _)
    | some rule =>
      cases rule with
      | fixed n => exact hr.fixedCommand_sound hrule
      | embedded => exact hr.embeddedCommand_sound hrule rfl

/-! ### The step -/

theorem BlockInv.advance_sound {s : State} (h : BlockInv s) : Sound s (advance s) := by
  cases hp : s.phase with
  | fetch => rw [advance_fetch hp]; exact (h.healthy (by simp [hp])).fetchCommand_sound hp
  | header =>
    obtain ⟨got, hr⟩ := h.exists_reading (.inl hp)
    obtain ⟨-, -, howed, -, -, hrule, hlen⟩ := h.inHeader hp
    rw [advance_header hp]
    exact hr.headerPhase_sound hp (by have := hr.next; omega) hrule hlen
  | body =>
    obtain ⟨got, hr⟩ := h.exists_reading (.inr hp)
    obtain ⟨-, -, howed, -, -, hres⟩ := h.inBody hp
    rw [advance_body hp]
    exact hr.bodyPhase_sound hp (by have := hr.next; omega) hres
  | emit =>
    obtain ⟨hout, hres, body, hl, hv⟩ := h.inEmit hp
    rw [advance_emit hp]
    exact (h.healthy (by simp [hp])).emitPhase_sound hp (by omega) hres hl hv
  | done | error => rw [advance_terminal (by rw [hp]; rfl)]; exact .next s h

/-- Where the reset line is asserted its list begins with that sample (R170, log 20). -/
theorem exists_rst_of_reset {s : State} (h : ¬s.noReset) : ∃ r, s.rst = true :: r :=
  List.head?_eq_some_iff.1 (not_not.1 h)

/-- A step from a state of the invariant ends in one, or refuses an ill-formed environment. -/
theorem BlockInv.step_sound {s : State} (h : BlockInv s) : Sound s (step s) := by
  by_cases hrst : s.noReset
  · rw [step_noReset hrst]
    exact (h.withRst _).advance_sound.congr rfl rfl
  · obtain ⟨r, hr⟩ := exists_rst_of_reset hrst
    rw [step_reset hr]
    exact .next _ (blockInv_applyReset _)

/-- Settles O38: of the outcomes a step may come to, a next state meets the invariant. -/
theorem stepKeepsTheInvariant : Obligations.StepKeepsTheInvariant := by
  intro s t hs ht
  have h := hs.step_sound
  rw [ht] at h
  cases h with
  | next t h => exact h

/-- Settles O39: the outcomes a step may come to are a next state and the two refusals. -/
theorem stepNeverFaults : Obligations.StepNeverFaults := by
  intro s hs
  have h := hs.step_sound
  generalize step s = x at h
  cases h with
  | next t h => exact .inl ⟨t, rfl⟩
  | source hc => exact .inr (.inl ⟨rfl, hc⟩)
  | sink hc => exact .inr (.inr ⟨rfl, hc⟩)

end Sys2Proof.Machine
end

section
/-! Noninterference (R26, R172): the registers nothing outside can see may be replaced by any others that
agree on what the command in progress still reads. -/

namespace Sys2Proof.Machine

/-! ### The scratch registers -/

/-- The registers nothing outside can see (R26): `CRC`, `BUF`, `L` and the working indices. -/
structure Scratch where
  crc : Byte
  buf : Memory
  l : BodyLen
  rdIdx : Nat
  rdRem : Nat
  outIdx : Nat

def State.scratch (s : State) : Scratch := ⟨s.crc, s.buf, s.l, s.rdIdx, s.rdRem, s.outIdx⟩

/-- The state with its scratch registers replaced. -/
@[simps] def State.withScratch (s : State) (x : Scratch) : State :=
  { s with crc := x.crc, buf := x.buf, l := x.l, rdIdx := x.rdIdx, rdRem := x.rdRem, outIdx := x.outIdx }

/-- Two states that agree on what can be seen and on the table differ in the scratch registers only. -/
theorem eq_withScratch {s t : State} (hv : s.visible = t.visible) (hc : s.cfg = t.cfg) :
    t = s.withScratch t.scratch := by
  cases s; cases t
  simp only [State.visible, State.diagnostics, Prod.mk.injEq, Diagnostics.mk.injEq] at hv hc
  obtain ⟨rfl, rfl, rfl, ⟨rfl, rfl, rfl, rfl⟩, rfl, rfl, rfl⟩ := hv
  subst hc
  rfl

/-- What the command in progress still reads is the same with the scratch registers `x` as with those
of `s`: in a read, the bytes read so far and where the next one goes; the body length, once resolved;
in a write, the packet and how much of it is out. -/
structure Interchangeable (s : State) (x : Scratch) : Prop where
  reading : s.phase = .header ∨ s.phase = .body →
    x.rdRem = s.rdRem ∧ ∃ got, Reading s got ∧ Reading (s.withScratch x) got
  bodyLen : s.phase = .body ∨ s.phase = .emit → x.l = s.l
  packet : s.phase = .emit → x.outIdx = s.outIdx ∧
    ∃ v : List Byte, v.length = s.l.val + 4 ∧ s.buf.holds 0 v ∧ x.buf.holds 0 v

/-- With no command in progress nothing of the scratch registers is read. -/
theorem interchangeable_idle {s : State} (hp : s.phase = .fetch ∨ s.phase.terminal = true) (x : Scratch) :
    Interchangeable s x := by
  refine ⟨?_, ?_, ?_⟩ <;> cases h : s.phase <;> simp [h, Phase.terminal] at hp ⊢

/-- Two outcomes that differ in interchangeable scratch registers only. -/
inductive Matching : Host.Outcome State Fault Refusal → Host.Outcome State Fault Refusal → Prop
  | next (t : State) (x : Scratch) (h : Interchangeable t x) : Matching (.next t) (.next (t.withScratch x))
  | refused (r : Refusal) : Matching (.refused r) (.refused r)

theorem matching_idle (t : State) (x : Scratch) (hp : t.phase = .fetch ∨ t.phase.terminal = true) :
    Matching (.next t) (.next (t.withScratch x)) := .next t x (interchangeable_idle hp x)

/-- Error entry reads none of the scratch registers (R152). -/
theorem matching_raiseError (c : ErrClass) (s : State) (x : Scratch) :
    Matching (.next (raiseError c s)) (.next (raiseError c (s.withScratch x))) :=
  matching_idle (raiseError c s) x (.inr rfl)

/-! ### The coming events and answers are no part of what is interchanged -/

theorem Reading.withInput {s : State} {got : List Byte} (h : Reading s got) (r : List InEvent) :
    Reading { s with input := r } got := { h with }

theorem Interchangeable.withInput {s : State} {x : Scratch} (h : Interchangeable s x) (r : List InEvent) :
    Interchangeable { s with input := r } x where
  reading hp := by
    obtain ⟨hrem, got, h1, h2⟩ := h.reading hp
    exact ⟨hrem, got, h1.withInput r, h2.withInput r⟩
  bodyLen := h.bodyLen
  packet := h.packet

theorem Reading.withRst {s : State} {got : List Byte} (h : Reading s got) (r : List Bool) :
    Reading { s with rst := r } got := { h with }

theorem Interchangeable.withRst {s : State} {x : Scratch} (h : Interchangeable s x) (r : List Bool) :
    Interchangeable { s with rst := r } x where
  reading hp := by
    obtain ⟨hrem, got, h1, h2⟩ := h.reading hp
    exact ⟨hrem, got, h1.withRst r, h2.withRst r⟩
  bodyLen := h.bodyLen
  packet := h.packet

/-! ### The phases -/

/-- Two reads of a command cut short by the same event. -/
theorem CutShort.matching {u : State} {x : Scratch} {r : List InEvent}
    {a b : Host.Outcome State Fault Refusal} (ha : CutShort u r a) (hb : CutShort (u.withScratch x) r b)
    (h : Interchangeable u x) : Matching a b := by
  cases ha with
  | silent => cases hb; exact .next u x h
  | wait r => cases hb; exact .next _ x (h.withInput r)
  | eos r => cases hb; exact matching_raiseError _ _ x
  | err e r => cases hb; exact matching_raiseError _ _ x
  | clash r => cases hb; exact .refused _

theorem CutShort.ne_byte {u : State} {r : List InEvent} {a : Host.Outcome State Fault Refusal}
    (h : CutShort u r a) (b : Byte) (r' : List InEvent) : r ≠ .byte b :: r' := by
  rintro rfl; cases h

/-- Two writes stopped by the same answer. -/
theorem EmitEnds.matching {u : State} {x : Scratch} {r : List OutAnswer}
    {a b : Host.Outcome State Fault Refusal} (ha : EmitEnds u r a) (hb : EmitEnds (u.withScratch x) r b)
    (h : ∀ r', Interchangeable { u with answers := r' } x) : Matching a b := by
  cases ha with
  | silent => cases hb; exact .next u x (h u.answers)
  | wait r => cases hb; exact .next _ x (h r)
  | refuse r => cases hb; exact matching_raiseError _ _ x
  | err e r => cases hb; exact matching_raiseError _ _ x
  | clash r => cases hb; exact .refused _

theorem EmitEnds.ne_accept {u : State} {r : List OutAnswer} {a : Host.Outcome State Fault Refusal}
    (h : EmitEnds u r a) (r' : List OutAnswer) : r ≠ .accept :: r' := by
  rintro rfl; cases h

/-- A write looks at the packet and at how much of it is out (R44, R97). -/
theorem emitPhase_matching {s : State} {x : Scratch} {v : List Byte} (hp : s.phase = .emit)
    (hlen : v.length = s.l.val + 4) (hs : s.buf.holds 0 v) (hx : (s.withScratch x).buf.holds 0 v) (hl : x.l = s.l)
    (hout : x.outIdx = s.outIdx) : Matching (emitPhase s) (emitPhase (s.withScratch x)) := by
  obtain ⟨crc, buf, l, rdIdx, rdRem, outIdx⟩ := x
  obtain rfl : l = s.l := hl
  obtain rfl : outIdx = s.outIdx := hout
  obtain ⟨n, r, hn, ha, ⟨rfl, he⟩ | ⟨hlt, he⟩⟩ := emitPhase_cases hs hlen
  · rw [he, emitPhase_all hx hlen ha]
    exact matching_idle { sent (v.drop s.outIdx) r s with phase := .fetch }
      ⟨crc, buf, s.l, rdIdx, rdRem, s.outIdx + (v.drop s.outIdx).length⟩ (.inl rfl)
  · have he' := emitPhase_stops hx hlen hlt ha he.ne_accept
    refine EmitEnds.matching (x := ⟨crc, buf, s.l, rdIdx, rdRem,
      s.outIdx + ((v.drop s.outIdx).take n).length⟩) he he' fun r' => ?_
    exact ⟨by simp [hp], fun _ => rfl, fun _ => ⟨rfl, v, hlen, hs, hx⟩⟩

/-- With the same body in both, SEQ_EMIT seals and sends the same packet (R118). -/
theorem Reading.seqEmit_matching {s : State} {x : Scratch} {body : List Byte} (hs : Reading s body)
    (hx : Reading (s.withScratch x) body) (hlen : body.length = s.l.val) (hl : x.l = s.l) :
    Matching (seqEmit s) (seqEmit (s.withScratch x)) := by
  rw [seqEmit_eq hs.holds hlen, seqEmit_eq hx.holds (by rw [hlen, State.withScratch_l, hl])]
  exact emitPhase_matching (v := frame s.curOpcode body)
    (s := { s with
      crc := crc8 (s.curOpcode :: body), buf := sealedBuf s.buf s.curOpcode body, phase := .emit, outIdx := 0 })
    (x := { x with
      crc := crc8 (s.curOpcode :: body), buf := sealedBuf x.buf s.curOpcode body, outIdx := 0 })
    rfl (by rw [frame_length, hlen]) (sealedBuf_holds hs.startByteHeld hs.holds)
    (sealedBuf_holds hx.startByteHeld hx.holds) hl rfl

/-- The same bytes arrive in both. -/
theorem received_withScratch (bs : List Byte) (r : List InEvent) (s : State) (x : Scratch) :
    received bs r (s.withScratch x) =
      (received bs r s).withScratch (received bs r (s.withScratch x)).scratch := rfl

theorem Reading.bodyPhase_matching {s : State} {x : Scratch} {got : List Byte} (hs : Reading s got)
    (hx : Reading (s.withScratch x) got) (hp : s.phase = .body) (howed : got.length + s.rdRem = s.l.val)
    (hrem : x.rdRem = s.rdRem) (hl : x.l = s.l) :
    Matching (bodyPhase s) (bodyPhase (s.withScratch x)) := by
  have h32 := s.l.isLt
  have hidx := hs.next
  have hidx' : x.rdIdx = 3 + got.length := hx.next
  obtain ⟨bs, r, hin, ⟨hk, he⟩ | ⟨hk, he⟩⟩ := bodyPhase_cases (s := s) (by omega) (by omega)
  all_goals
    have hs' := hs.receive (bs := bs) r (by omega)
    have hx' := hx.receive (bs := bs) r (by omega)
    rw [received_withScratch] at hx'
  · rw [he, bodyPhase_all (s := s.withScratch x) hin (by simp; omega) (by simp; omega) (by simp; omega),
      received_withScratch]
    exact hs'.seqEmit_matching hx' (by simp; omega) hl
  · have he' := bodyPhase_cut (s := s.withScratch x) hin (by simp; omega) (by simp; omega) (by simp; omega)
      he.ne_byte
    rw [received_withScratch] at he'
    refine he.matching he' ⟨fun _ => ⟨?_, _, hs', hx'⟩, fun _ => hl, by simp [hp]⟩
    show x.rdRem - bs.length = s.rdRem - bs.length
    rw [hrem]

/-- The same three header bytes give the same count (R115). -/
theorem Reading.resolveCount_matching {s : State} {x : Scratch} {got : List Byte} (hs : Reading s got)
    (hx : Reading (s.withScratch x) got) (hl : got.length = 3) :
    Matching (resolveCount s) (resolveCount (s.withScratch x)) := by
  have hc : s.buf.read 5 = some got[2] := (Memory.holds_cons.1 hs.holds).2 2 (by omega)
  have hc' : (s.withScratch x).buf.read 5 = some got[2] := (Memory.holds_cons.1 hx.holds).2 2 (by omega)
  by_cases hover : 29 < got[2].toNat
  · rw [resolveCount_over hc hover, resolveCount_over hc' hover]
    exact matching_raiseError _ { s with curLength := _ } x
  · obtain ⟨l, hcl⟩ : ∃ l : BodyLen, got[2].toNat + 3 = l.val := ⟨⟨got[2].toNat + 3, by omega⟩, rfl⟩
    have howed : got.length + got[2].toNat = l.val := by omega
    rw [resolveCount_in hc hcl, resolveCount_in hc' hcl]
    exact (hs.beginBody (n := got[2].toNat) (i := 6) (by omega) howed).bodyPhase_matching
      (x := { x with l := l, rdIdx := 6, rdRem := got[2].toNat })
      (hx.beginBody (n := got[2].toNat) (i := 6) (by omega) howed) rfl howed rfl rfl

theorem Reading.headerPhase_matching {s : State} {x : Scratch} {got : List Byte} (hs : Reading s got)
    (hx : Reading (s.withScratch x) got) (hp : s.phase = .header) (howed : got.length + s.rdRem = 3)
    (hrem : x.rdRem = s.rdRem) : Matching (headerPhase s) (headerPhase (s.withScratch x)) := by
  have hidx := hs.next
  have hidx' : x.rdIdx = 3 + got.length := hx.next
  obtain ⟨bs, r, hin, ⟨hk, he⟩ | ⟨hk, he⟩⟩ := headerPhase_cases (s := s) (by omega) (by omega)
  all_goals
    have hs' := hs.receive (bs := bs) r (by omega)
    have hx' := hx.receive (bs := bs) r (by omega)
    rw [received_withScratch] at hx'
  · rw [he, headerPhase_all (s := s.withScratch x) hin (by simp; omega) (by simp; omega) (by simp; omega),
      received_withScratch]
    exact hs'.resolveCount_matching hx' (by simp; omega)
  · have he' := headerPhase_cut (s := s.withScratch x) hin (by simp; omega) (by simp; omega) (by simp; omega)
      he.ne_byte
    rw [received_withScratch] at he'
    refine he.matching he' ⟨fun _ => ⟨?_, _, hs', hx'⟩, by simp [hp], by simp [hp]⟩
    show x.rdRem - bs.length = s.rdRem - bs.length
    rw [hrem]

/-- A command of format F sets `L` and the indices itself (R113). -/
theorem Reading.fixedCommand_matching {s : State} {x : Scratch} (hs : Reading s [])
    (hx : Reading (s.withScratch x) []) (n : Int) :
    Matching (fixedCommand n s) (fixedCommand n (s.withScratch x)) := by
  by_cases hn : n < 0 ∨ 32 < n
  · rw [fixedCommand_out hn, fixedCommand_out hn]
    exact matching_raiseError _ { s with curLength := _ } x
  · obtain ⟨l, rfl⟩ : ∃ l : BodyLen, n = (l.val : Int) := ⟨⟨n.toNat, by omega⟩, by simp; omega⟩
    rw [fixedCommand_in, fixedCommand_in]
    exact (hs.beginBody (n := l.val) (l := l) rfl (Nat.zero_add _)).bodyPhase_matching
      (x := { x with l := l, rdIdx := 3, rdRem := l.val })
      (hx.beginBody (n := l.val) (l := l) rfl (Nat.zero_add _)) rfl (Nat.zero_add _) rfl rfl

/-- A command of format E sets the indices itself (R115). -/
theorem Reading.embeddedCommand_matching {s : State} {x : Scratch} (hs : Reading s [])
    (hx : Reading (s.withScratch x) []) : Matching (embeddedCommand s) (embeddedCommand (s.withScratch x)) :=
  hs.beginHeader.headerPhase_matching (x := { x with rdIdx := bodyIdx, rdRem := hdrLen })
    hx.beginHeader rfl rfl rfl

/-- SEQ_FETCH reads none of the scratch registers before it has written them (R26, R111). -/
theorem Healthy.fetchCommand_matching {s : State} {x : Scratch} (hs : Healthy s)
    (hx : Healthy (s.withScratch x)) (hp : s.phase = .fetch) :
    Matching (fetchCommand s) (fetchCommand (s.withScratch x)) := by
  match hin : s.input with
  | [] =>
    rw [fetchCommand_end hin, fetchCommand_end (s := s.withScratch x) hin]
    exact matching_idle { s with rdIdx := 2, rdRem := 1 } { x with rdIdx := 2, rdRem := 1 } (.inl hp)
  | .wait :: r =>
    rw [fetchCommand_wait hin, fetchCommand_wait (s := s.withScratch x) hin]
    exact matching_idle { s with input := r, rdIdx := 2, rdRem := 1 } { x with rdIdx := 2, rdRem := 1 }
      (.inl hp)
  | .eos :: r =>
    rw [fetchCommand_eos hp hin, fetchCommand_eos (s := s.withScratch x) hp hin]
    exact matching_idle { s with input := r, rdIdx := 2, rdRem := 1, phase := .done }
      { x with rdIdx := 2, rdRem := 1 } (.inr rfl)
  | .err e :: r =>
    rw [fetchCommand_err hin, fetchCommand_err (s := s.withScratch x) hin]
    exact matching_raiseError _ { s with input := r, rdIdx := 2, rdRem := 1 } { x with rdIdx := 2, rdRem := 1 }
  | .clash :: r =>
    rw [fetchCommand_clash hin, fetchCommand_clash (s := s.withScratch x) hin]
    exact .refused _
  | .byte o :: r =>
    have hs' : Reading (fetched o r s) [] := hs.reading_fetched o r
    have hx' : Reading ((fetched o r s).withScratch (fetched o r (s.withScratch x)).scratch) [] :=
      hx.reading_fetched o r
    rw [fetchCommand_byte hin, fetchCommand_byte (s := s.withScratch x) hin,
      runCommand_decodeByte (s := fetched o r s) hp,
      runCommand_decodeByte (s := fetched o r (s.withScratch x)) hp]
    rw [State.withScratch_cfg]
    cases s.cfg.ruleOf o with
    | none => exact matching_raiseError .unknownOpcode (fetched o r s) (fetched o r (s.withScratch x)).scratch
    | some rule =>
      cases rule with
      | fixed n => exact hs'.fixedCommand_matching hx' n
      | embedded => exact hs'.embeddedCommand_matching hx'

/-! ### The step and the run -/

theorem Interchangeable.advance_matching {s : State} {x : Scratch} (h : Interchangeable s x)
    (hs : BlockInv s) (hx : BlockInv (s.withScratch x)) :
    Matching (advance s) (advance (s.withScratch x)) := by
  cases hp : s.phase with
  | fetch =>
    rw [advance_fetch hp, advance_fetch (s := s.withScratch x) hp]
    exact (hs.healthy (by simp [hp])).fetchCommand_matching (hx.healthy (by simp [hp])) hp
  | header =>
    obtain ⟨hrem, got, hr, hr'⟩ := h.reading (.inl hp)
    obtain ⟨-, -, howed, -⟩ := hs.inHeader hp
    rw [advance_header hp, advance_header (s := s.withScratch x) hp]
    exact hr.headerPhase_matching hr' hp (by have := hr.next; omega) hrem
  | body =>
    obtain ⟨hrem, got, hr, hr'⟩ := h.reading (.inr hp)
    obtain ⟨-, -, howed, -⟩ := hs.inBody hp
    rw [advance_body hp, advance_body (s := s.withScratch x) hp]
    exact hr.bodyPhase_matching hr' hp (by have := hr.next; omega) hrem (h.bodyLen (.inl hp))
  | emit =>
    obtain ⟨hout, v, hlen, hv, hv'⟩ := h.packet hp
    rw [advance_emit hp, advance_emit (s := s.withScratch x) hp]
    exact emitPhase_matching hp hlen hv hv' (h.bodyLen (.inr hp)) hout
  | done | error =>
    have ht : s.phase.terminal = true := by rw [hp]; rfl
    rw [advance_terminal ht, advance_terminal (s := s.withScratch x) ht]; exact .next s x h

theorem Interchangeable.step_matching {s : State} {x : Scratch} (h : Interchangeable s x)
    (hs : BlockInv s) (hx : BlockInv (s.withScratch x)) : Matching (step s) (step (s.withScratch x)) := by
  by_cases hrst : s.noReset
  · rw [step_noReset hrst, step_noReset (s := s.withScratch x) hrst]
    exact (h.withRst _).advance_matching (hs.withRst _) (hx.withRst _)
  · obtain ⟨r, hr⟩ := exists_rst_of_reset hrst
    rw [step_reset hr, step_reset (s := s.withScratch x) hr]
    exact matching_idle (applyReset { s with rst := r }) (applyReset { s with rst := r }).scratch (.inl rfl)

theorem run_succ_next {s t : State} (h : step s = .next t) (k : Nat) :
    Host.Core.run core (k + 1) s = Host.Core.run core k t := by
  have hc : core.step s = .next t := h
  simp only [Host.Core.run, hc]

theorem exists_step_of_run {k : Nat} {s u : State} (h : Host.Core.run core (k + 1) s = .next u) :
    ∃ t, step s = .next t ∧ Host.Core.run core k t = .next u := by
  simp only [Host.Core.run] at h
  split at h
  · next t ht => exact ⟨t, ht, h⟩
  · cases h
  · cases h

/-- Interchangeable scratch registers stay so along a run. -/
theorem Interchangeable.run {k : Nat} {s t : State} {x : Scratch} (h : Interchangeable s x)
    (hs : BlockInv s) (hx : BlockInv (s.withScratch x)) (hr : Host.Core.run core k s = .next t) :
    ∃ y, Host.Core.run core k (s.withScratch x) = .next (t.withScratch y) := by
  induction k generalizing s x with
  | zero => cases hr; exact ⟨x, rfl⟩
  | succ k ih =>
    obtain ⟨u, hu, hr⟩ := exists_step_of_run hr
    have hm := h.step_matching hs hx
    generalize hv : step (s.withScratch x) = out at hm
    rw [hu] at hm
    cases hm with
    | next u y hy =>
      obtain ⟨z, hz⟩ := ih hy (stepKeepsTheInvariant s u hs hu) (stepKeepsTheInvariant _ _ hx hv) hr
      exact ⟨z, (run_succ_next hv k).trans hz⟩

/-- Settles O52: two states that agree on what can be seen differ in scratch registers only, which at a
command boundary are interchangeable, whatever they hold. -/
theorem staleStateNeverShows : Obligations.StaleStateNeverShows := by
  intro s₁ s₂ k t₁ h₁ h₂ hp hv hc hr
  have hs := eq_withScratch hv hc
  rw [hs] at h₂ ⊢
  obtain ⟨y, hy⟩ := (interchangeable_idle (.inl hp) _).run h₁ h₂ hr
  exact ⟨_, hy, rfl⟩

end Sys2Proof.Machine
end

section
/-! FA_SEAL on a region with an unwritten element (R11, R96), and the flags and the error codes (R16, R17,
R141). -/

namespace Sys2Proof.Machine

/-- A read of a run faults on its first unwritten element (R11). -/
theorem readRange_unwritten {s : State} {i n a : Nat} (h1 : i ≤ a) (h2 : a < i + n) (h36 : a < 36)
    (hw : s.buf.writtenIn i a) (ha : s.buf.read a = none) :
    readRange s i n = .error (.bufUnwritten a) := by
  induction n generalizing i with
  | zero => omega
  | succ n ih =>
    rcases Nat.eq_or_lt_of_le h1 with rfl | hlt
    · simp [readRange, readBuf_unwritten h36 ha]
    · obtain ⟨b, hb⟩ := Option.isSome_iff_exists.1 (hw i (Nat.le_refl i) hlt)
      have hrest := ih (i := i + 1) hlt (by omega) fun c h1 h2 => hw c (by omega) h2
      simp [readRange, readBuf_ok (s := s) (by omega) hb, hrest]

/-- Settles O12: FA_SEAL reads the payload region first, and that read faults. -/
theorem faSealOfUnwrittenElementFaults : Obligations.FaSealOfUnwrittenElementFaults := by
  intro s a h2 hle hw ha
  have h33 := s.l.isLt
  have hregion : payloadRegion s = .error (.bufUnwritten a) :=
    readRange_unwritten (i := opcodeIdx) h2 (by simp only [opcodeIdx]; omega) (by omega) hw ha
  show execFaSeal s = _
  simp [execFaSeal, faSeal, hregion]

theorem errCode_bits_eq_zero {x : ErrCode} : x.bits = 0 ↔ x = .none := by cases x <;> decide

/-- Settles O54: the flags are views of one phase, and the invariant ties the code to it. -/
theorem flagsAndErrorCodes : Obligations.FlagsAndErrorCodes := by
  refine ⟨fun s => ?_, fun s hs => ?_, fun x => ?_, rfl⟩
  · simp only [State.doneFlag, State.errorFlag, decide_eq_true_eq]
    rintro ⟨hd, he⟩
    rw [hd] at he; cases he
  · rw [errCode_bits_eq_zero, hs.codeIffError]
    simp [State.errorFlag]
  · cases x <;> decide

end Sys2Proof.Machine
end

section
/-! What every instruction and every step does to the table, the input and the count (R18, R24, R41). -/

namespace Sys2Proof.Machine

/-- The byte accepted is the one received (R42). -/
theorem acceptByte_eq_ok {s t : State} {b : Byte} {r : List InEvent}
    (h : acceptByte b { s with input := r } = .ok t) : t = received [b] r s := by
  by_cases hi : 2 ≤ s.rdIdx ∧ s.rdIdx ≤ 34
  · rw [acceptByte_ok b r s hi] at h
    exact (Except.ok.inj h).symm
  · simp [acceptByte, faPut, hi] at h

/-- A property of the parameters, the coming events and the count is kept by every primitive change when
the two that take an event keep it. -/
theorem closed_of_input {Q : Config → List InEvent → Nat → Prop}
    (popEvent : ∀ c ev r n, Q c (ev :: r) n → (∀ b, ev ≠ .byte b) → Q c r n)
    (accept : ∀ c b r n, Q c (.byte b :: r) n → Q c r ((n + 1) % 2 ^ c.countW)) :
    Closed fun s => Q s.cfg s.input s.bytesConsumed where
  popEvent s ev r hs hin hev := popEvent s.cfg ev r s.bytesConsumed (hin ▸ hs) hev
  accept s b r t hs hin ht := by
    rw [acceptByte_eq_ok ht]
    exact accept s.cfg b r s.bytesConsumed (hin ▸ hs)
  popAnswer _ _ _ hs _ := hs
  send _ _ _ hs := hs
  toPhase _ _ hs := hs
  startRead _ _ _ hs := hs
  startWrite _ hs := hs
  setCurLength _ _ hs := hs
  setBodyLen _ _ hs := hs
  latch _ _ hs := hs
  raise _ _ hs := hs
  setCrc _ _ hs := hs
  writeBuf _ _ _ hs _ := hs

/-- No primitive change writes the parameters (R24). -/
theorem closed_cfg (c : Config) : Closed fun s => s.cfg = c :=
  closed_of_input (Q := fun d _ _ => d = c) (fun _ _ _ _ h _ => h) (fun _ _ _ _ h => h)

/-- Settles O40: FA_INIT and a reset leave the parameters alone, and everything else is made of primitive
changes. -/
theorem tableIsNeverWritten : Obligations.TableIsNeverWritten := by
  refine ⟨fun i s t ht => ?_, fun s t ht => ?_⟩
  · by_cases hi : i = .faInit
    · subst hi
      obtain rfl : faInit s = t := Host.Outcome.next.inj ht
      rfl
    · have h := (closed_cfg s.cfg).exec hi (s := s) rfl
      rw [ht] at h; exact h
  · by_cases hrst : s.noReset
    · have h := (closed_cfg s.cfg).advance (s := { s with rst := s.rst.tail }) rfl
      rw [← step_noReset hrst, ht] at h; exact h
    · obtain ⟨r, hr⟩ := exists_rst_of_reset hrst
      obtain rfl : applyReset _ = t := Host.Outcome.next.inj ((step_reset hr).symm.trans ht)
      rfl

/-- From `evs` and the count `n`, events were taken off the head and the bytes among them counted. -/
def Counted (evs : List InEvent) (n : Nat) (c : Config) (rest : List InEvent) (m : Nat) : Prop :=
  ∃ taken, evs = taken ++ rest ∧ m = (n + byteCount taken) % 2 ^ c.countW

theorem byteCount_append (evs evs' : List InEvent) :
    byteCount (evs ++ evs') = byteCount evs + byteCount evs' := List.countP_append

theorem Counted.popEvent {evs : List InEvent} {n : Nat} {c : Config} {ev : InEvent} {r : List InEvent}
    {m : Nat} (h : Counted evs n c (ev :: r) m) (hev : ∀ b, ev ≠ .byte b) : Counted evs n c r m := by
  obtain ⟨taken, rfl, rfl⟩ := h
  have h0 : byteCount [ev] = 0 := by
    cases ev with
    | byte b => exact absurd rfl (hev b)
    | _ => rfl
  refine ⟨taken ++ [ev], by simp, ?_⟩
  rw [byteCount_append, h0, Nat.add_zero]

theorem Counted.accept {evs : List InEvent} {n : Nat} {c : Config} {b : Byte} {r : List InEvent}
    {m : Nat} (h : Counted evs n c (.byte b :: r) m) : Counted evs n c r ((m + 1) % 2 ^ c.countW) := by
  obtain ⟨taken, rfl, rfl⟩ := h
  refine ⟨taken ++ [.byte b], by simp, ?_⟩
  rw [byteCount_append, Nat.mod_add_mod]
  rfl

/-- Settles O42: the two primitive changes that take an event keep the account of what was taken. -/
theorem consumedCountMatchesInput : Obligations.ConsumedCountMatchesInput := by
  intro s t hcount hrst ht
  have hclosed : Closed fun u => Counted s.input s.bytesConsumed u.cfg u.input u.bytesConsumed :=
    closed_of_input (fun _ _ _ _ h hev => h.popEvent hev) (fun _ _ _ _ h => h.accept)
  have hstart : Counted s.input s.bytesConsumed s.cfg s.input s.bytesConsumed :=
    ⟨[], rfl, (Nat.mod_eq_of_lt hcount).symm⟩
  have h := hclosed.advance (s := { s with rst := s.rst.tail }) hstart
  rw [← step_noReset hrst, ht] at h
  obtain ⟨taken, hin, hn⟩ := h
  exact ⟨taken, hin, by rw [hn, tableIsNeverWritten.2 s t ht]⟩

end Sys2Proof.Machine
end

section
/-! The table's names and the number of TOOL_ACTION (R23, R116): a step with other parameters of the same
rules and widths does the same. -/

namespace Sys2Proof.Machine

/-- The state with other parameters (R5). -/
@[simps] def State.withCfg (s : State) (c : Config) : State := { s with cfg := c }

/-- The parameters of the state of a stream primitive's answer are replaced. -/
def IoResult.withCfg (c : Config) : IoResult → IoResult
  | .ok s => .ok (s.withCfg c)
  | .held s => .held (s.withCfg c)
  | .short s => .short (s.withCfg c)
  | .fail e s => .fail e (s.withCfg c)
  | .fault f => .fault f
  | .refused r => .refused r

/-- The parameters of the next state are replaced. -/
def outcomeWithCfg (c : Config) : Host.Outcome State Fault Refusal → Host.Outcome State Fault Refusal
  | .next s => .next (s.withCfg c)
  | .fault f => .fault f
  | .refused r => .refused r

/-! ### Writing depends on no parameter -/

theorem outLoop_withCfg (c : Config) (v : List Byte) (s : State) :
    outLoop v (s.withCfg c) = (outLoop v s).withCfg c := by
  induction v generalizing s with
  | nil => rfl
  | cons b bs ih =>
    simp only [outLoop, State.withCfg_answers]
    split
    · rfl
    · next r _ => exact ih { s with answers := r, output := s.output ++ [b], outIdx := s.outIdx + 1 }
    all_goals rfl

theorem outResume_withCfg (c : Config) (s : State) :
    outResume (s.withCfg c) = (outResume s).withCfg c := by
  unfold outResume
  rw [packetBytes_congr (s := s) (t := s.withCfg c) rfl rfl]
  cases packetBytes s with
  | error f => rfl
  | ok v => exact outLoop_withCfg c _ s

theorem emitPhase_withCfg (c : Config) (s : State) :
    emitPhase (s.withCfg c) = outcomeWithCfg c (emitPhase s) := by
  unfold emitPhase
  rw [outResume_withCfg]
  cases outResume s <;> rfl

theorem faSeal_withCfg (c : Config) (s : State) :
    faSeal (s.withCfg c) = (faSeal s).map fun t => t.withCfg c := by
  have hregion : payloadRegion (s.withCfg c) = payloadRegion s :=
    readRange_congr (s := s.withCfg c) (t := s) rfl _ _
  unfold faSeal
  rw [hregion]
  cases payloadRegion s with
  | error f => rfl
  | ok bs => simp only [crcPutAll_clear]; rfl

theorem seqEmit_withCfg (c : Config) (s : State) :
    seqEmit (s.withCfg c) = outcomeWithCfg c (seqEmit s) := by
  unfold seqEmit
  rw [show faSetLen (s.withCfg c) = (faSetLen s).withCfg c from rfl, faSeal_withCfg]
  cases faSeal (faSetLen s) with
  | error f => rfl
  | ok t => exact emitPhase_withCfg c { t with phase := .emit, outIdx := 0 }

/-! ### Reading depends on the widths -/

theorem acceptByte_withCfg {c : Config} {s : State} (b : Byte) (r : List InEvent)
    (hw : c.countW = s.cfg.countW) :
    acceptByte b { s.withCfg c with input := r } =
      (acceptByte b { s with input := r }).map fun t => t.withCfg c := by
  by_cases hi : 2 ≤ s.rdIdx ∧ s.rdIdx ≤ 34
  · rw [acceptByte_ok b r s hi, acceptByte_ok b r (s.withCfg c) hi]
    simp [received, State.withCfg, hw, Except.map]
  · simp [acceptByte, faPut, hi, Except.map]

theorem inLoop_withCfg {c : Config} {k : Nat} {s : State} (hw : c.countW = s.cfg.countW) :
    inLoop k (s.withCfg c) = (inLoop k s).withCfg c := by
  induction k generalizing s with
  | zero => rfl
  | succ k ih =>
    simp only [inLoop, State.withCfg_input]
    split
    · rfl
    · next b r _ =>
      rw [acceptByte_withCfg b r hw]
      cases ht : acceptByte b { s with input := r } with
      | error f => rfl
      | ok t => exact ih (by rw [acceptByte_eq_ok ht]; exact hw)
    all_goals rfl

theorem bodyPhase_withCfg {c : Config} {s : State} (hw : c.countW = s.cfg.countW) :
    bodyPhase (s.withCfg c) = outcomeWithCfg c (bodyPhase s) := by
  unfold bodyPhase inResume
  rw [State.withCfg_rdRem, inLoop_withCfg hw]
  cases inLoop s.rdRem s with
  | ok t => exact seqEmit_withCfg c t
  | _ => rfl

theorem resolveCount_withCfg {c : Config} {s : State} (hw : c.countW = s.cfg.countW)
    (hl : c.lenW = s.cfg.lenW) : resolveCount (s.withCfg c) = outcomeWithCfg c (resolveCount s) := by
  unfold resolveCount
  rw [show readBuf (s.withCfg c) countIdx = readBuf s countIdx from rfl]
  cases readBuf s countIdx with
  | error f => rfl
  | ok b =>
    simp only [State.withCfg_cfg, hl]
    cases bodyLen? (embeddedCount b + hdrLen) with
    | none => rfl
    | some l =>
      exact bodyPhase_withCfg (s := { s with
        curLength := lengthReg s.cfg.lenW (embeddedCount b), l := l, phase := .body, rdIdx := dataIdx,
        rdRem := embeddedCount b }) hw

theorem headerPhase_withCfg {c : Config} {s : State} (hw : c.countW = s.cfg.countW)
    (hl : c.lenW = s.cfg.lenW) : headerPhase (s.withCfg c) = outcomeWithCfg c (headerPhase s) := by
  have hkeep := (closed_cfg s.cfg).inLoop (k := s.rdRem) (s := s) rfl
  unfold headerPhase inResume
  rw [State.withCfg_rdRem, inLoop_withCfg hw]
  cases hr : inLoop s.rdRem s with
  | ok t =>
    rw [hr] at hkeep
    have ht : t.cfg = s.cfg := hkeep
    exact resolveCount_withCfg (by rw [ht, hw]) (by rw [ht, hl])
  | _ => rfl

theorem fixedCommand_withCfg {c : Config} {s : State} (hw : c.countW = s.cfg.countW)
    (hl : c.lenW = s.cfg.lenW) (n : Int) :
    fixedCommand n (s.withCfg c) = outcomeWithCfg c (fixedCommand n s) := by
  unfold fixedCommand
  simp only [State.withCfg_cfg, hl]
  cases bodyLen? n with
  | none => rfl
  | some l =>
    exact bodyPhase_withCfg (s := { s with
      curLength := lengthReg s.cfg.lenW n, l := l, phase := .body, rdIdx := bodyIdx, rdRem := l.val }) hw

/-! ### The fetch depends on the length rules -/

theorem fetchCommand_withCfg {c : Config} {s : State} (hrule : ∀ o, c.ruleOf o = s.cfg.ruleOf o)
    (hw : c.countW = s.cfg.countW) (hl : c.lenW = s.cfg.lenW) (hp : s.phase = .fetch) :
    fetchCommand (s.withCfg c) = outcomeWithCfg c (fetchCommand s) := by
  match hin : s.input with
  | [] => rw [fetchCommand_end hin, fetchCommand_end (s := s.withCfg c) hin]; rfl
  | .wait :: r => rw [fetchCommand_wait hin, fetchCommand_wait (s := s.withCfg c) hin]; rfl
  | .eos :: r => rw [fetchCommand_eos hp hin, fetchCommand_eos (s := s.withCfg c) hp hin]; rfl
  | .err e :: r => rw [fetchCommand_err hin, fetchCommand_err (s := s.withCfg c) hin]; rfl
  | .clash :: r => rw [fetchCommand_clash hin, fetchCommand_clash (s := s.withCfg c) hin]; rfl
  | .byte o :: r =>
    have hf : fetched o r (s.withCfg c) = (fetched o r s).withCfg c := by
      simp [fetched, State.withCfg, hw]
    rw [fetchCommand_byte hin, fetchCommand_byte (s := s.withCfg c) hin, hf,
      runCommand_decodeByte (s := fetched o r s) hp,
      runCommand_decodeByte (s := (fetched o r s).withCfg c) hp, State.withCfg_cfg, hrule]
    cases s.cfg.ruleOf o with
    | none => rfl
    | some rule =>
      cases rule with
      | fixed n => exact fixedCommand_withCfg (s := fetched o r s) hw hl n
      | embedded =>
        exact headerPhase_withCfg (s := { fetched o r s with
          phase := .header, rdIdx := bodyIdx, rdRem := hdrLen }) hw hl

theorem advance_withCfg {c : Config} {s : State} (hrule : ∀ o, c.ruleOf o = s.cfg.ruleOf o)
    (hw : c.countW = s.cfg.countW) (hl : c.lenW = s.cfg.lenW) :
    advance (s.withCfg c) = outcomeWithCfg c (advance s) := by
  cases hp : s.phase with
  | fetch => rw [advance_fetch hp, advance_fetch (s := s.withCfg c) hp, fetchCommand_withCfg hrule hw hl hp]
  | header => rw [advance_header hp, advance_header (s := s.withCfg c) hp, headerPhase_withCfg hw hl]
  | body => rw [advance_body hp, advance_body (s := s.withCfg c) hp, bodyPhase_withCfg hw]
  | emit => rw [advance_emit hp, advance_emit (s := s.withCfg c) hp, emitPhase_withCfg]
  | done | error =>
    have ht : s.phase.terminal = true := by rw [hp]; rfl
    rw [advance_terminal ht, advance_terminal (s := s.withCfg c) ht]; rfl

theorem step_withCfg {c : Config} {s : State} (hrule : ∀ o, c.ruleOf o = s.cfg.ruleOf o)
    (hw : c.countW = s.cfg.countW) (hl : c.lenW = s.cfg.lenW) :
    step (s.withCfg c) = outcomeWithCfg c (step s) := by
  by_cases hrst : s.noReset
  · rw [step_noReset hrst, step_noReset (s := s.withCfg c) hrst]
    exact advance_withCfg (s := { s with rst := s.rst.tail }) hrule hw hl
  · obtain ⟨r, hr⟩ := exists_rst_of_reset hrst
    rw [step_reset hr, step_reset (s := s.withCfg c) hr]; rfl

/-- Settles O53: of the parameters a step looks at the widths, and at the table by `ruleOf` alone. -/
theorem onlyTheLengthRulesMatter : Obligations.OnlyTheLengthRulesMatter := by
  intro s t c hrule hw hl ht
  have h := step_withCfg hrule hw hl
  rw [ht] at h
  exact h

end Sys2Proof.Machine
end

section
/-! The output and the reset line over a step (R35, R171), the input over a write (R39, R155), the refusal of
an ill-formed environment (R46, I10), and the byte a write offers (R46, R97, R98). -/

namespace Sys2Proof.Machine

/-! ### The output only grows -/

/-- A property of the output and the reset line is kept by every primitive change when sending a byte
keeps it. -/
theorem closed_of_output {Q : List Byte → List Bool → Prop} (send : ∀ v r b, Q v r → Q (v ++ [b]) r) :
    Closed fun s => Q s.output s.rst where
  popEvent _ _ _ hs _ _ := hs
  accept s b r t hs _ ht := by rw [acceptByte_eq_ok ht]; exact hs
  popAnswer _ _ _ hs _ := hs
  send s b _ hs := send s.output s.rst b hs
  toPhase _ _ hs := hs
  startRead _ _ _ hs := hs
  startWrite _ hs := hs
  setCurLength _ _ hs := hs
  setBodyLen _ _ hs := hs
  latch _ _ hs := hs
  raise _ _ hs := hs
  setCrc _ _ hs := hs
  writeBuf _ _ _ hs _ := hs

/-- Going on only appends to the output (R35). -/
theorem advance_output_prefix {s t : State} (h : advance s = .next t) : s.output <+: t.output := by
  have hclosed : Closed fun u => s.output <+: u.output :=
    closed_of_output (Q := fun v _ => s.output <+: v) fun v _ b hv => hv.trans (List.prefix_append v [b])
  have hall := hclosed.advance (s := s) (List.prefix_refl _)
  rw [h] at hall
  exact hall

/-- A step looks at the reset line; going on does not (R170). -/
theorem advance_rst {s t : State} (h : advance s = .next t) : t.rst = s.rst := by
  have hclosed : Closed fun u => u.rst = s.rst := closed_of_output (Q := fun _ r => r = s.rst) fun _ _ _ hr => hr
  have hall := hclosed.advance (s := s) rfl
  rw [h] at hall
  exact hall

theorem step_output_prefix {s t : State} (h : step s = .next t) : s.output <+: t.output := by
  by_cases hrst : s.noReset
  · rw [step_noReset hrst] at h
    exact advance_output_prefix (s := { s with rst := s.rst.tail }) h
  · obtain ⟨r, hr⟩ := exists_rst_of_reset hrst
    obtain rfl : applyReset _ = t := Host.Outcome.next.inj ((step_reset hr).symm.trans h)
    exact List.prefix_refl _

/-- Settles O41: the one primitive change that writes the output appends to it, and a reset leaves it
alone. -/
theorem outputOnlyGrows : Obligations.OutputOnlyGrows := by
  intro s t h
  obtain ⟨v, hv⟩ := step_output_prefix h
  exact ⟨v, hv.symm⟩

/-! ### A write takes no input -/

/-- A write that comes to a next state has read a whole packet (R97). -/
theorem exists_packet_of_emitPhase {s t : State} (h : emitPhase s = .next t) :
    ∃ v : List Byte, v.length = s.l.val + 4 ∧ s.buf.holds 0 v := by
  cases hv : packetBytes s with
  | error f => simp [emitPhase, outResume, hv] at h
  | ok v => exact ⟨v, packetBytes_eq_ok hv⟩

/-- What a read writes of the visible registers: the coming events, the count, the opcode and the length
(R42, R111). -/
def State.readSide (s : State) : List InEvent × Nat × Byte × Int :=
  (s.input, s.bytesConsumed, s.curOpcode, s.curLength)

theorem EmitEnds.readSide {u t : State} {r : List OutAnswer} {x : Host.Outcome State Fault Refusal}
    (h : EmitEnds u r x) (ht : x = .next t) : t.readSide = u.readSide := by
  cases h <;> cases ht <;> rfl

theorem emitPhase_readSide {s t : State} (h : emitPhase s = .next t) : t.readSide = s.readSide := by
  obtain ⟨v, hlen, hv⟩ := exists_packet_of_emitPhase h
  obtain ⟨n, r, -, -, ⟨-, he⟩ | ⟨-, he⟩⟩ := emitPhase_cases hv hlen
  · obtain rfl := Host.Outcome.next.inj (he.symm.trans h)
    rfl
  · exact he.readSide h

/-- In `EMIT` a step is a write, which touches nothing a read writes; `DONE` and `ERROR` are absorbing. -/
theorem advance_readSide {s t : State} (hp : s.phase = .emit ∨ s.phase.terminal = true)
    (h : advance s = .next t) : t.readSide = s.readSide := by
  rcases hp with hp | hp
  · rw [advance_emit hp] at h
    exact emitPhase_readSide h
  · rw [advance_terminal hp] at h
    exact congrArg State.readSide (Host.Outcome.next.inj h).symm

/-- Settles O43: without a reset the step is `advance`, which in these phases leaves the read side alone. -/
theorem noInputTakenWhileEmitting : Obligations.NoInputTakenWhileEmitting := by
  intro s t hrst hp ht
  rw [step_noReset hrst] at ht
  have hside : t.readSide = s.readSide := advance_readSide (s := { s with rst := s.rst.tail }) hp ht
  simpa [State.readSide] using hside

/-! ### An ill-formed environment is refused -/

/-- An `InRead` that still owes a byte refuses two events at once (R46). -/
theorem inResume_clash {s : State} {r : List InEvent} (hrem : 1 ≤ s.rdRem) (hin : s.input = .clash :: r) :
    inResume s = .refused .illFormedSource := by
  obtain ⟨k, hk⟩ := inResume_asks hrem
  exact hk.trans (inLoop_clash hin)

theorem outLoop_clash {b : Byte} {bs : List Byte} {s : State} {r : List OutAnswer}
    (ha : s.answers = .clash :: r) : outLoop (b :: bs) s = .refused .illFormedSink := by
  simp [outLoop, ha]

/-- A refused read of a command in progress is the whole step. -/
theorem advance_inRefused {s : State} {e : Refusal} (hp : s.phase = .header ∨ s.phase = .body)
    (h : inResume s = .refused e) : advance s = .refused e := by
  rcases hp with hp | hp
  · simp [advance_header hp, headerPhase, h]
  · simp [advance_body hp, bodyPhase, h]

theorem BlockInv.advance_in_clash {s : State} {r : List InEvent} (h : BlockInv s)
    (hp : s.phase = .fetch ∨ s.phase = .header ∨ s.phase = .body) (hin : s.input = .clash :: r) :
    advance s = .refused .illFormedSource := by
  rcases hp with hp | hp
  · rw [advance_fetch hp, fetchCommand_clash hin]
  · exact advance_inRefused hp (inResume_clash (h.byteOwed hp) hin)

theorem BlockInv.advance_out_clash {s : State} {r : List OutAnswer} (h : BlockInv s)
    (hp : s.phase = .emit) (ha : s.answers = .clash :: r) : advance s = .refused .illFormedSink := by
  obtain ⟨b, bs, ho⟩ := h.outResume_offers hp
  simp [advance_emit hp, emitPhase, ho.trans (outLoop_clash ha)]

/-- The input pins give two events at once exactly when two of the three are set (R46). -/
theorem inPins_event_eq_clash (p : InPins) : p.event = .clash ↔
    (p.inValid && p.inEos || p.inValid && p.inErr || p.inEos && p.inErr) = true := by
  obtain ⟨valid, data, eos, err, info⟩ := p
  cases valid <;> cases eos <;> cases err <;> simp [InPins.event]

/-- The answer pins likewise (R46). -/
theorem outPins_answer_eq_clash (p : OutPins) : p.answer = .clash ↔
    (p.outReady && p.outRefuse || p.outReady && p.outErr || p.outRefuse && p.outErr) = true := by
  obtain ⟨ready, refuse, err, info⟩ := p
  cases ready <;> cases refuse <;> cases err <;> simp [OutPins.answer]

/-- Settles O50: by the invariant a reading phase owes a byte and `EMIT` has one to offer, so the clash is
looked at; the pins are a truth table. -/
theorem illFormedEnvironmentIsRefused : Obligations.IllFormedEnvironmentIsRefused := by
  refine ⟨fun s rest hinv hrst hp hin => ?_, fun s rest hinv hrst hp ha => ?_, inPins_event_eq_clash,
    outPins_answer_eq_clash⟩
  · rw [step_noReset hrst]
    exact (hinv.withRst _).advance_in_clash hp hin
  · rw [step_noReset hrst]
    exact (hinv.withRst _).advance_out_clash hp ha

/-! ### The byte offered -/

/-- What the buffer holds is read back, index by index. -/
theorem Memory.read_of_holds {m : Memory} {v : List Byte} (h : m.holds 0 v) {a : Nat} (ha : a < v.length) :
    m.read a = v[a]? := by
  rw [List.getElem?_eq_getElem ha, ← h a ha, Nat.zero_add]

/-- The last byte of a packet is its checksum (R98). -/
theorem frame_getElem?_last (o : Byte) (body : List Byte) :
    (frame o body)[body.length + 3]? = some (crc8 (o :: body)) := by
  simp [frame]

/-- Settles O51: the invariant has the packet in the buffer and `OUT_IDX` inside it. -/
theorem offeredByteIsThePacketByte : Obligations.OfferedByteIsThePacketByte := by
  intro s hinv hp
  obtain ⟨hidx, -, body, hl, hv⟩ := hinv.inEmit hp
  have hvalid : s.outValid = true := by simp [State.outValid, hp, hidx]
  have hdata : s.outData = (frame s.curOpcode body)[s.outIdx]? := by
    rw [State.outData, if_pos hvalid, Memory.read_of_holds hv (by rw [frame_length, hl]; exact hidx)]
  refine ⟨body, hl, hv, hvalid, hdata, fun hlast => ?_⟩
  have hend : s.outIdx = body.length + 3 := by
    rw [hl]
    simpa [State.outLast, hvalid] using hlast
  rw [hdata, hend, frame_getElem?_last]

end Sys2Proof.Machine
end

section
/-! Store and forward (R34, R142 to R146, R153): a step reads first, and puts out nothing until the packet
is whole; what it puts out then is a run of the packet's bytes. -/

namespace Sys2Proof.Machine

/-! ### The reading part of a step -/

/-- From `s` to `u` events were taken off the head of the input, nothing was put out and no answer was
asked for. -/
structure ReadsTo (s u : State) : Prop where
  input : u.input <:+ s.input
  answers : u.answers = s.answers
  output : u.output = s.output

theorem ReadsTo.refl (s : State) : ReadsTo s s := ⟨List.suffix_rfl, rfl, rfl⟩

theorem ReadsTo.trans {s u w : State} (h : ReadsTo s u) (h' : ReadsTo u w) : ReadsTo s w :=
  ⟨h'.input.trans h.input, h'.answers.trans h.answers, h'.output.trans h.output⟩

theorem ReadsTo.drop {s u : State} {ev : InEvent} {r : List InEvent} (h : ReadsTo s u)
    (hin : u.input = ev :: r) : ReadsTo s { u with input := r } :=
  ⟨(hin ▸ List.suffix_cons ev r : r <:+ u.input).trans h.input, h.answers, h.output⟩

/-- What the reading part of a step from `s` comes to: the step ends without an error, or is refused, or
enters `ERROR` with nothing put out, or goes on to write the packet of the command it has read. -/
inductive ReadEnds (s : State) : Host.Outcome State Fault Refusal → Prop
  | running (t : State) (ht : t.phase ≠ .error) : ReadEnds s (.next t)
  | refused (r : Refusal) : ReadEnds s (.refused r)
  | command (x : ErrClass) (u : State) (hu : ReadsTo s u)
      (hx : x.code ∈ [.unknownOpcode, .truncatedInput, .internalTableInconsistency]) :
      ReadEnds s (.next (raiseError x u))
  | source (e : IoErr) (r : List InEvent) (u : State) (hu : ReadsTo s u) (hin : u.input = .err e :: r) :
      ReadEnds s (.next (raiseError (.ioFailure e) { u with input := r }))
  | emits (u : State) (body : List Byte) (hu : ReadsTo s u) (hp : u.phase = .emit) (hidx : u.outIdx = 0)
      (hl : body.length = u.l.val) (hv : u.buf.holds 0 (frame u.curOpcode body)) :
      ReadEnds s (emitPhase u)

/-- What was read before is read from where it began. -/
theorem ReadEnds.after {s s' : State} {x : Host.Outcome State Fault Refusal} (h : ReadEnds s' x)
    (hs : ReadsTo s s') : ReadEnds s x := by
  cases h with
  | running t ht => exact .running t ht
  | refused r => exact .refused r
  | command c u hu hc => exact .command c u (hs.trans hu) hc
  | source e r u hu hin => exact .source e r u (hs.trans hu) hin
  | emits u body hu hp hidx hl hv => exact .emits u body (hs.trans hu) hp hidx hl hv

theorem readsTo_received {s : State} {bs : List Byte} {r : List InEvent}
    (hin : s.input = bs.map .byte ++ r) : ReadsTo s (received bs r s) :=
  ⟨hin ▸ List.suffix_append _ _, rfl, rfl⟩

/-- A read of a command that is cut short. -/
theorem CutShort.readEnds {u : State} {x : Host.Outcome State Fault Refusal} (h : CutShort u u.input x)
    (hp : u.phase ≠ .error) : ReadEnds u x := by
  generalize hin : u.input = r at h
  cases h with
  | silent => exact .running u hp
  | wait r => exact .running _ hp
  | eos r => exact .command .truncatedInput _ ((ReadsTo.refl u).drop hin) (by simp [ErrClass.code])
  | err e r => exact .source e r u (.refl u) hin
  | clash r => exact .refused _

/-- The body is read: SEQ_EMIT seals its packet and goes on to write it (R118). -/
theorem Reading.seqEmit_readEnds {s : State} {body : List Byte} (h : Reading s body)
    (hl : body.length = s.l.val) : ReadEnds s (seqEmit s) := by
  rw [seqEmit_eq h.holds hl]
  exact .emits _ body ⟨List.suffix_rfl, rfl, rfl⟩ rfl rfl hl (sealedBuf_holds h.startByteHeld h.holds)

theorem Reading.bodyPhase_readEnds {s : State} {got : List Byte} (h : Reading s got)
    (hp : s.phase = .body) (howed : got.length + s.rdRem = s.l.val) : ReadEnds s (bodyPhase s) := by
  have h32 := s.l.isLt
  have hidx := h.next
  obtain ⟨bs, r, hin, ⟨hk, he⟩ | ⟨-, he⟩⟩ := bodyPhase_cases (s := s) (by omega) (by omega)
  · have hr : Reading (received bs r s) (got ++ bs) := h.receive r (by omega)
    rw [he]
    exact (hr.seqEmit_readEnds (by simp; omega)).after (readsTo_received hin)
  · exact (he.readEnds (by simp [hp])).after (readsTo_received hin)

/-- The header is read: the count, its range check, the data (R115). -/
theorem Reading.resolveCount_readEnds {s : State} {got : List Byte} (h : Reading s got)
    (hl : got.length = 3) : ReadEnds s (resolveCount s) := by
  have hc : s.buf.read 5 = some got[2] := (Memory.holds_cons.1 h.holds).2 2 (by omega)
  by_cases hover : 29 < got[2].toNat
  · rw [resolveCount_over hc hover]
    exact .command _ _ ⟨List.suffix_rfl, rfl, rfl⟩ (by simp [ErrClass.code])
  · obtain ⟨l, hcl⟩ : ∃ l : BodyLen, got[2].toNat + 3 = l.val := ⟨⟨got[2].toNat + 3, by omega⟩, rfl⟩
    have howed : got.length + got[2].toNat = l.val := by omega
    rw [resolveCount_in hc hcl]
    exact ((h.beginBody (n := got[2].toNat) (i := 6) (by omega) howed).bodyPhase_readEnds rfl howed).after
      ⟨List.suffix_rfl, rfl, rfl⟩

theorem Reading.headerPhase_readEnds {s : State} {got : List Byte} (h : Reading s got)
    (hp : s.phase = .header) (howed : got.length + s.rdRem = 3) : ReadEnds s (headerPhase s) := by
  have hidx := h.next
  obtain ⟨bs, r, hin, ⟨hk, he⟩ | ⟨-, he⟩⟩ := headerPhase_cases (s := s) (by omega) (by omega)
  · have hr : Reading (received bs r s) (got ++ bs) := h.receive r (by omega)
    rw [he]
    exact (hr.resolveCount_readEnds (by simp; omega)).after (readsTo_received hin)
  · exact (he.readEnds (by simp [hp])).after (readsTo_received hin)

/-- A command of format F, its opcode latched (R113). -/
theorem Reading.fixedCommand_readEnds {s : State} (h : Reading s []) (n : Int) :
    ReadEnds s (fixedCommand n s) := by
  by_cases hn : n < 0 ∨ 32 < n
  · rw [fixedCommand_out hn]
    exact .command _ _ ⟨List.suffix_rfl, rfl, rfl⟩ (by simp [ErrClass.code])
  · obtain ⟨l, rfl⟩ : ∃ l : BodyLen, n = (l.val : Int) := ⟨⟨n.toNat, by omega⟩, by simp; omega⟩
    rw [fixedCommand_in]
    exact ((h.beginBody (n := l.val) (l := l) (i := 3) rfl (Nat.zero_add _)).bodyPhase_readEnds rfl
      (Nat.zero_add _)).after ⟨List.suffix_rfl, rfl, rfl⟩

/-- A command of format E, its opcode latched (R115). -/
theorem Reading.embeddedCommand_readEnds {s : State} (h : Reading s []) : ReadEnds s (embeddedCommand s) :=
  (h.beginHeader.headerPhase_readEnds rfl rfl).after ⟨List.suffix_rfl, rfl, rfl⟩

theorem Healthy.fetchCommand_readEnds {s : State} (h : Healthy s) (hp : s.phase = .fetch) :
    ReadEnds s (fetchCommand s) := by
  have hne : s.phase ≠ .error := by simp [hp]
  match hin : s.input with
  | [] => rw [fetchCommand_end hin]; exact .running _ hne
  | .wait :: r => rw [fetchCommand_wait hin]; exact .running _ hne
  | .eos :: r => rw [fetchCommand_eos hp hin]; exact .running _ (by simp)
  | .err e :: r =>
    rw [fetchCommand_err hin]
    exact .source e r { s with rdIdx := 2, rdRem := 1 } ⟨List.suffix_rfl, rfl, rfl⟩ hin
  | .clash :: r => rw [fetchCommand_clash hin]; exact .refused _
  | .byte o :: r =>
    have hr : Reading (fetched o r s) [] := h.reading_fetched o r
    have hs : ReadsTo s (fetched o r s) := ⟨hin ▸ List.suffix_cons _ r, rfl, rfl⟩
    rw [fetchCommand_byte hin, runCommand_decodeByte (s := fetched o r s) hp]
    cases s.cfg.ruleOf o with
    | none => exact .command .unknownOpcode _ hs (by simp [ErrClass.code])
    | some rule =>
      cases rule with
      | fixed n => exact (hr.fixedCommand_readEnds n).after hs
      | embedded => exact hr.embeddedCommand_readEnds.after hs

/-- A step that begins in a reading phase. -/
theorem BlockInv.advance_readEnds {s : State} (h : BlockInv s) (hp : s.phase ≠ .emit)
    (hne : s.phase ≠ .error) : ReadEnds s (advance s) := by
  cases hph : s.phase with
  | fetch => rw [advance_fetch hph]; exact (h.healthy hne).fetchCommand_readEnds hph
  | header =>
    obtain ⟨got, hr⟩ := h.exists_reading (.inl hph)
    obtain ⟨-, -, howed, -⟩ := h.inHeader hph
    rw [advance_header hph]
    exact hr.headerPhase_readEnds hph (by have := hr.next; omega)
  | body =>
    obtain ⟨got, hr⟩ := h.exists_reading (.inr hph)
    obtain ⟨-, -, howed, -⟩ := h.inBody hph
    rw [advance_body hph]
    exact hr.bodyPhase_readEnds hph (by have := hr.next; omega)
  | emit => exact absurd hph hp
  | done => rw [advance_terminal (by rw [hph]; rfl)]; exact .running s hne
  | error => exact absurd hph hne

/-! ### The writing part -/

/-- From `s` to `t` the sink took the bytes of the packet in the buffer from the `j`th up to `OUT_IDX`, not
all that are left, and answered the next with `last`. -/
def PartlySent (s : State) (j : Nat) (last : OutAnswer) (t : State) : Prop :=
  ∃ body : List Byte, j ≤ t.outIdx ∧ t.outIdx < t.l.val + 4 ∧ body.length = t.l.val ∧
    t.buf.holds 0 (frame t.curOpcode body) ∧
    s.answers = List.replicate (t.outIdx - j) .accept ++ last :: t.answers ∧
    t.output = s.output ++ ((frame t.curOpcode body).take t.outIdx).drop j

theorem partlySent_sent {s : State} {body : List Byte} {n : Nat} {last : OutAnswer} {r : List OutAnswer}
    (hl : body.length = s.l.val) (hv : s.buf.holds 0 (frame s.curOpcode body))
    (hn : n < ((frame s.curOpcode body).drop s.outIdx).length)
    (ha : s.answers = List.replicate n .accept ++ last :: r) :
    PartlySent s s.outIdx last
      { sent (((frame s.curOpcode body).drop s.outIdx).take n) (last :: r) s with answers := r } := by
  have hidx : s.outIdx + (((frame s.curOpcode body).drop s.outIdx).take n).length = s.outIdx + n := by
    rw [List.length_take, Nat.min_eq_left (Nat.le_of_lt hn)]
  rw [List.length_drop, frame_length, hl] at hn
  refine ⟨body, ?_, ?_, hl, hv, ?_, ?_⟩ <;> simp only [sent_outIdx, sent_l, sent_output, sent_curOpcode, hidx]
  · omega
  · omega
  · rw [Nat.add_sub_cancel_left]; exact ha
  · rw [List.take_drop]

/-- What phase `EMIT` comes to: no error, a refusal, or a write the sink has stopped. -/
inductive WriteEnds (s : State) : Host.Outcome State Fault Refusal → Prop
  | running (t : State) (ht : t.phase ≠ .error) : WriteEnds s (.next t)
  | refused (r : Refusal) : WriteEnds s (.refused r)
  | stopped (x : ErrClass) (last : OutAnswer) (u : State)
      (hx : x = .shortWrite ∧ last = .refuse ∨ ∃ e, x = .ioFailure e ∧ last = .err e)
      (hu : PartlySent s s.outIdx last u) : WriteEnds s (.next (raiseError x u))

theorem emitPhase_writeEnds {s : State} {body : List Byte} (hp : s.phase = .emit)
    (hl : body.length = s.l.val) (hv : s.buf.holds 0 (frame s.curOpcode body)) :
    WriteEnds s (emitPhase s) := by
  obtain ⟨n, r, -, ha, ⟨-, he⟩ | ⟨hlt, he⟩⟩ := emitPhase_cases hv (by rw [frame_length, hl])
  · rw [he]; exact .running _ (by simp)
  · generalize emitPhase s = x at he
    cases he with
    | silent => exact .running _ (by simp [hp])
    | wait r => exact .running _ (by simp [hp])
    | refuse r => exact .stopped _ .refuse _ (.inl ⟨rfl, rfl⟩) (partlySent_sent hl hv hlt ha)
    | err e r => exact .stopped _ (.err e) _ (.inr ⟨e, rfl, rfl⟩) (partlySent_sent hl hv hlt ha)
    | clash r => exact .refused _

/-! ### Error entry -/

/-- How a step from `s` has entered `ERROR` in `t`, `j` bytes of its packet being out before it: with
nothing put out, on an error of the command or of the source, or with the packet partly sent. -/
inductive ErrorEntry (s : State) (j : Nat) (t : State) : Prop
  | command (hcode : t.errCode ∈ [.unknownOpcode, .truncatedInput, .internalTableInconsistency])
      (hout : t.output = s.output) (hans : t.answers = s.answers)
  | source (e : IoErr) (taken : List InEvent) (hcode : t.errCode = .ioFailure) (hio : t.ioErr = some e)
      (hin : s.input = taken ++ .err e :: t.input) (hout : t.output = s.output)
      (hans : t.answers = s.answers)
  | sink (last : OutAnswer) (hcode : t.errCode = .shortWrite ∧ last = .refuse ∨
        ∃ e, t.errCode = .ioFailure ∧ t.ioErr = some e ∧ last = .err e)
      (hsent : PartlySent s j last t)

theorem WriteEnds.errorEntry {s u t : State} {x : Host.Outcome State Fault Refusal} (h : WriteEnds u x)
    (hx : x = .next t) (ht : t.phase = .error) (ha : u.answers = s.answers) (ho : u.output = s.output) :
    ErrorEntry s u.outIdx t := by
  cases h with
  | running t' ht' => cases hx; exact absurd ht ht'
  | refused r => cases hx
  | stopped c last w hc hw =>
    cases hx
    refine .sink last ?_ (by unfold PartlySent at hw ⊢; rwa [ha, ho] at hw)
    rcases hc with ⟨rfl, rfl⟩ | ⟨e, rfl, rfl⟩
    · exact .inl ⟨rfl, rfl⟩
    · exact .inr ⟨e, rfl, rfl, rfl⟩

theorem ReadEnds.errorEntry {s t : State} {x : Host.Outcome State Fault Refusal} (h : ReadEnds s x)
    (hx : x = .next t) (ht : t.phase = .error) : ErrorEntry s 0 t := by
  cases h with
  | running t' ht' => cases hx; exact absurd ht ht'
  | refused r => cases hx
  | command c u hu hc => cases hx; exact .command hc hu.output hu.answers
  | source e r u hu hin =>
    cases hx
    obtain ⟨taken, htaken⟩ := hu.input
    exact .source e taken rfl rfl (by rw [← htaken, hin]; rfl) hu.output hu.answers
  | emits u body hu hp hidx hl hv =>
    exact hidx ▸ (emitPhase_writeEnds hp hl hv).errorEntry hx ht hu.answers hu.output

/-- Every way a step enters `ERROR`. -/
theorem BlockInv.errorEntry {s t : State} (h : BlockInv s) (hne : s.phase ≠ .error)
    (hs : advance s = .next t) (ht : t.phase = .error) :
    ErrorEntry s (if s.phase = .emit then s.outIdx else 0) t := by
  by_cases hp : s.phase = .emit
  · obtain ⟨-, -, body, hl, hv⟩ := h.inEmit hp
    rw [advance_emit hp] at hs
    rw [if_pos hp]
    exact (emitPhase_writeEnds hp hl hv).errorEntry hs ht rfl rfl
  · rw [if_neg hp]
    exact (h.advance_readEnds hp hne).errorEntry hs ht

/-- A read-side code is no code of a failed write, nor IoFailure (R141). -/
theorem not_mem_ioCodes {c : ErrCode}
    (h : c ∈ [.unknownOpcode, .truncatedInput, .internalTableInconsistency]) :
    c ∉ [.ioFailure, .shortWrite] := by
  cases c <;> simp at h ⊢

/-- Settles O44: a step enters `ERROR` in one of three ways, and its code tells which, but that IoFailure
comes from the source or from the sink. -/
theorem partialPacketsOnlyFromWrites : Obligations.PartialPacketsOnlyFromWrites := by
  intro s t hinv hrst hne hs ht
  rw [step_noReset hrst] at hs
  cases (hinv.withRst s.rst.tail).errorEntry hne hs ht with
  | command hcode hout hans => exact ⟨fun _ => ⟨hout, hans⟩, fun hio => absurd hio (not_mem_ioCodes hcode)⟩
  | source e taken hcode hio hin hout hans =>
    exact ⟨fun _ => ⟨hout, hans⟩, fun _ => .inl ⟨e, taken, hcode, hio, hin, hout, hans⟩⟩
  | sink last hcode hsent =>
    obtain ⟨body, hj, hidx, hl, hv, ha, ho⟩ := hsent
    have hio : t.errCode ∈ [.ioFailure, .shortWrite] := by
      rcases hcode with ⟨hc, -⟩ | ⟨e, hc, -⟩ <;> simp [hc]
    exact ⟨fun hread => absurd hio (not_mem_ioCodes hread),
      fun _ => .inr ⟨last, body, _, hcode, rfl, hj, hidx, hl, hv, ha, ho⟩⟩

end Sys2Proof.Machine
end

section
/-! Waits do not show (R43, R47, R164): a run and the same run with the waits taken out keep level, but for
the time the first is held partway through a step of the second. -/

namespace Sys2Proof.Machine

/-- `s` has made `d` steps more than `w`, in which no wait is to come: it is `w` but for its waits, or it
is held partway through the step `w` takes next, and has put out at least what `w` has. -/
inductive Ahead (s w : State) : Nat → Prop
  | level (d : Nat) (h : s.withoutWaits = w) : Ahead s w d
  | partway (d : Nat) (hs : s.phase.terminal = false) (hw : w.phase.terminal = false)
      (hout : w.output <+: s.output) (hnext : advance s.withoutWaits = advance w) : Ahead s w (d + 1)

variable {s t w u : State} {d j k n : Nat}

theorem Ahead.advance_eq (h : Ahead s w d) : advance s.withoutWaits = advance w := by
  cases h with
  | level _ h => rw [h]
  | partway _ _ _ _ hnext => exact hnext

theorem Ahead.output_prefix (h : Ahead s w d) : w.output <+: s.output := by
  cases h with
  | level _ h => subst h; exact List.prefix_refl _
  | partway _ _ _ hout _ => exact hout

/-- At a terminal phase of either state nothing is partway. -/
theorem Ahead.eq_of_terminal (h : Ahead s w d) (ht : s.phase.terminal = true ∨ w.phase.terminal = true) :
    s.withoutWaits = w := by
  cases h with
  | level _ h => exact h
  | partway _ hs hw _ _ => simp [hs, hw] at ht

/-- A step of `s` is a step of `w` as well, or uses up a wait. -/
theorem Ahead.advance_cases (h : Ahead s w d) (ht : advance s = .next t) :
    (t.waits ≤ s.waits ∧ advance w = .next t.withoutWaits) ∨ (t.waits < s.waits ∧ Ahead t w (d + 1)) := by
  have hstep := advance_waits s
  rw [ht, h.advance_eq] at hstep
  generalize hw : advance w = y at hstep
  cases hstep with
  | same _ hle => exact .inl ⟨hle, rfl⟩
  | held _ hlt htp =>
    have hsp : ¬s.phase.terminal = true := fun hs => by
      rw [advance_terminal hs] at ht
      obtain rfl := Host.Outcome.next.inj ht
      exact Nat.lt_irrefl _ hlt
    have hwp : w.phase.terminal = false := by
      cases h with
      | level _ h => subst h; exact Bool.eq_false_iff.2 hsp
      | partway _ _ hwp _ _ => exact hwp
    exact .inr ⟨hlt, .partway d htp hwp (h.output_prefix.trans (advance_output_prefix ht)) hw.symm⟩

/-- Where `w` has a next state, so has `s`: a wait only holds it (R164). -/
theorem Ahead.exists_advance (h : Ahead s w d) (hw : advance w = .next u) : ∃ t, advance s = .next t := by
  have hstep := advance_waits s
  rw [h.advance_eq, hw] at hstep
  generalize advance s = x at hstep
  generalize hy : Host.Outcome.next u = y at hstep
  cases hstep with
  | same x _ =>
    cases x with
    | next t => exact ⟨t, rfl⟩
    | fault f => cases hy
    | refused r => cases hy
  | held t _ _ => exact ⟨t, rfl⟩

/-! ### Runs with the reset line idle -/

theorem step_idle (h : s.rst = []) : step s = advance s := by simp [step, h]

theorem run_output_prefix (h : Host.Core.run core k s = .next t) : s.output <+: t.output := by
  induction k generalizing s with
  | zero => cases h; exact List.prefix_refl _
  | succ k ih =>
    obtain ⟨u, hu, hr⟩ := exists_step_of_run h
    exact (step_output_prefix hu).trans (ih hr)

theorem run_rst (hs : s.rst = []) (h : Host.Core.run core k s = .next t) : t.rst = [] := by
  induction k generalizing s with
  | zero => cases h; exact hs
  | succ k ih =>
    obtain ⟨u, hu, hr⟩ := exists_step_of_run h
    exact ih ((advance_rst ((step_idle hs).symm.trans hu)).trans hs) hr

theorem run_terminal (h : s.phase.terminal = true) (hrst : s.rst = []) (k : Nat) :
    Host.Core.run core k s = .next s := by
  induction k with
  | zero => rfl
  | succ k ih => rw [run_succ_next ((step_idle hrst).trans (advance_terminal h)), ih]

theorem run_add (h : Host.Core.run core j s = .next t) (k : Nat) :
    Host.Core.run core (j + k) s = Host.Core.run core k t := by
  induction j generalizing s with
  | zero => cases h; rw [Nat.zero_add]
  | succ j ih =>
    obtain ⟨u, hu, hr⟩ := exists_step_of_run h
    rw [Nat.succ_add_eq_add_succ, Nat.add_succ, run_succ_next hu, ih hr]

/-- A run of `s` beside one of `w`: every step that is not a step of `w` uses up a wait. -/
theorem Ahead.exists_run (h : Ahead s w d) (hs : s.rst = []) (hw : w.rst = [])
    (hr : Host.Core.run core k s = .next t) : ∃ j e u, Host.Core.run core j w = .next u ∧ Ahead t u e ∧
      j + e = k + d ∧ k + t.waits ≤ j + s.waits := by
  induction k generalizing s w d with
  | zero => cases hr; exact ⟨0, d, w, rfl, h, rfl, Nat.le_refl _⟩
  | succ k ih =>
    obtain ⟨s', hs', hr⟩ := exists_step_of_run hr
    rw [step_idle hs] at hs'
    have hrst : s'.rst = [] := (advance_rst hs').trans hs
    rcases h.advance_cases hs' with ⟨hle, hw'⟩ | ⟨hlt, h'⟩
    · obtain ⟨j, e, u, hj, ha, hsum, hwaits⟩ := ih (.level d rfl) hrst hrst hr
      exact ⟨j + 1, e, u, by rw [run_succ_next ((step_idle hw).trans hw'), hj], ha, by omega, by omega⟩
    · obtain ⟨j, e, u, hj, ha, hsum, hwaits⟩ := ih h' hrst hw hr
      exact ⟨j, e, u, hj, ha, by omega, by omega⟩

/-- By the `d`th further step `w` has put out what `s` has. -/
theorem Ahead.output_prefix_run (h : Ahead s w d) (hw : w.rst = [])
    (hr : Host.Core.run core k w = .next u) (hd : d ≤ k) : s.output <+: u.output := by
  cases h with
  | level _ h => subst h; exact run_output_prefix (s := s.withoutWaits) hr
  | partway d _ _ _ hnext =>
    obtain ⟨k, rfl⟩ := Nat.exists_eq_add_of_le' (Nat.le_of_add_left_le hd)
    obtain ⟨w', hw', hr⟩ := exists_step_of_run hr
    rw [step_idle hw, ← hnext] at hw'
    exact (advance_output_prefix hw').trans (run_output_prefix hr)

/-- Once `w` is at a terminal phase `s` is level with it for good (R155). -/
theorem Ahead.run_at_terminal (h : Ahead s w d) (hs : s.rst = []) (hw : w.phase.terminal = true) (n : Nat) :
    ∃ t, Host.Core.run core n s = .next t ∧ t.withoutWaits = w := by
  have heq : s.withoutWaits = w := h.eq_of_terminal (.inr hw)
  have hsp : s.phase.terminal = true := by rw [← withoutWaits_phase, heq]; exact hw
  exact ⟨s, run_terminal hsp hs n, heq⟩

/-- Where `w` comes to a terminal phase, so does `s`, at the latest once its waits are used up. -/
theorem Ahead.run_to_terminal (h : Ahead s w d) (hs : s.rst = []) (hw : w.rst = [])
    (hr : Host.Core.run core j w = .next u) (hu : u.phase.terminal = true) (hn : j + s.waits ≤ n) :
    ∃ t, Host.Core.run core n s = .next t ∧ t.withoutWaits = u := by
  induction n generalizing s w d j with
  | zero =>
    obtain rfl : j = 0 := by omega
    cases hr
    exact h.run_at_terminal hs hu 0
  | succ n ih =>
    cases j with
    | zero => cases hr; exact h.run_at_terminal hs hu (n + 1)
    | succ j =>
      obtain ⟨w', hw', hr'⟩ := exists_step_of_run hr
      rw [step_idle hw] at hw'
      obtain ⟨s', hs'⟩ := h.exists_advance hw'
      have hrst : s'.rst = [] := (advance_rst hs').trans hs
      rw [run_succ_next ((step_idle hs).trans hs')]
      rcases h.advance_cases hs' with ⟨hle, hnext⟩ | ⟨hlt, h'⟩
      · obtain rfl := Host.Outcome.next.inj (hnext.symm.trans hw')
        exact ih (.level d rfl) hrst hrst hr' (by omega)
      · exact ih h' hrst hw hr (by omega)

/-- Settles O58: both runs are ahead of the one run without waits, whose steps each makes but for the steps
its waits use up. -/
theorem waitsDoNotShow : Obligations.WaitsDoNotShow := by
  intro s₁ s₂ t₁ k hrst heq hr₁
  have hw : s₁.withoutWaits.rst = [] := hrst
  have hrst₂ : s₂.rst = [] := (congrArg State.rst heq).symm.trans hrst
  have h₂ : Ahead s₂ s₁.withoutWaits 0 := .level 0 heq.symm
  obtain ⟨j, e, u, hj, ha, hsum, -⟩ := (Ahead.level (s := s₁) 0 rfl).exists_run hrst hw hr₁
  refine ⟨fun ht => ?_, fun t₂ hr₂ => ?_⟩
  · obtain rfl := ha.eq_of_terminal (.inl ht)
    obtain ⟨t₂, hr₂, hlevel⟩ := h₂.run_to_terminal hrst₂ hw hj ht (n := k + s₂.waits) (by omega)
    have hobs : t₂.withoutWaits.observe = t₁.withoutWaits.observe := congrArg State.observe hlevel
    exact ⟨t₂, hr₂, hlevel, hobs⟩
  · obtain ⟨i, e', u', hi, ha', -, hwaits⟩ := h₂.exists_run hrst₂ hw hr₂
    obtain ⟨n, rfl⟩ := Nat.exists_eq_add_of_le (show j ≤ i by omega)
    rw [run_add hj] at hi
    obtain ⟨v, hv⟩ := (ha.output_prefix_run (run_rst hw hj) hi (by omega)).trans ha'.output_prefix
    exact ⟨v, hv.symm⟩

end Sys2Proof.Machine
end

section
/-! The decoder and the encoders of the two streams (R51 to R53, R61, R100): each reader accepts exactly what
its encoder writes for a well-formed instruction. -/

namespace Sys2Proof.Machine

/-! ### The input stream -/

/-- What the decoder reads from an opcode byte is well formed and is written as that byte (R61). -/
theorem decodeByte_sound (c : Config) (o : Byte) :
    (decodeByte c o).wf c = true ∧ encode c (decodeByte c o) = some [.byte o] := by
  unfold decodeByte
  split
  next h =>
    split
    next ho => subst ho; simpa [Instr.wf, encode] using h
    next ho => simpa [Instr.wf, encode, h] using ho
  next n h =>
    split
    next hn => obtain ⟨rfl, rfl⟩ := hn; simpa [Instr.wf, encode] using h
    next hn => simpa [Instr.wf, encode, h] using not_and_or.1 hn
  next h =>
    split
    next ho => subst ho; simp [Instr.wf, encode, h]
    next ho => simp [Instr.wf, encode, h, ho]

/-- The opcode byte of a well-formed instruction decodes to it (R61). -/
theorem decodeByte_of_encode {c : Config} {i : Instr} {o : Byte} (hw : i.wf c = true)
    (he : encode c i = some [.byte o]) : decodeByte c o = i := by
  cases i with
  | changeTool | toolAction | opcode00 | cmdFixed _ _ | cmdEmbedded _ | cmdUnknown _ =>
    obtain rfl : _ = o := by simpa [encode] using he
    simp_all [Instr.wf, decodeByte, imp_iff_not_or]
  | _ => simp [encode] at he

theorem decodeByte_eq_iff {c : Config} {i : Instr} {o : Byte} :
    decodeByte c o = i ↔ i.wf c = true ∧ encode c i = some [.byte o] :=
  ⟨fun h => h ▸ decodeByte_sound c o, fun h => decodeByte_of_encode h.1 h.2⟩

/-- An instruction is written as its opcode byte, and SEQ_EOS alone as the end of stream (R61, R119). -/
theorem encode_eq_some {c : Config} {i : Instr} {es : List InEvent} (h : encode c i = some es) :
    (∃ o, es = [.byte o]) ∨ (es = [.eos] ∧ i = .seqEos) := by
  cases i with
  | changeTool | toolAction | opcode00 | cmdFixed _ _ | cmdEmbedded _ | cmdUnknown _ =>
    exact .inl ⟨_, (Option.some.inj h).symm⟩
  | seqEos => exact .inr ⟨(Option.some.inj h).symm, rfl⟩
  | _ => cases h

/-- Only an opcode byte and the end of stream decode (R111, R119). -/
theorem decode_eq_ok {c : Config} {evs rest : List InEvent} {i : Instr} (h : decode c evs = .ok (i, rest)) :
    (∃ o, evs = .byte o :: rest ∧ decodeByte c o = i) ∨ (evs = .eos :: rest ∧ i = .seqEos) := by
  match evs, h with
  | .byte o :: _, h => cases h; exact .inl ⟨o, rfl, rfl⟩
  | .eos :: _, h => cases h; exact .inr ⟨rfl, rfl⟩

/-- The decoder accepts exactly what the encoder writes for a well-formed instruction, and leaves the rest
of the stream (R51, R52, R61). -/
theorem decode_eq_ok_iff {c : Config} {evs rest : List InEvent} {i : Instr} :
    decode c evs = .ok (i, rest) ↔ i.wf c = true ∧ ∃ es, encode c i = some es ∧ evs = es ++ rest := by
  constructor
  · intro h
    rcases decode_eq_ok h with ⟨o, rfl, hd⟩ | ⟨rfl, rfl⟩
    · obtain ⟨hw, he⟩ := decodeByte_eq_iff.1 hd
      exact ⟨hw, _, he, rfl⟩
    · exact ⟨rfl, _, rfl, rfl⟩
  · rintro ⟨hw, es, he, rfl⟩
    rcases encode_eq_some he with ⟨o, rfl⟩ | ⟨rfl, rfl⟩
    · simp [decode, decodeByte_of_encode hw he]
    · rfl

/-! ### The packet -/

/-- A packet of format P reads back (R100 (f)). -/
theorem decodePacket_frame {o : Byte} {body : List Byte} (h : body.length ≤ 32) :
    decodePacket (frame o body) = .ok (.frame o body) := by
  have hn : (BitVec.ofNat 8 (body.length + 1)).toNat = body.length + 1 := by
    simp only [BitVec.toNat_ofNat]; omega
  simpa [frame, decodePacket, hn] using Nat.lt_succ_of_le h

/-- A byte sequence that reads as a packet is the packet it reads as (R53). -/
theorem decodePacket_eq_ok {p : List Byte} {i : Instr} (h : decodePacket p = .ok i) :
    ∃ o body, body.length ≤ 32 ∧ i = .frame o body ∧ p = frame o body := by
  match p, h with
  | st :: n :: o :: rest, h =>
    simp only [decodePacket] at h
    split_ifs at h with hst hn hsize hcrc
    rw [not_not] at hst hsize hcrc
    have hne : rest ≠ [] := List.ne_nil_of_length_pos (by omega)
    obtain ⟨body, c, rfl⟩ := (List.eq_nil_or_concat' rest).resolve_left hne
    have hlen : n.toNat = body.length + 1 := by simpa using hsize.symm
    have hbyte : n = BitVec.ofNat 8 (body.length + 1) := by rw [← hlen]; simp
    have htake : (body ++ [c]).take (n.toNat - 1) = body := by simp [hlen]
    rw [htake] at h hcrc
    have hc : c = crc8 (o :: body) := by simpa [hlen] using hcrc
    cases h
    exact ⟨o, body, by omega, rfl, by simp [frame, hst, ← hbyte, hc]⟩

/-- The reader of format P accepts exactly the packets of well-formed FRAMEs (R53, R100 (f)). -/
theorem decodePacket_eq_ok_iff {c : Config} {p : List Byte} {i : Instr} :
    decodePacket p = .ok i ↔ i.wf c = true ∧ encodePacket i = some p := by
  constructor
  · intro h
    obtain ⟨o, body, hlen, rfl, rfl⟩ := decodePacket_eq_ok h
    exact ⟨decide_eq_true hlen, rfl⟩
  · rintro ⟨hw, he⟩
    cases i with
    | frame o body => cases he; exact decodePacket_frame (of_decide_eq_true hw)
    | _ => cases he

/-- Settles O19: each reader's equivalence read backwards, and the decoder's on one byte. -/
theorem decodeEncodeAgree : Obligations.DecodeEncodeAgree := fun _ _ hw =>
  ⟨fun es _ he => decode_eq_ok_iff.2 ⟨hw, es, he, rfl⟩, fun _ hp => decodePacket_eq_ok_iff.2 ⟨hw, hp⟩,
    fun _ hd => (decodeByte_eq_iff.1 hd).2⟩

/-- Settles O20: each reader's equivalence read forwards; an opcode byte decodes by definition. -/
theorem decodedIsWellFormedAndEncodesBack : Obligations.DecodedIsWellFormedAndEncodesBack :=
  ⟨fun _ _ _ => rfl, fun _ _ _ _ => decode_eq_ok_iff.1, fun _ _ _ => decodePacket_eq_ok_iff.1⟩

/-! ### Words of the spec -/

/-- Under the table of State.reset a word decodes by its first byte alone (R61). -/
theorem decodeTableWord_byte (o : Byte) :
    decodeTableWord 8 o.toNat = some (decodeByte configInForce o) := by
  simp [decodeTableWord, tableBytes, wordBytes, decode, Nat.mod_eq_of_lt o.isLt]

/-- Settles O21: five words of the input stream, and `frame`'s packet of `86 00` read back. -/
theorem specWordsDecode : Obligations.SpecWordsDecode := by
  refine ⟨?_, ?_, ?_, ?_, rfl, ?_⟩
  · exact decodeTableWord_byte 0x86
  · exact decodeTableWord_byte 0x00
  · exact decodeTableWord_byte 0x88
  · exact decodeTableWord_byte 0x7F
  · have hframe : frame 0x86 [0x00] = [0xD5, 0x02, 0x86, 0x00, 0x85] := by
      simp [frame, startByte, crc8, crcInit, crcAbsorb, crcByteStep, crcBits, crcBitStep, poly]
    exact hframe ▸ decodePacket_frame (by decide)

/-! ### The fetch -/

/-- What has words on the input stream is run by the fetch as it is when issued alone (R111). -/
theorem runCommand_eq_exec {c : Config} {i : Instr} {es : List InEvent} (h : encode c i = some es)
    (s : State) : runCommand i s = exec i s := by
  cases i with
  | changeTool | toolAction | opcode00 | cmdFixed _ _ | cmdEmbedded _ | cmdUnknown _ | seqEos => rfl
  | _ => cases h

/-- At a command boundary, with the reset line idle, a step is the work of SEQ_FETCH (R111). -/
theorem step_fetch {s : State} (hrst : s.noReset) (hp : s.phase = .fetch) :
    step s = fetchCommand { s with rst := s.rst.tail } :=
  (step_noReset hrst).trans (advance_fetch hp)

/-- SEQ_FETCH in its phase (R111). -/
theorem exec_seqFetch {s : State} (hp : s.phase = .fetch) : exec .seqFetch s = fetchCommand s :=
  whenPhase_on hp _

/-- SEQ_EOS in its phase (R119). -/
theorem exec_seqEos {s : State} (hp : s.phase = .fetch) : exec .seqEos s = .next { s with phase := .done } :=
  whenPhase_on hp _

/-- Settles O17: what the decoder gives has words on the stream, so the fetch runs it as it is when issued
alone. -/
theorem stepRunsTheDecodedInstruction : Obligations.StepRunsTheDecodedInstruction := by
  intro s o rest hrst hp
  refine ⟨?_, fun hin => ⟨by rw [hin]; rfl, ?_⟩, fun hin => ⟨by rw [hin]; rfl, ?_⟩⟩
  · exact (step_fetch hrst hp).trans (Eq.symm (exec_seqFetch hp))
  · have hfetch := fetchCommand_byte (s := { s with rst := s.rst.tail }) hin
    rw [step_fetch hrst hp, hfetch, runCommand_eq_exec (decodeByte_sound s.cfg o).2]
    rfl
  · have hfetch := fetchCommand_eos (s := { s with rst := s.rst.tail }) hp hin
    exact (step_fetch hrst hp).trans (hfetch.trans (Eq.symm (exec_seqEos hp)))

end Sys2Proof.Machine
end

section
/-! The CRC engine (40_crc_engine.md): one shift step bit by bit, the eight steps as a linear bijection, the
bit-serial form, and the fold over a sequence. -/

namespace Sys2Proof.Machine

/-! ### What each operation does to the state (R71 to R76) -/

theorem exec_crcClear (s : State) : exec .crcClear s = .next { s with crc := 0x00 } := rfl

theorem exec_crcBit (s : State) : exec .crcBit s = .next { s with crc := crcBitStep s.crc } := rfl

theorem exec_crcByte (b : Byte) (s : State) :
    exec (.crcByte b) s = .next { s with crc := crcByteStep s.crc b } := rfl

theorem exec_crcSeq (bs : List Byte) (s : State) : exec (.crcSeq bs) s = .next { s with crc := crc8 bs } :=
  congrArg Host.Outcome.next (crcPutAll_clear bs s)

theorem exec_crcRead (s : State) : exec .crcRead s = .next s := rfl

theorem execTimes_crcBit (k : Nat) (s : State) :
    execTimes .crcBit k s = .next { s with crc := crcBits k s.crc } := by
  induction k generalizing s with
  | zero => rfl
  | succ k ih => exact ih _

/-! ### One shift step (R72) -/

theorem crcBitStep_eq_xor (c : Byte) :
    crcBitStep c = (c >>> 1) ^^^ (if c.getLsbD 0 then poly else 0) := by
  unfold crcBitStep
  split <;> simp

/-- Each bit moves one place down, and bit 0 is folded in where the constant has a 1. -/
theorem getLsbD_crcBitStep (c : Byte) (i : Nat) :
    (crcBitStep c).getLsbD i = (c.getLsbD (1 + i) ^^ (c.getLsbD 0 && poly.getLsbD i)) := by
  rw [crcBitStep_eq_xor]
  cases c.getLsbD 0 <;> simp

@[simp] theorem crcBitStep_zero : crcBitStep 0#8 = 0#8 := rfl

theorem crcBitStep_xor (a b : Byte) : crcBitStep (a ^^^ b) = crcBitStep a ^^^ crcBitStep b := by
  refine BitVec.eq_of_getLsbD_eq fun i _ => ?_
  simp only [BitVec.getLsbD_xor, getLsbD_crcBitStep, Bool.and_xor_distrib_right, Bool.xor_assoc,
    Bool.xor_left_comm]

/-- Bit 7 of the new register is bit 0 of the old one; with that known, what was folded in is known. -/
theorem crcBitStep_injective : Function.Injective crcBitStep := by
  intro a b h
  have hbits : ∀ i, (a.getLsbD (1 + i) ^^ (a.getLsbD 0 && poly.getLsbD i)) =
      (b.getLsbD (1 + i) ^^ (b.getLsbD 0 && poly.getLsbD i)) := fun i => by
    rw [← getLsbD_crcBitStep, ← getLsbD_crcBitStep, h]
  have hlow : a.getLsbD 0 = b.getLsbD 0 := by simpa [poly] using hbits 7
  refine BitVec.eq_of_getLsbD_eq fun i _ => ?_
  cases i with
  | zero => exact hlow
  | succ i => exact Nat.add_comm 1 i ▸ Bool.xor_left_inj.1 (hlow ▸ hbits i)

theorem crcBitStep_bijective : Function.Bijective crcBitStep :=
  Finite.injective_iff_bijective.1 crcBitStep_injective

/-- Settles O2: the pseudocode is the definition, and the bits are the shift's with bit 0 folded in. -/
theorem crcBitShiftsAndFolds : Obligations.CrcBitShiftsAndFolds := by
  refine ⟨crcBitStep_bijective, fun s => ⟨crcBitStep s.crc, exec_crcBit s, rfl, ?_⟩⟩
  simp only [getLsbD_crcBitStep]
  simp [poly]

/-! ### Eight shift steps (R73, R74) -/

@[simp] theorem crcBits_of_zero (k : Nat) : crcBits k 0#8 = 0#8 := by
  induction k with
  | zero => rfl
  | succ k ih => rw [crcBits_succ, crcBitStep_zero, ih]

theorem crcBits_xor (k : Nat) (a b : Byte) : crcBits k (a ^^^ b) = crcBits k a ^^^ crcBits k b := by
  induction k generalizing a b with
  | zero => rfl
  | succ k ih => simp only [crcBits_succ, crcBitStep_xor, ih]

theorem crcBits_bijective (k : Nat) : Function.Bijective (crcBits k) := by
  induction k with
  | zero => exact Function.bijective_id
  | succ k ih => exact ih.comp crcBitStep_bijective

@[simp] theorem crcByteStep_zero_left (b : Byte) : crcByteStep 0#8 b = crcBits 8 b := by
  simp [crcByteStep_eq]

/-- A byte equal to the register cancels it. -/
@[simp] theorem crcByteStep_self (c : Byte) : crcByteStep c c = 0#8 := by
  simp [crcByteStep_eq]

/-- Settles O3: the eight CRC_BIT are the eight shift steps, and a register that the fold has cleared they
leave clear. -/
theorem crcByteIsXorThenEightBits : Obligations.CrcByteIsXorThenEightBits := by
  intro s b
  have hshifts := execTimes_crcBit 8 { s with crc := s.crc ^^^ b }
  refine ⟨(exec_crcByte b s).trans hshifts.symm, ⟨_, exec_crcByte b s⟩, ?_, fun h => ?_⟩
  · rw [exec_crcByte, crcByteStep_self]
    rfl
  · have hkeep : crcByteStep s.crc 0x00 = s.crc := by rw [h]; exact crcByteStep_self _
    rw [exec_crcByte, hkeep]

/-- The spec's 256 entries, each against the eight shift steps. -/
theorem crcTable_eq_crcBits : ∀ v : Byte, crcTable v = crcBits 8 v := by decide +kernel

/-- Settles O4: `T` is the eight shift steps, which look at nothing but the combined value. -/
theorem crcByteClosedForm : Obligations.CrcByteClosedForm := by
  have hT : crcByteStep 0x00 = crcBits 8 := funext crcByteStep_zero_left
  unfold Obligations.CrcByteClosedForm
  rw [hT]
  exact ⟨fun s b => exec_crcByte b s, crcBits_xor 8, crcBits_of_zero 8, crcBits_bijective 8,
    crcTable_eq_crcBits⟩

/-! ### The bit-serial form (R78) -/

/-- The bits of the operand still to come may be folded in before the step or after it, one place
further down. -/
theorem crcBitStep_xor_eq_crcSerialStep (c x : Byte) :
    crcBitStep (c ^^^ x) = crcSerialStep c (x.getLsbD 0) ^^^ (x >>> 1) := by
  unfold crcBitStep crcSerialStep
  rw [BitVec.getLsbD_xor, BitVec.ushiftRight_xor_distrib]
  split <;> ac_rfl

theorem crcBits_xor_eq_crcSerialBits (b : Byte) (k i : Nat) (c : Byte) :
    crcBits k (c ^^^ (b >>> i)) = crcSerialBits b k i c ^^^ (b >>> (i + k)) := by
  induction k generalizing i c with
  | zero => rfl
  | succ k ih =>
    have hstep := crcBitStep_xor_eq_crcSerialStep c (b >>> i)
    rw [BitVec.getLsbD_ushiftRight, ← BitVec.shiftRight_add] at hstep
    rw [crcBits_succ, hstep, ih, Nat.add_right_comm]
    rfl

theorem crcSerialByte_eq_crcByteStep (c b : Byte) : crcSerialByte c b = crcByteStep c b := by
  have h := crcBits_xor_eq_crcSerialBits b 8 0 c
  have hout : b >>> 8 = 0 := BitVec.ushiftRight_eq_zero (Nat.le_refl 8)
  simpa [hout, crcByteStep_eq, crcSerialByte] using h.symm

/-- Settles O5: the nested steps are the recursion of the bit-serial form written out. -/
theorem crcBitSerialFormAgrees : Obligations.CrcBitSerialFormAgrees := by
  refine ⟨fun _ _ => rfl, fun s b r hr => ?_⟩
  have hserial : crcSerialByte s.crc b = r := hr.symm
  exact ⟨by rw [exec_crcByte, ← crcSerialByte_eq_crcByteStep, hserial], hserial⟩

/-! ### A sequence (R75, R79) -/

theorem crcAbsorb_eq_foldl (c : Byte) (bs : List Byte) : crcAbsorb c bs = bs.foldl crcByteStep c := by
  induction bs generalizing c with
  | nil => rfl
  | cons b bs ih => exact ih _

theorem crc8_eq_foldl (bs : List Byte) : crc8 bs = bs.foldl crcByteStep 0#8 := crcAbsorb_eq_foldl _ bs

theorem crc8_singleton (v : Byte) : crc8 [v] = crcTable v :=
  (crcByteStep_zero_left v).trans (crcTable_eq_crcBits v).symm

theorem crc8_zero_cons (bs : List Byte) : crc8 (0#8 :: bs) = crc8 bs :=
  congrArg (crcAbsorb · bs) (crcByteStep_self _)

theorem crc8_replicate_zero (n : Nat) : crc8 (List.replicate n 0#8) = 0#8 := by
  induction n with
  | zero => rfl
  | succ n ih => rw [List.replicate_succ, crc8_zero_cons, ih]

/-- Settles O6: `crc8` is the fold from a clear register, which leading zero bytes keep clear. -/
theorem crcSeqIsTheFoldFromZero : Obligations.CrcSeqIsTheFoldFromZero := by
  refine ⟨fun s bs => ⟨crc8_eq_foldl bs ▸ exec_crcSeq bs s, crc8_eq_foldl bs⟩, crc8_singleton,
    crc8_replicate_zero, crc8_zero_cons, rfl, ?_, ?_⟩ <;> decide +kernel

/-- The last byte is equal to the register it is folded into. -/
theorem crc8_append_crc8 (bs : List Byte) : crc8 (bs ++ [crc8 bs]) = 0#8 :=
  (crc8_append bs _).trans (crcByteStep_self _)

/-- Settles O7: a packet from its opcode on is opcode and body followed by their checksum. -/
theorem crcResidueIsZero : Obligations.CrcResidueIsZero :=
  ⟨crc8_append_crc8, fun o body => crc8_append_crc8 (o :: body)⟩

/-- Settles O1: both are the operation's definition. -/
theorem crcClearAndReadComplete : Obligations.CrcClearAndReadComplete :=
  fun s => ⟨exec_crcClear s, exec_crcRead s, rfl⟩

end Sys2Proof.Machine
end

section
/-! The frame assembler's own writes (41_frame_assembler.md): FA_INIT, FA_PUT, FA_SET_LEN and FA_SEAL, and the
element that FA_INIT alone writes (R12, R91 to R93, R96). -/

namespace Sys2Proof.Machine

/-! ### What each operation does to the state -/

theorem exec_faInit (s : State) : exec .faInit s = .next { s with buf := s.buf.write 0 startByte } := rfl

theorem exec_faPut {i : Nat} (h2 : 2 ≤ i) (h34 : i ≤ 34) (b : Byte) (s : State) :
    exec (.faPut i b) s = .next { s with buf := s.buf.write i b } := by
  simp [exec, execFaPut, faPut, h2, h34]

theorem exec_faPut_outside {i : Nat} (h : i < 2 ∨ 34 < i) (b : Byte) (s : State) :
    exec (.faPut i b) s = .fault (.bufIndex i) := by
  simp [exec, execFaPut, faPut, show ¬(2 ≤ i ∧ i ≤ 34) by omega]

theorem exec_faSetLen (s : State) :
    exec .faSetLen s = .next { s with buf := s.buf.write 1 (BitVec.ofNat 8 (s.l.val + 1)) } := rfl

theorem exec_faSeal {s : State} {region : List Byte} (hl : region.length = s.l.val + 1)
    (h : s.buf.holds 2 region) :
    exec .faSeal s = .next { s with
      crc := crc8 region, buf := s.buf.write (3 + s.l.val) (crc8 region) } := by
  simp [exec, execFaSeal, faSeal_ok h hl]

/-- Settles O9: in range FA_PUT is one write of the buffer. -/
theorem faPutStoresByteUnchanged : Obligations.FaPutStoresByteUnchanged := fun s _ b =>
  ⟨fun h2 h34 => ⟨_, exec_faPut h2 h34 b s, Memory.read_write_same _ _ _,
    fun _ ha => Memory.read_write_other _ _ ha⟩, fun h => exec_faPut_outside h b s⟩

/-- The length byte holds its number: a body has at most 32 bytes (R93). -/
theorem lengthByte_toNat {n : Nat} (h : n ≤ 32) : (BitVec.ofNat 8 (n + 1)).toNat = n + 1 := by
  simp only [BitVec.toNat_ofNat]; omega

/-- Settles O10: one write of the buffer, of a number that fits. -/
theorem faSetLenWritesLPlusOne : Obligations.FaSetLenWritesLPlusOne := fun s =>
  ⟨_, _, exec_faSetLen s, Memory.read_write_same _ _ _, lengthByte_toNat (Nat.le_of_lt_succ s.l.isLt),
    fun _ ha => Memory.read_write_other _ _ ha⟩

/-- Settles O11: the checksum of the region goes to the register and, by one write, to the buffer. -/
theorem faSealStoresChecksum : Obligations.FaSealStoresChecksum := fun _ _ hl h =>
  ⟨_, exec_faSeal hl h, Memory.read_write_same _ _ _, fun _ ha => Memory.read_write_other _ _ ha⟩

/-! ### The start byte is FA_INIT's alone -/

/-- A byte is accepted only at an index of FA_PUT, which is not the start byte's (R42, R92). -/
theorem acceptByte_rdIdx_pos {s t : State} {b : Byte} {r : List InEvent}
    (h : acceptByte b { s with input := r } = .ok t) : 0 < s.rdIdx := by
  by_contra h0
  simp [acceptByte, faPut, show ¬2 ≤ s.rdIdx by omega] at h

/-- No primitive change writes `BUF[0]` (R12). -/
theorem closed_startByte (v : Option Byte) : Closed fun s => s.buf.read 0 = v where
  popEvent _ _ _ hs _ _ := hs
  accept s b r t hs _ ht := by
    have hpos : 0 < s.rdIdx := acceptByte_rdIdx_pos ht
    rw [acceptByte_eq_ok ht, received_buf, Memory.read_writeAll_other _ _ _ (.inl hpos), hs]
  popAnswer _ _ _ hs _ := hs
  send _ _ _ hs := hs
  toPhase _ _ hs := hs
  startRead _ _ _ hs := hs
  startWrite _ hs := hs
  setCurLength _ _ hs := hs
  setBodyLen _ _ hs := hs
  latch _ _ hs := hs
  raise _ _ hs := hs
  setCrc _ _ hs := hs
  writeBuf s i b hs hi := (Memory.read_write_other s.buf b (by omega)).trans hs

/-- Settles O8: FA_INIT is one write, a reset leaves its start byte, and everything else is made of primitive
changes. -/
theorem onlyFaInitWritesStartByte : Obligations.OnlyFaInitWritesStartByte := by
  refine ⟨fun s => ?_, fun s r hr => ⟨_, step_reset hr, rfl⟩, fun i s t hi ht => ?_, fun s t hrst ht => ?_⟩
  · exact ⟨_, exec_faInit s, Memory.read_write_same _ _ _, fun _ ha => Memory.read_write_other _ _ ha⟩
  · have h := (closed_startByte (s.buf.read 0)).exec hi (s := s) rfl
    rw [ht] at h
    exact h
  · have h := (closed_startByte (s.buf.read 0)).advance (s := { s with rst := s.rst.tail }) rfl
    rw [← step_noReset hrst, ht] at h
    exact h

end Sys2Proof.Machine
end

section
/-! FA_EMIT and FRAME (41_frame_assembler.md): the packet to the sink, whole or up to where the sink stops
(R44, R97 to R99), and what `frame` is (R100). -/

namespace Sys2Proof.Machine

/-! ### FA_EMIT -/

/-- `OutWrite` of the packet in the buffer, once the sink has taken its first `n` bytes (R44, R97). -/
theorem outWrite_sent {s : State} {v : List Byte} {n : Nat} {r : List OutAnswer}
    (hl : v.length = s.l.val + 4) (hv : s.buf.holds 0 v) (hn : n ≤ v.length)
    (ha : s.answers = List.replicate n .accept ++ r) :
    outWrite s = outLoop (v.drop n)
      { s with answers := r, output := s.output ++ v.take n, outIdx := n } := by
  have hstart : outWrite s = outLoop v { s with outIdx := 0 } := outResume_eq (s := { s with outIdx := 0 }) hv hl
  rw [hstart, outLoop_sent (s := { s with outIdx := 0 }) ha hn]
  simp [sent, Nat.min_eq_left hn]

theorem outLoop_refuse {b : Byte} {bs : List Byte} {s : State} {r : List OutAnswer}
    (ha : s.answers = .refuse :: r) : outLoop (b :: bs) s = .short { s with answers := r } := by
  simp [outLoop, ha]

theorem outLoop_err {b : Byte} {bs : List Byte} {s : State} {e : IoErr} {r : List OutAnswer}
    (ha : s.answers = .err e :: r) : outLoop (b :: bs) s = .fail e { s with answers := r } := by
  simp [outLoop, ha]

section
variable {s t : State} (hp : s.phase = .emit)
include hp

theorem exec_faEmit_ok (h : outWrite s = .ok t) : exec .faEmit s = .next t := by
  simp [exec, execFaEmit, hp, h]

theorem exec_faEmit_held (h : outWrite s = .held t) : exec .faEmit s = .next t := by
  simp [exec, execFaEmit, hp, h]

theorem exec_faEmit_short (h : outWrite s = .short t) :
    exec .faEmit s = .next (raiseError .shortWrite t) := by
  simp [exec, execFaEmit, hp, h]

theorem exec_faEmit_fail {e : IoErr} (h : outWrite s = .fail e t) :
    exec .faEmit s = .next (raiseError (.ioFailure e) t) := by
  simp [exec, execFaEmit, hp, h]

end

/-- Settles O13: once the sink has taken `L + 4` bytes none of the packet is left. -/
theorem faEmitSendsTheBufferWhole : Obligations.FaEmitSendsTheBufferWhole := by
  intro s v rest hp hl hv ha
  have hsent := outWrite_sent hl hv hl.ge ha
  rw [List.drop_of_length_le hl.le, List.take_of_length_le hl.le] at hsent
  exact exec_faEmit_ok hp hsent

/-- Settles O14: with `j` bytes out there is one more to offer, and the answer to it decides. -/
theorem faEmitStoppedLeavesPrefix : Obligations.FaEmitStoppedLeavesPrefix := by
  intro s v j rest hp hl hv hj
  have hlt : j < v.length := by omega
  have hsent : ∀ r, s.answers = List.replicate j .accept ++ r → outWrite s =
      outLoop (v[j] :: v.drop (j + 1)) { s with answers := r, output := s.output ++ v.take j, outIdx := j } :=
    fun r ha => by rw [outWrite_sent hl hv hlt.le ha, List.drop_eq_getElem_cons hlt]
  refine ⟨fun ha => ?_, fun e ha => ?_, fun ha => ?_, fun ha => ?_⟩
  · exact exec_faEmit_short hp ((hsent _ ha).trans (outLoop_refuse rfl))
  · exact exec_faEmit_fail hp ((hsent _ ha).trans (outLoop_err rfl))
  · exact exec_faEmit_held hp ((hsent _ ha).trans (outLoop_wait rfl))
  · exact exec_faEmit_held hp ((hsent [] (by simpa using ha)).trans (outLoop_end rfl))

/-! ### FRAME -/

/-- FA_PUT of a run that fits stores it (R92, R94). -/
theorem faPutAll_ok {bs : List Byte} {i : Nat} (h2 : 2 ≤ i) (h35 : i + bs.length ≤ 35) (s : State) :
    faPutAll i bs s = .ok { s with buf := s.buf.writeAll i bs } := by
  induction bs generalizing i s with
  | nil => rfl
  | cons b bs ih =>
    simp only [List.length_cons] at h35
    have hput : faPut i b s = .ok { s with buf := s.buf.write i b } := if_pos ⟨h2, by omega⟩
    simp only [faPutAll, hput]
    exact ih (by omega) (by omega) _

/-- FRAME at a command boundary is FA_PUT for opcode and body, then SEQ_EMIT (R99, R118). -/
theorem exec_frame {s : State} {o : Byte} {body : List Byte} {l : BodyLen} (hp : s.phase = .fetch)
    (hl : body.length = l.val) : exec (.frame o body) s =
      seqEmit { s with buf := s.buf.writeAll 2 (o :: body), l := l } := by
  have hlen : bodyLen? body.length = some l := bodyLen?_eq_some.2 (by omega)
  have hput := faPutAll_ok (bs := o :: body) (Nat.le_refl 2) (by simp; omega) s
  simp [exec, execFrame, hp, hlen, opcodeIdx, hput]

theorem exec_frame_tooLong {s : State} {o : Byte} {body : List Byte} (hp : s.phase = .fetch)
    (h : 32 < body.length) : exec (.frame o body) s = .fault (.frameTooLong body.length) := by
  have hlen : bodyLen? body.length = none := bodyLen?_eq_none.2 (by omega)
  simp [exec, execFrame, hp, hlen]

/-- Sealing writes the length byte and the checksum only (R93, R96). -/
theorem sealedBuf_read_other (m : Memory) (o : Byte) {body : List Byte} {a : Nat} (h1 : a ≠ 1)
    (hc : a ≠ 3 + body.length) : (sealedBuf m o body).read a = m.read a := by
  rw [sealedBuf, Memory.read_write_other _ _ hc, Memory.read_write_other _ _ h1]

/-- Settles O15: the packet is assembled in the buffer, and phase `EMIT` puts it out whole. -/
theorem frameAppendsThePacket : Obligations.FrameAppendsThePacket := by
  refine fun s o body hp => ⟨fun l rest hl h0 ha => ?_, exec_frame_tooLong hp⟩
  have hbody : (s.buf.writeAll 2 (o :: body)).holds 2 (o :: body) := Memory.holds_writeAll _ _ _
  have hstart : (s.buf.writeAll 2 (o :: body)).read 0 = some startByte :=
    (Memory.read_writeAll_other _ _ _ (.inl (by omega))).trans h0
  have hlen : (frame o body).length = l.val + 4 := by rw [frame_length, hl]
  refine ⟨sealedBuf (s.buf.writeAll 2 (o :: body)) o body, ?_, fun a h => ?_⟩
  · rw [exec_frame hp hl, seqEmit_eq hbody hl,
      emitPhase_all (r := rest) (sealedBuf_holds hstart hbody) hlen (by simpa [hl] using ha)]
    simp [sent, hp, hl, frame, startByte]
  · rw [sealedBuf_read_other _ _ (by omega) (by omega),
      Memory.read_writeAll_other _ _ _ (by simp only [List.length_cons]; omega)]

/-! ### The packet -/

/-- A packet is read back in one way only, so distinct commands give distinct packets (R100 (f)). -/
theorem frame_injective {o o' : Byte} {b b' : List Byte} (hb : b.length ≤ 32) (hb' : b'.length ≤ 32)
    (h : frame o b = frame o' b') : o = o' ∧ b = b' := by
  have hread : decodePacket (frame o b) = decodePacket (frame o' b') := congrArg decodePacket h
  simpa [decodePacket_frame hb, decodePacket_frame hb'] using hread

/-- The payload region of a packet: opcode and body, before the checksum (R57). -/
theorem frame_payload (o : Byte) (b : List Byte) : ((frame o b).drop 2).take (b.length + 1) = o :: b := by
  simp [frame]

/-- Settles O16: the residue is the checksum's law, and the rest is the packet's bytes. -/
theorem frameProperties : Obligations.FrameProperties := fun o b hb =>
  ⟨rfl, frame_length o b,
    ⟨_, rfl, lengthByte_toNat hb, by rw [frame_length, lengthByte_toNat hb]⟩,
    frame_payload o b, crc8_append_crc8 (o :: b), decodePacket_frame hb,
    fun _ _ hb' => frame_injective hb hb'⟩

end Sys2Proof.Machine
end

section
/-! The commands of the input stream issued alone (42_command_sequencer.md): which command each row of the
opcode table is, the errors that end one before its body, and the fetch. -/

namespace Sys2Proof.Machine

/-! ### The commands by their rule -/

section
variable {s : State} {i : Instr} {o : Byte} (hp : s.phase = .fetch)
include hp

/-- "It is CMD_FIXED(1)" (R114). -/
theorem exec_fixed {l : BodyLen} (hi : i = .cmdFixed o (l.val : Int) ∨ (i = .changeTool ∧ l.val = 1)) :
    exec i s = fixedCommand (l.val : Int) s := by
  rcases hi with rfl | ⟨rfl, hl⟩
  · exact whenPhase_on hp _
  · rw [hl]; exact whenPhase_on hp _

/-- "It is CMD_EMBEDDED" (R116). -/
theorem exec_embedded (hi : i = .cmdEmbedded o ∨ i = .toolAction) : exec i s = embeddedCommand s := by
  rcases hi with rfl | rfl <;> exact whenPhase_on hp _

/-- "It is CMD_UNKNOWN" (R117). -/
theorem exec_unknown (hi : i = .cmdUnknown o ∨ i = .opcode00) : exec i s = unknownCommand s := by
  rcases hi with rfl | rfl <;> exact whenPhase_on hp _

end

/-- Settles O22: error entry is all the command does. -/
theorem unknownOpcodeIsFatal : Obligations.UnknownOpcodeIsFatal := fun _ _ _ hi hp => exec_unknown hp hi

/-- Settles O25: the range check comes before the read, and `CUR_LENGTH` before the check. -/
theorem fixedLengthOutOfRangeIsFatal : Obligations.FixedLengthOutOfRangeIsFatal := by
  intro s o n hp hn
  have hexec : exec (.cmdFixed o n) s = fixedCommand n s := whenPhase_on hp _
  exact ⟨lengthReg s.cfg.lenW n, hexec.trans (fixedCommand_out hn s), lengthReg_fits⟩

/-! ### The fetch -/

/-- Settles O33: the end of stream at a boundary is SEQ_EOS, after a read that has set its indices. -/
theorem endOfStreamAtBoundaryIsClean : Obligations.EndOfStreamAtBoundaryIsClean := by
  refine fun s hp => ⟨exec_seqEos hp, fun rest hrst hin => ?_⟩
  have hstep := (step_fetch hrst hp).trans (fetchCommand_eos (s := { s with rst := s.rst.tail }) hp hin)
  exact ⟨_, hstep, rfl, rfl, rfl, rfl, rfl, rfl, rfl, rfl⟩

/-- The fetch runs what the decoder reads from the opcode byte as it is when issued alone (R111). -/
theorem fetchCommand_eq_exec {s : State} {o : Byte} {r : List InEvent} (hin : s.input = .byte o :: r) :
    fetchCommand s = exec (decodeByte s.cfg o) (fetched o r s) :=
  (fetchCommand_byte hin).trans (runCommand_eq_exec (decodeByte_sound s.cfg o).2 _)

section
variable {s : State} {o : Byte} {r : List InEvent} {n : Int}

/-- An opcode without a descriptor (R112). -/
theorem fetchCommand_unknown (hp : s.phase = .fetch) (hin : s.input = .byte o :: r)
    (hrule : s.cfg.ruleOf o = none) : fetchCommand s = unknownCommand (fetched o r s) := by
  simp only [fetchCommand_byte hin, runCommand_decodeByte (s := fetched o r s) hp, hrule]

/-- An opcode of format F (R113). -/
theorem fetchCommand_fixed (hp : s.phase = .fetch) (hin : s.input = .byte o :: r)
    (hrule : s.cfg.ruleOf o = some (.fixed n)) : fetchCommand s = fixedCommand n (fetched o r s) := by
  simp only [fetchCommand_byte hin, runCommand_decodeByte (s := fetched o r s) hp, hrule]

/-- An opcode of format E (R115). -/
theorem fetchCommand_embedded (hp : s.phase = .fetch) (hin : s.input = .byte o :: r)
    (hrule : s.cfg.ruleOf o = some .embedded) : fetchCommand s = embeddedCommand (fetched o r s) := by
  simp only [fetchCommand_byte hin, runCommand_decodeByte (s := fetched o r s) hp, hrule]

end

/-- Settles O18: SEQ_FETCH is the work of the fetch, one equation an event, and an opcode without a
descriptor raises its error at once. -/
theorem seqFetchAnswersEachEvent : Obligations.SeqFetchAnswersEachEvent := by
  intro s rest hp
  rw [exec_seqFetch hp]
  refine ⟨fetchCommand_eos hp, fun e => fetchCommand_err, fetchCommand_wait, fetchCommand_end,
    fun o => fetchCommand_eq_exec, fun o hin hrule => ?_⟩
  exact ⟨s.buf.write 2 o, fetchCommand_unknown hp hin hrule, Memory.read_write_same _ _ _,
    fun a ha => Memory.read_write_other _ _ ha⟩

/-! ### Off their phase -/

/-- Settles O35: each of them is gated by the phase that enables it. -/
theorem operationsOffTheirPhaseAreRefused : Obligations.OperationsOffTheirPhaseAreRefused := by
  constructor
  · intro s o n body i ht hi
    simp only [List.mem_cons, List.not_mem_nil, or_false] at hi
    rcases hi with rfl | rfl | rfl | rfl | rfl | rfl | rfl | rfl | rfl | rfl | rfl <;>
      exact whenPhase_terminal ht rfl _
  · intro s o n body i ht
    refine ⟨fun hp hi => ?_, fun hp => whenPhase_off ht hp _, fun hp => whenPhase_off ht hp _⟩
    simp only [List.mem_cons, List.not_mem_nil, or_false] at hi
    rcases hi with rfl | rfl | rfl | rfl | rfl | rfl | rfl | rfl | rfl <;> exact whenPhase_off ht hp _

end Sys2Proof.Machine
end

section
/-! From the body of a command to its packet (R113, R115, R118): the state while a body is read, SEQ_EMIT on
what has been read, and the two formats. -/

namespace Sys2Proof.Machine

/-! ### The count -/

/-- Any number of bytes but none brings the count to its width (R18). -/
theorem countAfter_pos {w n k : Nat} (hk : 1 ≤ k) : countAfter w k n = (n + k) % 2 ^ w := by
  obtain ⟨k, rfl⟩ := Nat.exists_eq_add_of_le' hk
  rw [countAfter_succ, countAfter_eq (Nat.mod_lt _ (Nat.two_pow_pos w)), Nat.mod_add_mod]
  congr 1; omega

/-- `BYTES_CONSUMED` after `i` bytes more, from a count taken modulo its width (R18). -/
theorem countAfter_mod (w i b : Nat) : countAfter w i (b % 2 ^ w) = (b + i) % 2 ^ w := by
  rw [countAfter_eq (Nat.mod_lt _ (Nat.two_pow_pos w)), Nat.mod_add_mod]

/-! ### SEQ_EMIT -/

/-- SEQ_EMIT with a sink that takes the packet: back to the boundary (R118). -/
theorem seqEmit_accepted {s : State} {op : Byte} {body : List Byte} {ans : List OutAnswer}
    (h0 : s.buf.read 0 = some startByte) (hl : body.length = s.l.val) (h2 : s.buf.holds 2 (op :: body))
    (ha : s.answers = List.replicate (s.l.val + 4) .accept ++ ans) :
    seqEmit s = .next { s with
      crc := crc8 (op :: body), buf := sealedBuf s.buf op body, phase := .fetch, outIdx := s.l.val + 4,
      answers := ans, output := s.output ++ frame op body } := by
  have hlen : (frame op body).length = s.l.val + 4 := by rw [frame_length, hl]
  have hemit := emitPhase_all (r := ans) (s := { s with
      crc := crc8 (op :: body), buf := sealedBuf s.buf op body, phase := .emit, outIdx := 0 })
    (sealedBuf_holds h0 h2) hlen (by simpa [hl] using ha)
  rw [seqEmit_eq h2 hl, hemit]
  simp [sent, hl]

/-- SEQ_EMIT with a sink that takes `j` bytes, not all: the packet is sealed, and what comes after the
answers `Accept` decides (R44, R118). -/
theorem seqEmit_stopped {s : State} {op : Byte} {body : List Byte} {j : Nat} {r : List OutAnswer}
    (h0 : s.buf.read 0 = some startByte) (hl : body.length = s.l.val) (h2 : s.buf.holds 2 (op :: body))
    (hj : j < s.l.val + 4) (ha : s.answers = List.replicate j .accept ++ r) (hr : ∀ r', r ≠ .accept :: r') :
    EmitEnds { s with
      crc := crc8 (op :: body), buf := sealedBuf s.buf op body, phase := .emit, outIdx := j, answers := r,
      output := s.output ++ (frame op body).take j } r (seqEmit s) := by
  have hlen : (frame op body).length = s.l.val + 4 := by rw [frame_length, hl]
  have hends := emitPhase_stops (s := { s with
      crc := crc8 (op :: body), buf := sealedBuf s.buf op body, phase := .emit, outIdx := 0 })
    (sealedBuf_holds h0 h2) hlen (by simpa [hl] using hj) ha hr
  rw [seqEmit_eq h2 hl]
  simpa [sent, hlen, Nat.min_eq_left hj.le] using hends

/-- The four ways a sink stops a write, `u` being the state after the bytes it took (R142, R146, R164). -/
theorem emitEnds_answers {a : List OutAnswer} {j : Nat} {u : State} {x : Host.Outcome State Fault Refusal}
    (h : ∀ r, a = List.replicate j .accept ++ r → (∀ r', r ≠ .accept :: r') →
      EmitEnds { u with answers := r } r x) :
    (∀ r, a = List.replicate j .accept ++ .refuse :: r →
      x = .next { u with answers := r, errCode := .shortWrite, phase := .error }) ∧
    (∀ e r, a = List.replicate j .accept ++ .err e :: r →
      x = .next { u with answers := r, errCode := .ioFailure, ioErr := some e, phase := .error }) ∧
    (∀ r, a = List.replicate j .accept ++ .wait :: r → x = .next { u with answers := r }) ∧
    (a = List.replicate j .accept → x = .next { u with answers := [] }) := by
  refine ⟨fun r ha => ?_, fun e r ha => ?_, fun r ha => ?_, fun ha => ?_⟩
  · cases h _ ha (by simp); rfl
  · cases h _ ha (by simp); rfl
  · cases h _ ha (by simp); rfl
  · cases h [] (by simpa using ha) (by simp); rfl

/-- Settles O31: the sealed buffer holds the packet, and the write sends it whole. -/
theorem seqEmitSealsAndSends : Obligations.SeqEmitSealsAndSends := by
  intro s op body ans hp h0 hl h2 ha
  have hexec : exec .seqEmit s = seqEmit s := whenPhase_on hp _
  exact ⟨_, hexec.trans (seqEmit_accepted h0 hl h2 ha), sealedBuf_holds h0 h2,
    fun a h1 hc => sealedBuf_read_other _ _ h1 (by omega)⟩

/-- Settles O32: the sealed buffer holds the packet, and the sink's answer after `j` bytes decides. -/
theorem seqEmitStoppedLeavesPrefix : Obligations.SeqEmitStoppedLeavesPrefix := by
  intro s op body j hp h0 hl h2 hj
  have hexec : exec .seqEmit s = seqEmit s := whenPhase_on hp _
  rw [hexec]
  exact ⟨sealedBuf s.buf op body, sealedBuf_holds h0 h2, fun a h1 hc => sealedBuf_read_other _ _ h1 (by omega),
    emitEnds_answers (u := { s with
        crc := crc8 (op :: body), buf := sealedBuf s.buf op body, phase := .emit, outIdx := j,
        output := s.output ++ (frame op body).take j })
      fun r ha hr => seqEmit_stopped h0 hl h2 hj ha hr⟩

/-! ### The body in the buffer -/

section
variable {m : Memory} {op : Byte} {body : List Byte}

/-- The opcode byte leaves the start byte in its place (R12, R36). -/
theorem read_zero_writeOpcode (h0 : m.read 0 = some startByte) : (m.write 2 op).read 0 = some startByte :=
  (Memory.read_write_other _ _ (by omega)).trans h0

/-- So does the body. -/
theorem read_zero_writeBody (h0 : m.read 0 = some startByte) : (m.writeAll 3 body).read 0 = some startByte :=
  (Memory.read_writeAll_other _ _ _ (.inl (by omega))).trans h0

/-- The opcode that stood in the buffer stands before the body (R36). -/
theorem holds_writeBody (h2 : m.read 2 = some op) : (m.writeAll 3 body).holds 2 (op :: body) :=
  Memory.holds_cons.2
    ⟨(Memory.read_writeAll_other _ _ _ (.inl (by omega))).trans h2, Memory.holds_writeAll _ _ _⟩

/-- Once the body is sealed the packet is in the buffer (R99). -/
theorem holds_packet (h0 : m.read 0 = some startByte) (h2 : m.read 2 = some op) :
    (sealedBuf (m.writeAll 3 body) op body).holds 0 (frame op body) :=
  sealedBuf_holds (read_zero_writeBody h0) (holds_writeBody h2)

/-- Behind the packet the buffer is as it was. -/
theorem read_behind_packet {a : Nat} (ha : body.length + 4 ≤ a) :
    (sealedBuf (m.writeAll 3 body) op body).read a = m.read a := by
  rw [sealedBuf_read_other _ _ (by omega) (by omega), Memory.read_writeAll_other _ _ _ (by omega)]

end

/-! ### While a body is read -/

/-- The state in `BODY` of a command issued in `s` once `L` and `CUR_LENGTH` are resolved and the bytes `got`
of its body have come, header included, `r` being what the source has left (R113, R115). -/
@[simps] def bodyGot (l : BodyLen) (v : Int) (got : List Byte) (r : List InEvent) (s : State) : State :=
  { s with
    buf := s.buf.writeAll 3 got, l := l, phase := .body, curLength := v, rdIdx := 3 + got.length,
    rdRem := l.val - got.length, bytesConsumed := countAfter s.cfg.countW got.length s.bytesConsumed,
    input := r }

variable {s : State} {l : BodyLen} {v : Int} {got more body : List Byte} {r rest : List InEvent} {op : Byte}

theorem received_bodyGot : received more rest (bodyGot l v got r s) = bodyGot l v (got ++ more) rest s := by
  simp [received, bodyGot, Memory.writeAll_append, countAfter_countAfter, Nat.add_assoc, Nat.sub_sub]

/-- The rest of the body is at hand. -/
theorem bodyPhase_bodyGot (hl : got.length + more.length = l.val) :
    bodyPhase (bodyGot l v got (more.map .byte ++ r) s) = seqEmit (bodyGot l v (got ++ more) r s) := by
  have h32 := l.isLt
  rw [bodyPhase_all (bs := more) (r := r) rfl (by simp; omega) (by simp; omega) (by simp; omega),
    received_bodyGot]

/-- Not all of it is, and then `r` decides. -/
theorem bodyPhase_bodyGot_cut (hl : got.length + more.length < l.val) (hr : ∀ b r', r ≠ .byte b :: r') :
    CutShort (bodyGot l v (got ++ more) r s) r (bodyPhase (bodyGot l v got (more.map .byte ++ r) s)) := by
  have h32 := l.isLt
  rw [← received_bodyGot (got := got) (more := more) (r := more.map .byte ++ r)]
  exact bodyPhase_cut rfl (by simp; omega) (by simp; omega) (by simp; omega) hr

/-! ### The two formats -/

/-- A command of format F owes its `n` body bytes (R113). -/
theorem fixedCommand_eq (l : BodyLen) (s : State) :
    fixedCommand (l.val : Int) s = bodyPhase (bodyGot l (lengthReg s.cfg.lenW l.val) [] s.input s) :=
  fixedCommand_in l s

/-- The three header bytes of a command of format E are at hand (R115). -/
theorem embeddedCommand_header {h0 h1 c : Byte} (hin : s.input = [h0, h1, c].map .byte ++ r) :
    embeddedCommand s =
      resolveCount (received [h0, h1, c] r { s with phase := .header, rdIdx := 3, rdRem := 3 }) :=
  headerPhase_all (s := { s with phase := .header, rdIdx := 3, rdRem := 3 }) hin rfl (by simp) (by simp)

/-- The count is where the header's last byte went (R58, R115). -/
theorem read_count (m : Memory) (h0 h1 c : Byte) : (m.writeAll 3 [h0, h1, c]).read 5 = some c := by simp

/-- With its header read, a command of format E owes `count` data bytes (R115). -/
theorem embeddedCommand_eq {h0 h1 c : Byte} (hl : c.toNat + 3 = l.val)
    (hin : s.input = [h0, h1, c].map .byte ++ r) :
    embeddedCommand s = bodyPhase (bodyGot l (lengthReg s.cfg.lenW c.toNat) [h0, h1, c] r s) := by
  rw [embeddedCommand_header hin, resolveCount_in (read_count _ h0 h1 c) hl]
  simp [received, bodyGot, ← hl]

/-- A count over the ceiling ends the command there (R64, R115). -/
theorem embeddedCommand_over {h0 h1 c : Byte} (hc : 29 < c.toNat)
    (hin : s.input = [h0, h1, c].map .byte ++ r) :
    embeddedCommand s = .next (raiseError .internalTableInconsistency
      { received [h0, h1, c] r { s with phase := .header, rdIdx := 3, rdRem := 3 } with
        curLength := lengthReg s.cfg.lenW c.toNat }) := by
  rw [embeddedCommand_header hin, resolveCount_over (read_count _ h0 h1 c) hc]
  rfl

/-- A header cut short: what comes after its bytes decides (R42, R115). -/
theorem embeddedCommand_cut (hl : got.length < 3) (hin : s.input = got.map .byte ++ r)
    (hr : ∀ b r', r ≠ .byte b :: r') :
    CutShort (received got r { s with phase := .header, rdIdx := 3, rdRem := 3 }) r (embeddedCommand s) :=
  headerPhase_cut (s := { s with phase := .header, rdIdx := 3, rdRem := 3 }) hin hl (by simp) (by simp) hr

/-! ### A whole command -/

/-- The body of a command has been read and the sink takes its packet: all registers (R113, R115, R118). -/
def commandDone (l : BodyLen) (v : Int) (op : Byte) (body : List Byte) (rest : List InEvent)
    (ans : List OutAnswer) (s : State) : State :=
  { s with
    crc := crc8 (op :: body), buf := sealedBuf (s.buf.writeAll 3 body) op body, l := l, curLength := v,
    rdIdx := 3 + l.val, rdRem := 0, outIdx := l.val + 4,
    bytesConsumed := countAfter s.cfg.countW l.val s.bytesConsumed, input := rest, answers := ans,
    output := s.output ++ frame op body }

theorem seqEmit_bodyGot {ans : List OutAnswer} (hp : s.phase = .fetch) (h0 : s.buf.read 0 = some startByte)
    (h2 : s.buf.read 2 = some op) (hl : body.length = l.val)
    (ha : s.answers = List.replicate (l.val + 4) .accept ++ ans) :
    seqEmit (bodyGot l v body rest s) = .next (commandDone l v op body rest ans s) := by
  rw [seqEmit_accepted (read_zero_writeBody h0) hl (holds_writeBody h2) ha]
  simp [bodyGot, commandDone, hp, hl]

/-- Settles O23: the body is read whole and SEQ_EMIT sends its packet. -/
theorem fixedCommandEmitsItsPacket : Obligations.FixedCommandEmitsItsPacket := by
  intro s i o op l body rest ans hi hcount hp h0 h2 hl hin ha
  have hexec : exec i s = .next (commandDone l (lengthReg s.cfg.lenW l.val) op body rest ans s) := by
    rw [exec_fixed hp hi, fixedCommand_eq, hin, bodyPhase_bodyGot (by simp [hl])]
    exact seqEmit_bodyGot hp h0 h2 hl ha
  rw [commandDone, countAfter_eq hcount] at hexec
  exact ⟨_, _, hexec, lengthReg_fits, holds_packet h0 h2, fun a ha => read_behind_packet (by omega)⟩

/-- Settles O27: header and data are one body, which is read whole, and SEQ_EMIT sends its packet. -/
theorem embeddedCommandEmitsItsPacket : Obligations.EmbeddedCommandEmitsItsPacket := by
  intro s i o op h0 h1 c l data rest ans hi hp hstart h2 hl hdata hin ha
  have hlen : (h0 :: h1 :: c :: data).length = l.val := by simp; omega
  have hexec : exec i s = .next (commandDone l (lengthReg s.cfg.lenW c.toNat) op (h0 :: h1 :: c :: data)
      rest ans s) := by
    rw [exec_embedded hp hi, embeddedCommand_eq hl (r := data.map .byte ++ rest) (by simpa using hin),
      bodyPhase_bodyGot (by simp; omega)]
    exact seqEmit_bodyGot hp hstart h2 hlen ha
  rw [commandDone, countAfter_pos (by omega)] at hexec
  exact ⟨_, _, hexec, lengthReg_fits, holds_packet hstart h2, fun a ha => read_behind_packet (by omega)⟩

/-- Settles O24: the fetch takes `86`, the command is CHANGE_TOOL, of one body byte, and SEQ_EMIT sends its
packet. -/
theorem changeToolFromTheStream : Obligations.ChangeToolFromTheStream := by
  intro s t rest ans hrst hp h0 hrule hin ha
  have hfetch : step s = fixedCommand ((1 : BodyLen).val : Int)
      (fetched 0x86 (.byte t :: rest) { s with rst := s.rst.tail }) :=
    (step_fetch hrst hp).trans (fetchCommand_fixed (s := { s with rst := s.rst.tail }) hp hin hrule)
  have hread := hfetch.trans ((fixedCommand_eq _ _).trans (bodyPhase_bodyGot (got := []) (more := [t]) rfl))
  have hstep := hread.trans (seqEmit_bodyGot (s := fetched 0x86 (.byte t :: rest) { s with rst := s.rst.tail })
    hp (read_zero_writeOpcode h0) (Memory.read_write_same _ _ _) rfl ha)
  refine ⟨_, hstep, rfl, hp, rfl, rfl, ?_, rfl, lengthReg_fits, rfl, rfl⟩
  show countAfter s.cfg.countW 1 ((s.bytesConsumed + 1) % 2 ^ s.cfg.countW) = _
  rw [countAfter_mod]

end Sys2Proof.Machine
end

section
/-! A command cut short (R42, R113, R115, R142, R144, R164): the bytes that came are in the buffer and
counted, and the event after them decides. -/

namespace Sys2Proof.Machine

/-- The four ways a source cuts a read short after the bytes `got`, `u` being the state with them
(R142, R144, R164). -/
theorem cutShort_events {evs : List InEvent} {got : List Byte} {u : State}
    {x : Host.Outcome State Fault Refusal}
    (h : ∀ r, evs = got.map .byte ++ r → (∀ b r', r ≠ .byte b :: r') → CutShort { u with input := r } r x) :
    (∀ r, evs = got.map .byte ++ .eos :: r →
      x = .next { u with input := r, errCode := .truncatedInput, phase := .error }) ∧
    (∀ e r, evs = got.map .byte ++ .err e :: r →
      x = .next { u with input := r, errCode := .ioFailure, ioErr := some e, phase := .error }) ∧
    (∀ r, evs = got.map .byte ++ .wait :: r → x = .next { u with input := r }) ∧
    (evs = got.map .byte → x = .next { u with input := [] }) := by
  refine ⟨fun r hin => ?_, fun e r hin => ?_, fun r hin => ?_, fun hin => ?_⟩
  · cases h _ hin (by simp); rfl
  · cases h _ hin (by simp); rfl
  · cases h _ hin (by simp); rfl
  · cases h [] (by simpa using hin) (by simp); rfl

/-- Off the bytes that came the buffer is as it was (R92). -/
theorem read_off_writeBody (m : Memory) {got : List Byte} {a : Nat} (ha : ¬(3 ≤ a ∧ a < 3 + got.length)) :
    (m.writeAll 3 got).read a = m.read a :=
  Memory.read_writeAll_other _ _ _ (by omega)

/-- Settles O26: the read of the body is the whole command until its last byte has come. -/
theorem fixedBodyCutShort : Obligations.FixedBodyCutShort := by
  intro s i o l got hi hcount hp hl
  have hcut : ∀ r, s.input = got.map .byte ++ r → (∀ b r', r ≠ .byte b :: r') →
      CutShort (bodyGot l (lengthReg s.cfg.lenW l.val) got r s) r (exec i s) := fun r hin hr => by
    rw [exec_fixed hp hi, fixedCommand_eq, hin]
    exact bodyPhase_bodyGot_cut (got := []) (by simpa using hl) hr
  rw [← countAfter_eq hcount]
  exact ⟨s.buf.writeAll 3 got, lengthReg s.cfg.lenW l.val, lengthReg_fits, Memory.holds_writeAll _ _ _,
    fun a ha => read_off_writeBody _ ha, cutShort_events (u := bodyGot l _ got [] s) hcut⟩

/-- Settles O28: the count is checked as soon as the header has come. -/
theorem embeddedCountOverCeilingIsFatal : Obligations.EmbeddedCountOverCeilingIsFatal := by
  intro s i o h0 h1 c rest hi hp hc hin
  have hexec := (exec_embedded hp hi).trans (embeddedCommand_over (r := rest) hc hin)
  refine ⟨s.buf.writeAll 3 [h0, h1, c], lengthReg s.cfg.lenW c.toNat, ?_, lengthReg_fits,
    Memory.holds_writeAll _ _ _, fun a ha => read_off_writeBody _ (by simp; omega)⟩
  rw [← countAfter_pos (by omega)]
  exact hexec

/-- Settles O29: the read of the header is the whole command until its third byte has come. -/
theorem embeddedHeaderCutShort : Obligations.EmbeddedHeaderCutShort := by
  intro s i o got hi hcount hp hl
  have hcut : ∀ r, s.input = got.map .byte ++ r → (∀ b r', r ≠ .byte b :: r') →
      CutShort (received got r { s with phase := .header, rdIdx := 3, rdRem := 3 }) r (exec i s) :=
    fun r hin hr => exec_embedded hp hi ▸ embeddedCommand_cut hl hin hr
  rw [← countAfter_eq hcount]
  exact ⟨s.buf.writeAll 3 got, Memory.holds_writeAll _ _ _, fun a ha => read_off_writeBody _ ha,
    cutShort_events (u := received got [] { s with phase := .header, rdIdx := 3, rdRem := 3 }) hcut⟩

/-- Settles O30: header and data are one body, and its read is held or cut short in the data. -/
theorem embeddedDataCutShort : Obligations.EmbeddedDataCutShort := by
  intro s i o h0 h1 c l got hi hp hl hgot
  have hcut : ∀ r, s.input = (h0 :: h1 :: c :: got).map .byte ++ r → (∀ b r', r ≠ .byte b :: r') →
      CutShort (bodyGot l (lengthReg s.cfg.lenW c.toNat) (h0 :: h1 :: c :: got) r s) r (exec i s) :=
    fun r hin hr => by
      rw [exec_embedded hp hi, embeddedCommand_eq hl (r := got.map .byte ++ r) (by simpa using hin)]
      exact bodyPhase_bodyGot_cut (got := [h0, h1, c]) (by simp; omega) hr
  have hlen : (h0 :: h1 :: c :: got).length = 3 + got.length := by simp; omega
  rw [show 6 + got.length = 3 + (h0 :: h1 :: c :: got).length by omega,
    show c.toNat - got.length = l.val - (h0 :: h1 :: c :: got).length by omega, Nat.add_assoc, ← hlen,
    ← countAfter_pos (by omega)]
  exact ⟨s.buf.writeAll 3 (h0 :: h1 :: c :: got), lengthReg s.cfg.lenW c.toNat, lengthReg_fits,
    Memory.holds_writeAll _ _ _, fun a ha => read_off_writeBody _ ha,
    cutShort_events (u := bodyGot l _ (h0 :: h1 :: c :: got) [] s) hcut⟩

end Sys2Proof.Machine
end

section
/-! The phase graph (R121), one event or answer at hand: what a step from each phase comes to. -/

namespace Sys2Proof.Machine

/-! ### From `FETCH` -/

/-- With a well-formed environment a step from a state of the invariant has a next state (R46). -/
theorem BlockInv.exists_step {s : State} (h : BlockInv s) (hin : .clash ∉ s.input) (ha : .clash ∉ s.answers) :
    ∃ t, step s = .next t := by
  rcases stepNeverFaults s h with ht | ⟨-, hc⟩ | ⟨-, hc⟩
  · exact ht
  · exact absurd hc hin
  · exact absurd hc ha

/-- A read with a byte still owed and none at hand is held in its phase (R164). -/
theorem headerPhase_held {s : State} (hrem : 1 ≤ s.rdRem) (hin : s.input = []) : headerPhase s = .next s := by
  simp [headerPhase, inResume_end hrem hin]

theorem bodyPhase_held {s : State} (hrem : 1 ≤ s.rdRem) (hin : s.input = []) : bodyPhase s = .next s := by
  simp [bodyPhase, inResume_end hrem hin]

/-- A body that owes no byte is sealed (R113, R115). -/
theorem bodyPhase_none {s : State} (hrem : s.rdRem = 0) : bodyPhase s = seqEmit s := by
  simp [bodyPhase, inResume, hrem]

/-- With a silent sink SEQ_EMIT seals the packet and is held in `EMIT` (R118, R164). -/
theorem seqEmit_silent {s : State} {op : Byte} {body : List Byte} (h0 : s.buf.read 0 = some startByte)
    (hl : body.length = s.l.val) (h2 : s.buf.holds 2 (op :: body)) (ha : s.answers = []) :
    seqEmit s = .next { s with
      crc := crc8 (op :: body), buf := sealedBuf s.buf op body, phase := .emit, outIdx := 0 } := by
  obtain ⟨-, -, -, hsilent⟩ := emitEnds_answers (a := s.answers) (j := 0)
    (u := { s with crc := crc8 (op :: body), buf := sealedBuf s.buf op body, phase := .emit, outIdx := 0 })
    (x := seqEmit s) fun r ha hr => by
      simpa using seqEmit_stopped h0 hl h2 (Nat.succ_pos _) ha hr
  rw [hsilent ha, ha]

/-- Settles O45: an error is raised, or the command is held in its first read or, with an empty body, in its
write. -/
theorem phaseGraphFromFetch : Obligations.PhaseGraphFromFetch := by
  intro s ev hinv hrst hp ha hin hne
  obtain ⟨t, ht⟩ := hinv.exists_step (by simpa [hin] using hne.symm) (by simp [ha])
  have hfetch : .next t = fetchCommand { s with rst := s.rst.tail } := ht.symm.trans (step_fetch hrst hp)
  refine ⟨t, ht, ?_, ?_, ?_⟩
  · rintro rfl
    obtain rfl := Host.Outcome.next.inj (hfetch.trans (fetchCommand_eos hp hin))
    rfl
  · rintro e rfl
    obtain rfl := Host.Outcome.next.inj (hfetch.trans (fetchCommand_err hin))
    exact ⟨rfl, rfl, rfl⟩
  · rintro o rfl
    refine ⟨fun hrule => ?_, fun n hrule => ?_, fun hrule => ?_⟩
    · obtain rfl := Host.Outcome.next.inj (hfetch.trans (fetchCommand_unknown hp hin hrule))
      exact ⟨rfl, rfl⟩
    · have hfixed := hfetch.trans (fetchCommand_fixed hp hin hrule)
      refine ⟨fun hn => ?_, fun hn => ?_, fun h1 h32 => ?_⟩
      · obtain rfl := Host.Outcome.next.inj (hfixed.trans (fixedCommand_out hn _))
        exact ⟨rfl, rfl⟩
      · subst hn
        have hread := hfixed.trans ((fixedCommand_eq 0 _).trans (bodyPhase_none rfl))
        obtain rfl := Host.Outcome.next.inj (hread.trans (seqEmit_silent
          (read_zero_writeOpcode hinv.startByteHeld) rfl (holds_writeBody (Memory.read_write_same _ _ _)) ha))
        rfl
      · obtain ⟨l, rfl⟩ : ∃ l : BodyLen, n = (l.val : Int) := ⟨⟨n.toNat, by omega⟩, by simp; omega⟩
        have hread := hfixed.trans (fixedCommand_eq l _)
        obtain rfl := Host.Outcome.next.inj (hread.trans (bodyPhase_held (by simp; omega) rfl))
        rfl
    · have hheader := hfetch.trans (fetchCommand_embedded hp hin hrule)
      obtain rfl := Host.Outcome.next.inj (hheader.trans (headerPhase_held (by simp [hdrLen]) rfl))
      rfl

/-! ### From the reading phases -/

/-- In a reading phase fewer bytes are at hand than the command owes: they are taken, and then `r` decides. -/
theorem BlockInv.advance_cut {s : State} {bs : List Byte} {r : List InEvent} (h : BlockInv s)
    (hp : s.phase = .header ∨ s.phase = .body) (hin : s.input = bs.map .byte ++ r)
    (hl : bs.length < s.rdRem) (hr : ∀ b r', r ≠ .byte b :: r') : CutShort (received bs r s) r (advance s) := by
  rcases hp with hp | hp
  · obtain ⟨-, h3, h6, -⟩ := h.inHeader hp
    rw [advance_header hp]
    exact headerPhase_cut hin hl (by omega) (by omega) hr
  · obtain ⟨-, h3, hend, -⟩ := h.inBody hp
    have h32 := s.l.isLt
    rw [advance_body hp]
    exact bodyPhase_cut hin hl (by omega) (by omega) hr

/-- The end of the stream and a failure of the source in the middle of a command (R142, R144). -/
theorem BlockInv.advance_ends {s t : State} (h : BlockInv s) (hp : s.phase = .header ∨ s.phase = .body)
    (ht : advance s = .next t) :
    (s.input = [.eos] → t = { s with input := [], phase := .error, errCode := .truncatedInput }) ∧
    ∀ e, s.input = [.err e] →
      t = { s with input := [], phase := .error, errCode := .ioFailure, ioErr := some e } := by
  have hcut : ∀ r, s.input = r → (∀ b r', r ≠ .byte b :: r') → CutShort (received [] r s) r (.next t) :=
    fun r hin hr => ht ▸ h.advance_cut (bs := []) hp hin (h.byteOwed hp) hr
  constructor
  · intro hin
    cases hcut _ hin (by simp)
    rfl
  · intro e hin
    cases hcut _ hin (by simp)
    rfl

/-- A byte that is not the last one owed goes to `BUF[RD_IDX]`, and the phase stays (R42). -/
theorem BlockInv.advance_byte {s : State} {b : Byte} (h : BlockInv s)
    (hp : s.phase = .header ∨ s.phase = .body) (hin : s.input = [.byte b]) (hrem : 1 < s.rdRem) :
    advance s = .next (received [b] [] s) := by
  have hcut := h.advance_cut (bs := [b]) (r := []) hp hin hrem (by simp)
  generalize advance s = x at hcut
  cases hcut
  rfl

/-- With the last header byte the count is resolved (R115). -/
theorem BlockInv.advance_count {s : State} {c : Byte} (h : BlockInv s) (hp : s.phase = .header)
    (hin : s.input = [.byte c]) (hrem : s.rdRem = 1) :
    s.rdIdx = 5 ∧ advance s = resolveCount (received [c] [] s) ∧ (received [c] [] s).buf.read 5 = some c := by
  obtain ⟨-, -, h6, -⟩ := h.inHeader hp
  have hidx : s.rdIdx = 5 := by omega
  refine ⟨hidx, ?_, by simp [hidx]⟩
  rw [advance_header hp]
  exact headerPhase_all hin hrem.symm (by omega) (by omega)

/-- A count over the ceiling (R64, R145). -/
theorem BlockInv.advance_countOver {s : State} {c : Byte} (h : BlockInv s) (hp : s.phase = .header)
    (hin : s.input = [.byte c]) (hrem : s.rdRem = 1) (hover : 29 < c.toNat) :
    advance s = .next { s with
      input := [], buf := s.buf.write s.rdIdx c, rdIdx := s.rdIdx + 1, rdRem := 0,
      bytesConsumed := (s.bytesConsumed + 1) % 2 ^ s.cfg.countW, curLength := lengthReg s.cfg.lenW c.toNat,
      phase := .error, errCode := .internalTableInconsistency } := by
  obtain ⟨-, hcount, hread⟩ := h.advance_count hp hin hrem
  rw [hcount, resolveCount_over hread hover]
  simp [received, raiseError, ErrClass.code, ErrClass.ioErrAfter, hrem, countAfter]

/-- A count in range that leaves data to read (R115). -/
theorem BlockInv.advance_countData {s : State} {c : Byte} {l : BodyLen} (h : BlockInv s)
    (hp : s.phase = .header) (hin : s.input = [.byte c]) (hrem : s.rdRem = 1) (hc : 1 ≤ c.toNat)
    (hl : c.toNat + 3 = l.val) :
    advance s = .next { s with
      input := [], buf := s.buf.write s.rdIdx c, rdIdx := s.rdIdx + 1, rdRem := c.toNat,
      bytesConsumed := (s.bytesConsumed + 1) % 2 ^ s.cfg.countW, curLength := lengthReg s.cfg.lenW c.toNat,
      l := l, phase := .body } := by
  obtain ⟨hidx, hcount, hread⟩ := h.advance_count hp hin hrem
  rw [hcount, resolveCount_in hread hl, bodyPhase_held hc rfl]
  simp [received, hidx, countAfter]

/-- The last byte of a body, `t` being the state with it in the buffer: the packet of what has been read is
sealed, and the silent sink holds it (R113, R115, R118). -/
theorem Reading.seqEmit_held {t : State} {body : List Byte} (h : Reading t body)
    (hl : body.length = t.l.val) (ha : t.answers = []) :
    (sealedBuf t.buf t.curOpcode body).holds 0 (frame t.curOpcode body) ∧
    seqEmit t = .next { t with
      crc := crc8 (t.curOpcode :: body), buf := sealedBuf t.buf t.curOpcode body, phase := .emit, outIdx := 0 } :=
  ⟨sealedBuf_holds h.startByteHeld h.holds, seqEmit_silent h.startByteHeld hl h.holds ha⟩

/-- A count of 0: the header is the whole body (R115, R118). -/
theorem BlockInv.advance_countZero {s : State} (h : BlockInv s) (hp : s.phase = .header)
    (hin : s.input = [.byte 0]) (hrem : s.rdRem = 1) (ha : s.answers = []) :
    ∃ body : List Byte, body.length = 3 ∧
      (sealedBuf (s.buf.write s.rdIdx 0) s.curOpcode body).holds 0 (frame s.curOpcode body) ∧
      advance s = .next { s with
        input := [], buf := sealedBuf (s.buf.write s.rdIdx 0) s.curOpcode body, rdIdx := s.rdIdx + 1, rdRem := 0,
        bytesConsumed := (s.bytesConsumed + 1) % 2 ^ s.cfg.countW, curLength := lengthReg s.cfg.lenW 0, l := 3,
        crc := crc8 (s.curOpcode :: body), outIdx := 0, phase := .emit } := by
  obtain ⟨hidx, hcount, hread⟩ := h.advance_count hp hin hrem
  obtain ⟨got, hr⟩ := h.exists_reading (.inl hp)
  have hlen : (got ++ [0#8]).length = 3 := by
    have := hr.next
    simp only [List.length_append, List.length_singleton]; omega
  have hbody := (hr.receive (bs := [0#8]) [] (by simp at hlen ⊢; omega)).beginBody (n := 0) (l := 3) (i := 6)
    (k := 0) (by omega) hlen
  obtain ⟨hholds, hemit⟩ := hbody.seqEmit_held hlen ha
  refine ⟨got ++ [0#8], hlen, hholds, ?_⟩
  refine hcount.trans ((resolveCount_in (l := 3) hread rfl).trans ((bodyPhase_none rfl).trans (hemit.trans ?_)))
  simp [received, hidx, countAfter]

/-- The last byte of a body (R113, R115, R118). -/
theorem BlockInv.advance_bodyLast {s : State} {b : Byte} (h : BlockInv s) (hp : s.phase = .body)
    (hin : s.input = [.byte b]) (hrem : s.rdRem = 1) (ha : s.answers = []) :
    ∃ body : List Byte, body.length = s.l.val ∧
      (sealedBuf (s.buf.write s.rdIdx b) s.curOpcode body).holds 0 (frame s.curOpcode body) ∧
      advance s = .next { s with
        input := [], buf := sealedBuf (s.buf.write s.rdIdx b) s.curOpcode body, rdIdx := s.rdIdx + 1, rdRem := 0,
        bytesConsumed := (s.bytesConsumed + 1) % 2 ^ s.cfg.countW,
        crc := crc8 (s.curOpcode :: body), outIdx := 0, phase := .emit } := by
  obtain ⟨-, h3, hend, -⟩ := h.inBody hp
  have h32 := s.l.isLt
  obtain ⟨got, hr⟩ := h.exists_reading (.inr hp)
  have hlen : (got ++ [b]).length = s.l.val := by
    have := hr.next
    simp only [List.length_append, List.length_singleton]; omega
  obtain ⟨hholds, hemit⟩ := (hr.receive (bs := [b]) [] (by simp at hlen ⊢; omega)).seqEmit_held hlen ha
  refine ⟨got ++ [b], hlen, hholds, ?_⟩
  rw [advance_body hp, bodyPhase_all (bs := [b]) (r := []) hin hrem.symm (by omega) (by omega), hemit]
  simp [received, hrem, countAfter]

/-- Settles O46: fewer bytes than are owed are stored and no more; the last one is the count, which is over
the ceiling, or 0, so that the packet is sealed at once, or leaves data to read. -/
theorem phaseGraphFromHeader : Obligations.PhaseGraphFromHeader := by
  intro s ev hinv hrst hp ha hin hne
  obtain ⟨t, ht⟩ := hinv.exists_step (by simpa [hin] using hne.symm) (by simp [ha])
  have hinv' : BlockInv { s with rst := s.rst.tail } := hinv.withRst _
  have hgo : .next t = advance { s with rst := s.rst.tail } := ht.symm.trans (step_noReset hrst)
  obtain ⟨heos, herr⟩ := hinv'.advance_ends (.inl hp) hgo.symm
  refine ⟨t, ht, fun hev => heos (hev ▸ hin), fun e hev => herr e (hev ▸ hin), ?_⟩
  rintro c rfl
  by_cases hzero : s.rdRem = 1 ∧ c = 0
  · obtain ⟨hrem, rfl⟩ := hzero
    obtain ⟨hidx, -, -⟩ := hinv.advance_count hp hin hrem
    obtain ⟨body, hl, hholds, hstep⟩ := hinv'.advance_countZero hp hin hrem ha
    obtain rfl := Host.Outcome.next.inj (hgo.trans hstep)
    have hoff : ∀ a, a ≠ 1 → a ≠ 6 → (sealedBuf (s.buf.write s.rdIdx 0) s.curOpcode body).read a =
        (s.buf.write s.rdIdx 0).read a := fun a h1 h6 => sealedBuf_read_other _ _ h1 (by omega)
    exact ⟨_, _, (hoff _ (by omega) (by omega)).trans (Memory.read_write_same _ _ _), lengthReg_fits,
      fun h => absurd ⟨hrem, rfl⟩ h, fun h => by omega, fun _ h => absurd h (by decide),
      fun _ _ => ⟨body, hl, hholds, fun a h0 h1 h6 =>
        (hoff a h1 h6).trans (Memory.read_write_other _ _ h0), rfl⟩,
      fun _ h => absurd h (by decide)⟩
  · refine ⟨s.buf.write s.rdIdx c, lengthReg s.cfg.lenW c.toNat, Memory.read_write_same _ _ _, lengthReg_fits,
      fun _ a h0 => Memory.read_write_other _ _ h0, fun hrem => ?_, fun hrem hover => ?_,
      fun hrem h0 => absurd ⟨hrem, h0⟩ hzero, fun hrem h1 h29 => ?_⟩
    · exact Host.Outcome.next.inj (hgo.trans (hinv'.advance_byte (.inl hp) hin hrem))
    · exact Host.Outcome.next.inj (hgo.trans (hinv'.advance_countOver hp hin hrem hover))
    · exact ⟨⟨c.toNat + 3, by omega⟩, rfl,
        Host.Outcome.next.inj (hgo.trans (hinv'.advance_countData hp hin hrem h1 rfl))⟩

/-- Settles O47: fewer bytes than are owed are stored and no more; the last one has the packet sealed. -/
theorem phaseGraphFromBody : Obligations.PhaseGraphFromBody := by
  intro s ev hinv hrst hp ha hin hne
  obtain ⟨t, ht⟩ := hinv.exists_step (by simpa [hin] using hne.symm) (by simp [ha])
  have hinv' : BlockInv { s with rst := s.rst.tail } := hinv.withRst _
  have hgo : .next t = advance { s with rst := s.rst.tail } := ht.symm.trans (step_noReset hrst)
  obtain ⟨heos, herr⟩ := hinv'.advance_ends (.inr hp) hgo.symm
  refine ⟨t, ht, fun hev => heos (hev ▸ hin), fun e hev => herr e (hev ▸ hin), ?_⟩
  rintro b rfl
  obtain ⟨hrem, h3, hend, -⟩ := hinv.inBody hp
  rcases hrem.eq_or_lt with hrem | hrem
  · obtain ⟨body, hl, hholds, hstep⟩ := hinv'.advance_bodyLast hp hin hrem.symm ha
    have hoff : ∀ a, a ≠ 1 → a ≠ 3 + s.l.val →
        (sealedBuf (s.buf.write s.rdIdx b) s.curOpcode body).read a = (s.buf.write s.rdIdx b).read a :=
      fun a h1 hc => sealedBuf_read_other _ _ h1 (hl ▸ hc)
    exact ⟨_, (hoff _ (by omega) (by omega)).trans (Memory.read_write_same _ _ _), fun h => by omega,
      fun _ => ⟨body, hl, hholds, fun a h0 h1 hc => (hoff a h1 hc).trans (Memory.read_write_other _ _ h0),
        Host.Outcome.next.inj (hgo.trans hstep)⟩⟩
  · exact ⟨s.buf.write s.rdIdx b, Memory.read_write_same _ _ _, fun _ =>
      ⟨fun a h0 => Memory.read_write_other _ _ h0,
        Host.Outcome.next.inj (hgo.trans (hinv'.advance_byte (.inr hp) hin hrem))⟩, fun h => by omega⟩

/-! ### From `EMIT` -/

/-- In `EMIT` a packet is in the buffer and the byte `b` of it at `OUT_IDX` is offered next (R97). -/
theorem BlockInv.exists_offered {s : State} (h : BlockInv s) (hp : s.phase = .emit) :
    ∃ (body : List Byte) (b : Byte), body.length = s.l.val ∧ s.buf.holds 0 (frame s.curOpcode body) ∧
      (frame s.curOpcode body)[s.outIdx]? = some b ∧
      (frame s.curOpcode body).drop s.outIdx = b :: (frame s.curOpcode body).drop (s.outIdx + 1) := by
  obtain ⟨hidx, -, body, hl, hv⟩ := h.inEmit hp
  have hlt : s.outIdx < (frame s.curOpcode body).length := by rw [frame_length, hl]; exact hidx
  exact ⟨body, _, hl, hv, List.getElem?_eq_getElem hlt, List.drop_eq_getElem_cons hlt⟩

/-- A step in `EMIT` with the byte `b` to offer and the bytes `bs` of the packet behind it (R44, R118). -/
theorem emitPhase_offer {s : State} {v bs : List Byte} {b : Byte} (hv : s.buf.holds 0 v)
    (hl : v.length = s.l.val + 4) (hdrop : v.drop s.outIdx = b :: bs) :
    (s.answers = [.accept] → bs ≠ [] → emitPhase s = .next (sent [b] [] s)) ∧
    (s.answers = [.accept] → bs = [] → emitPhase s = .next { sent [b] [] s with phase := .fetch }) ∧
    (s.answers = [.refuse] → emitPhase s = .next (raiseError .shortWrite { s with answers := [] })) ∧
    ∀ e, s.answers = [.err e] → emitPhase s = .next (raiseError (.ioFailure e) { s with answers := [] }) := by
  refine ⟨fun ha hbs => ?_, fun ha hbs => ?_, fun ha => ?_, fun e ha => ?_⟩
  · obtain ⟨b', bs, rfl⟩ := List.exists_cons_of_ne_nil hbs
    simp [emitPhase, outResume_eq hv hl, hdrop, outLoop_accept ha, outLoop_end (s := sent [b] [] s) rfl]
  · simp [emitPhase, outResume_eq hv hl, hdrop, hbs, outLoop_accept ha]
  · simp [emitPhase, outResume_eq hv hl, hdrop, outLoop_refuse ha]
  · simp [emitPhase, outResume_eq hv hl, hdrop, outLoop_err ha]

/-- Settles O48: the byte offered is the packet's at `OUT_IDX`, and the answer decides. -/
theorem phaseGraphFromEmit : Obligations.PhaseGraphFromEmit := by
  intro s a hinv hrst hp ha hne
  obtain ⟨hidx, -⟩ := hinv.inEmit hp
  obtain ⟨body, b, hl, hv, hb, hdrop⟩ := hinv.exists_offered hp
  have hlen : (frame s.curOpcode body).length = s.l.val + 4 := by rw [frame_length, hl]
  have hgo : step s = emitPhase { s with rst := s.rst.tail } := (step_noReset hrst).trans (advance_emit hp)
  obtain ⟨hmore, hlast, hrefuse, herr⟩ := emitPhase_offer (s := { s with rst := s.rst.tail }) hv hlen hdrop
  cases a with
  | accept =>
    rcases Nat.lt_or_ge s.outIdx (s.l.val + 3) with hlt | hge
    · have hbs : (frame s.curOpcode body).drop (s.outIdx + 1) ≠ [] := by
        rw [Ne, List.drop_eq_nil_iff]; omega
      exact ⟨_, hgo.trans (hmore ha hbs), fun _ => ⟨body, b, hl, hv, hb, fun _ => rfl, fun h => by omega⟩,
        nofun, nofun⟩
    · have hbs : (frame s.curOpcode body).drop (s.outIdx + 1) = [] := by
        rw [List.drop_eq_nil_iff]; omega
      exact ⟨_, hgo.trans (hlast ha hbs), fun _ => ⟨body, b, hl, hv, hb, fun h => by omega, fun _ => rfl⟩,
        nofun, nofun⟩
  | refuse => exact ⟨_, hgo.trans (hrefuse ha), nofun, fun _ => rfl, nofun⟩
  | err e => exact ⟨_, hgo.trans (herr e ha), nofun, nofun, fun _ h => by cases h; rfl⟩
  | wait =>
    have hheld := (hinv.withRst s.rst.tail).advance_emit_wait hp ha
    exact ⟨_, (step_noReset hrst).trans hheld, nofun, nofun, nofun⟩
  | clash => exact absurd rfl hne

end Sys2Proof.Machine
end

section
/-! The whole run (R122, R123, R146): from a command boundary a step and the whole-run function take the same
branch, and what a run without waits comes to, a run with waits comes to as well. -/

namespace Sys2Proof.Machine

/-! ### At a command boundary -/

/-- A running block at a command boundary whose source will give the bytes `bs` and then end by `t`, with `k`
bytes consumed; the last command had the opcode `o` and the length `n`. -/
structure Boundary (s : State) (t : Terminator) (bs : List Byte) (k : Nat) (o : Byte) (n : Int) : Prop where
  phase : s.phase = .fetch
  rst : s.rst = []
  startByteHeld : s.buf.read 0 = some startByte
  noCode : s.errCode = .none
  noIoErr : s.ioErr = none
  bytes : s.bytesConsumed = k % 2 ^ s.cfg.countW
  opcode : s.curOpcode = o
  length : s.curLength = lengthReg s.cfg.lenW n
  input : s.input = bs.map .byte ++ [t.event]

/-- The start of a run is a boundary, and so it is with the waits taken out (R122, R170). -/
theorem boundary_start {c : Config} {t : Terminator} {bs : List Byte} {evs : List InEvent}
    (ans : List OutAnswer) (hevs : evs.filter (· ≠ .wait) = bs.map .byte ++ [t.event]) :
    Boundary (State.start c evs ans).withoutWaits t bs 0 0x00 0 where
  phase := rfl
  rst := rfl
  startByteHeld := rfl
  noCode := rfl
  noIoErr := rfl
  bytes := (Nat.zero_mod _).symm
  opcode := rfl
  length := (lengthReg_fits (fitsSigned_zero _)).symm
  input := hevs

/-- The bytes of `body` are a whole body of the opcode `o` under the table, of the length `n` (R51, R52). -/
inductive Whole (c : Config) (o : Byte) : Int → List Byte → Prop
  | fixed (n : Int) (body : List Byte) (hrule : c.ruleOf o = some (.fixed n)) (hl : (body.length : Int) = n)
      (h32 : body.length ≤ 32) : Whole c o n body
  | embedded (h0 h1 n : Byte) (data : List Byte) (hrule : c.ruleOf o = some .embedded)
      (hl : data.length = n.toNat) (h29 : n.toNat ≤ 29) : Whole c o n.toNat (h0 :: h1 :: n :: data)

variable {s : State} {t : Terminator} {c : Config} {o po : Byte} {n pn : Int} {k m j fuel : Nat}
  {bs rest body : List Byte} {ans : List OutAnswer}

/-- A step at a boundary is the work of SEQ_FETCH (R111). -/
theorem Boundary.step_eq (h : Boundary s t bs k po pn) : step s = fetchCommand s :=
  (step_idle h.rst).trans (advance_fetch h.phase)

theorem Boundary.input_cons (h : Boundary s t (o :: rest) k po pn) :
    s.input = .byte o :: (rest.map .byte ++ [t.event]) := h.input

/-- With a whole body at hand the command is read and SEQ_EMIT sends its packet (R113, R115). -/
theorem Boundary.step_whole (h : Boundary s t (o :: (body ++ rest)) k po pn) (hw : Whole s.cfg o n body) :
    ∃ l : BodyLen, body.length = l.val ∧ step s =
      seqEmit (bodyGot l (lengthReg s.cfg.lenW n) body (rest.map .byte ++ [t.event])
        (fetched o ((body ++ rest).map .byte ++ [t.event]) s)) := by
  cases hw with
  | fixed n body hrule hl h32 =>
    obtain ⟨l, hlen⟩ : ∃ l : BodyLen, body.length = l.val := ⟨⟨body.length, by omega⟩, rfl⟩
    obtain rfl : (l.val : Int) = n := by omega
    refine ⟨l, hlen, ?_⟩
    rw [h.step_eq, fetchCommand_fixed h.phase h.input_cons hrule, fixedCommand_eq, fetched_input,
      List.map_append, List.append_assoc, bodyPhase_bodyGot (by simp [hlen])]
    rfl
  | embedded h0 h1 n data hrule hl h29 =>
    obtain ⟨l, hcount⟩ : ∃ l : BodyLen, n.toNat + 3 = l.val := ⟨⟨n.toNat + 3, by omega⟩, rfl⟩
    refine ⟨l, by simp; omega, ?_⟩
    rw [h.step_eq, fetchCommand_embedded h.phase h.input_cons hrule,
      embeddedCommand_eq (h0 := h0) (h1 := h1) hcount
        (r := data.map .byte ++ (rest.map .byte ++ [t.event])) (by simp),
      bodyPhase_bodyGot (by simp; omega)]
    rfl

/-- A sink that takes the packet brings the block to the next boundary (R118). -/
theorem Boundary.step_accepted (h : Boundary s t (o :: (body ++ rest)) k po pn) (hw : Whole s.cfg o n body)
    (ha : s.answers = List.replicate (body.length + 4) .accept ++ ans) :
    ∃ u, step s = .next u ∧ Boundary u t rest (k + body.length + 1) o n ∧ u.cfg = s.cfg ∧
      u.answers = ans ∧ u.output = s.output ++ frame o body := by
  obtain ⟨l, hl, hstep⟩ := h.step_whole hw
  have h0 : (s.buf.write 2 o).read 0 = some startByte := read_zero_writeOpcode h.startByteHeld
  have h2 : (s.buf.write 2 o).read 2 = some o := Memory.read_write_same _ _ _
  refine ⟨_, hstep.trans (seqEmit_bodyGot h.phase h0 h2 hl (hl ▸ ha)), ?_, rfl, rfl, rfl⟩
  have hbytes : countAfter s.cfg.countW l.val ((s.bytesConsumed + 1) % 2 ^ s.cfg.countW) =
      (k + body.length + 1) % 2 ^ s.cfg.countW := by
    rw [countAfter_mod, h.bytes, Nat.add_assoc, Nat.mod_add_mod, hl]
    congr 1; omega
  exact
    { phase := h.phase
      rst := h.rst
      startByteHeld := holds_packet h0 h2 0 (by simp)
      noCode := h.noCode
      noIoErr := h.noIoErr
      bytes := hbytes
      opcode := rfl
      length := rfl
      input := rfl }

/-- The class a sink's answer ends the run with, where it does (R142, R146). -/
def stopClass : OutAnswer → Option ErrClass
  | .refuse => some .shortWrite
  | .err e => some (.ioFailure e)
  | .accept => none
  | .wait => none
  | .clash => none

theorem EmitEnds.stopped {u : State} {a : OutAnswer} {x : ErrClass} {r : List OutAnswer}
    {y : Host.Outcome State Fault Refusal} (h : EmitEnds u (a :: r) y) (ha : stopClass a = some x) :
    y = .next (raiseError x { u with answers := r }) := by
  cases h <;> cases ha <;> rfl

/-- A sink that takes `j` bytes of the packet, not all, and then stops ends the run (R146). -/
theorem Boundary.step_stopped {a : OutAnswer} {x : ErrClass} (h : Boundary s t (o :: (body ++ rest)) k po pn)
    (hw : Whole s.cfg o n body) (hj : j < body.length + 4)
    (ha : s.answers = List.replicate j .accept ++ [a]) (hx : stopClass a = some x) :
    ∃ u, step s = .next u ∧ u.phase = .error ∧ u.output = s.output ++ (frame o body).take j ∧
      u.errCode = x.code ∧ u.ioErr = x.ioErrAfter none := by
  obtain ⟨l, hl, hstep⟩ := h.step_whole hw
  have hne : ∀ r', [a] ≠ .accept :: r' := by
    rintro r' hr
    obtain rfl : a = .accept := (List.cons.inj hr).1
    cases hx
  have hends := seqEmit_stopped (s := bodyGot l (lengthReg s.cfg.lenW n) body (rest.map .byte ++ [t.event])
      (fetched o ((body ++ rest).map .byte ++ [t.event]) s))
    (read_zero_writeBody (read_zero_writeOpcode h.startByteHeld)) hl
    (holds_writeBody (Memory.read_write_same _ _ _)) (hl ▸ hj) ha hne
  rw [← hstep] at hends
  exact ⟨_, hends.stopped hx, rfl, rfl, rfl, congrArg (x.ioErrAfter ·) h.noIoErr⟩

/-! ### The whole-run function -/

/-- `u` is the terminal state the result `r` speaks of, `out` being the output before (R122). -/
structure ShowsRun (c : Config) (out : List Byte) (r : RunResult) (u : State) : Prop where
  phase : u.phase = if r.errCode = .none then .done else .error
  output : u.output = out ++ r.output
  code : u.errCode = r.errCode
  opcode : u.curOpcode = r.opcode
  length : u.curLength = lengthReg c.lenW r.length
  bytes : u.bytesConsumed = r.bytes % 2 ^ c.countW
  ioErr : u.ioErr = r.ioErr

/-- A run that has come to its end is over. -/
theorem ShowsRun.terminal {out : List Byte} {r : RunResult} {u : State} (h : ShowsRun c out r u) :
    u.phase.terminal = true := by
  rw [h.phase]; split <;> rfl

/-- What the whole-run function says of the input `o :: rest` after `k` bytes, beside a step from the
boundary `s`: the run ends there with nothing put out, or a whole command comes and the run goes on. -/
inductive Follows (s : State) (t : Terminator) (fuel : Nat) (o : Byte) (rest : List Byte) (k : Nat) :
    RunResult → Prop
  | ends (u : State) (r : RunResult) (hstep : step s = .next u) (hu : ShowsRun s.cfg s.output r u)
      (hout : r.output = []) : Follows s t fuel o rest k r
  | command (n : Int) (body rest' : List Byte) (k' : Nat) (hw : Whole s.cfg o n body)
      (hrest : rest = body ++ rest') (hk : k' = k + body.length + 1) :
      Follows s t fuel o rest k { reframe s.cfg t fuel rest' k' o n with
        output := frame o body ++ (reframe s.cfg t fuel rest' k' o n).output }

/-- The step raises an error in a state `v` that has put out nothing. -/
theorem Follows.of_raise {v : State} {x : ErrClass} {b : Nat} (hstep : step s = .next (raiseError x v))
    (hout : v.output = s.output) (hio : v.ioErr = none) (hop : v.curOpcode = o)
    (hlen : v.curLength = lengthReg s.cfg.lenW n) (hbytes : v.bytesConsumed = b % 2 ^ s.cfg.countW) :
    Follows s t fuel o rest k ⟨[], x.code, o, n, b, x.ioErrAfter none⟩ :=
  .ends _ _ hstep
    { phase := by cases x <;> rfl
      output := by simpa using hout
      code := rfl
      opcode := hop
      length := hlen
      bytes := hbytes
      ioErr := congrArg (x.ioErrAfter ·) hio } rfl

/-- The step meets the end of the input in the middle of a command, in a state `v` (R122). -/
theorem Follows.of_cut {v : State} {b : Nat} {x : Host.Outcome State Fault Refusal} (hstep : step s = x)
    (hcut : CutShort v [t.event] x)
    (hout : v.output = s.output) (hio : v.ioErr = none) (hop : v.curOpcode = o)
    (hlen : v.curLength = lengthReg s.cfg.lenW n) (hbytes : v.bytesConsumed = b % 2 ^ s.cfg.countW) :
    Follows s t fuel o rest k ⟨[], t.cutCode, o, n, b, t.ioErr⟩ := by
  cases t with
  | eos => cases hcut; exact Follows.of_raise hstep hout hio hop hlen hbytes
  | err e => cases hcut; exact Follows.of_raise hstep hout hio hop hlen hbytes

theorem Terminator.event_ne_byte (t : Terminator) (b : Byte) (r : List InEvent) :
    [t.event] ≠ .byte b :: r := by
  cases t <;> simp [Terminator.event]

theorem exists_header (h : 3 ≤ bs.length) : ∃ h0 h1 n data, bs = h0 :: h1 :: n :: data := by
  rcases bs with _ | ⟨h0, _ | ⟨h1, _ | ⟨n, data⟩⟩⟩
  · simp at h
  · simp at h
  · simp at h
  · exact ⟨h0, h1, n, data, rfl⟩

/-- `BYTES_CONSUMED` once the opcode and `i` bytes more have been accepted (R42, R111). -/
theorem Boundary.bytes_after (h : Boundary s t bs k po pn) (i : Nat) :
    countAfter s.cfg.countW i ((s.bytesConsumed + 1) % 2 ^ s.cfg.countW) = (k + 1 + i) % 2 ^ s.cfg.countW := by
  rw [h.bytes, Nat.mod_add_mod, countAfter_mod]

/-- The branches of a command of format F (R122). -/
theorem Boundary.follows_fixed (h : Boundary s t (o :: rest) k po pn)
    (hrule : s.cfg.ruleOf o = some (.fixed n)) :
    Follows s t fuel o rest k (reframe s.cfg t (fuel + 1) (o :: rest) k po pn) := by
  have hstep := h.step_eq.trans (fetchCommand_fixed h.phase h.input_cons hrule)
  simp only [reframe, hrule]
  by_cases hn : n < 0 ∨ 32 < n
  · rw [if_pos hn]
    exact Follows.of_raise (hstep.trans (fixedCommand_out hn _)) rfl h.noIoErr rfl rfl (h.bytes_after 0)
  rw [if_neg hn]
  obtain ⟨l, rfl⟩ : ∃ l : BodyLen, n = (l.val : Int) := ⟨⟨n.toNat, by omega⟩, by simp; omega⟩
  have h32 := l.isLt
  simp only [Int.toNat_natCast]
  by_cases hcut : rest.length < l.val
  · rw [if_pos hcut]
    exact Follows.of_cut (hstep.trans (fixedCommand_eq l _))
      (bodyPhase_bodyGot_cut (got := []) (more := rest) (by simpa using hcut) t.event_ne_byte)
      rfl h.noIoErr rfl rfl (h.bytes_after _)
  · rw [if_neg hcut]
    have htake : (rest.take l.val).length = l.val := by rw [List.length_take]; omega
    exact .command _ (rest.take l.val) (rest.drop l.val) _ (.fixed _ _ hrule (by rw [htake]) (by omega))
      (List.take_append_drop _ _).symm (by rw [htake])

/-- The branches of a command of format E whose header has come (R122). -/
theorem Boundary.follows_header {h0 h1 c : Byte} {data : List Byte}
    (h : Boundary s t (o :: h0 :: h1 :: c :: data) k po pn) (hrule : s.cfg.ruleOf o = some .embedded) :
    Follows s t fuel o (h0 :: h1 :: c :: data) k
      (reframe s.cfg t (fuel + 1) (o :: h0 :: h1 :: c :: data) k po pn) := by
  have hstep := h.step_eq.trans (fetchCommand_embedded h.phase h.input_cons hrule)
  simp only [reframe, hrule, List.getD_cons_succ, List.getD_cons_zero, List.length_cons]
  rw [if_neg (by omega)]
  by_cases hover : 29 < c.toNat
  · rw [if_pos hover]
    exact Follows.of_raise (hstep.trans (embeddedCommand_over (h0 := h0) (h1 := h1) hover rfl))
      rfl h.noIoErr rfl rfl (h.bytes_after 3)
  rw [if_neg hover]
  obtain ⟨l, hl⟩ : ∃ l : BodyLen, c.toNat + 3 = l.val := ⟨⟨c.toNat + 3, by omega⟩, rfl⟩
  by_cases hcut : data.length + 1 + 1 + 1 < 3 + c.toNat
  · rw [if_pos hcut]
    exact Follows.of_cut (hstep.trans (embeddedCommand_eq (h0 := h0) (h1 := h1) hl rfl))
      (bodyPhase_bodyGot_cut (got := [h0, h1, c]) (more := data) (by simp; omega) t.event_ne_byte)
      rfl h.noIoErr rfl rfl (h.bytes_after _)
  · rw [if_neg hcut, Nat.add_comm 3]
    have htake : (data.take c.toNat).length = c.toNat := by rw [List.length_take]; omega
    exact .command _ (h0 :: h1 :: c :: data.take c.toNat) (data.drop c.toNat) _
      (.embedded h0 h1 c _ hrule htake (by omega)) (by simp) (by simp [htake]; omega)

/-- The step and the whole-run function take the same branch at every command (R122). -/
theorem Boundary.follows (h : Boundary s t (o :: rest) k po pn) :
    Follows s t fuel o rest k (reframe s.cfg t (fuel + 1) (o :: rest) k po pn) := by
  cases hrule : s.cfg.ruleOf o with
  | none =>
    have hstep := h.step_eq.trans (fetchCommand_unknown h.phase h.input_cons hrule)
    simp only [reframe, hrule]
    exact Follows.of_raise hstep rfl h.noIoErr rfl (lengthReg_fits (fitsSigned_zero _)).symm (h.bytes_after 0)
  | some rule =>
    cases rule with
    | fixed n => exact h.follows_fixed hrule
    | embedded =>
      by_cases hheader : rest.length < 3
      · have hstep := h.step_eq.trans (fetchCommand_embedded h.phase h.input_cons hrule)
        simp only [reframe, hrule, if_pos hheader]
        exact Follows.of_cut hstep (embeddedCommand_cut hheader rfl t.event_ne_byte) rfl h.noIoErr rfl
          (lengthReg_fits (fitsSigned_zero _)).symm (h.bytes_after _)
      · obtain ⟨h0, h1, c, data, rfl⟩ := exists_header (Nat.not_lt.1 hheader)
        exact h.follows_header hrule

theorem reframe_nil (c : Config) (t : Terminator) (fuel k : Nat) (o : Byte) (n : Int) :
    reframe c t fuel [] k o n = ⟨[], t.endCode, o, n, k, t.ioErr⟩ := by
  cases fuel <;> rfl

/-- The end of the input at a boundary ends the run (R119, R122). -/
theorem Boundary.step_end (h : Boundary s t [] k o n) :
    ∃ u, step s = .next u ∧ ShowsRun s.cfg s.output ⟨[], t.endCode, o, n, k, t.ioErr⟩ u := by
  have hstep := h.step_eq
  cases t with
  | eos =>
    rw [fetchCommand_eos h.phase h.input] at hstep
    exact ⟨_, hstep, rfl, (List.append_nil _).symm, h.noCode, h.opcode, h.length, h.bytes, h.noIoErr⟩
  | err e =>
    rw [fetchCommand_err h.input] at hstep
    exact ⟨_, hstep, rfl, (List.append_nil _).symm, rfl, h.opcode, h.length, h.bytes, rfl⟩

theorem Boundary.run_end (h : Boundary s t [] k o n) (fuel : Nat) :
    ∃ u, Host.Core.run core 1 s = .next u ∧ ShowsRun s.cfg s.output (reframe s.cfg t fuel [] k o n) u := by
  obtain ⟨u, hstep, hu⟩ := h.step_end
  exact ⟨u, run_succ_next hstep 0, by rwa [reframe_nil]⟩

/-! ### Runs without waits -/

/-- With a sink that accepts, the run comes to the end the whole-run function gives (R122). -/
theorem Boundary.run_accepted (h : Boundary s t bs k o n) (hf : bs.length ≤ fuel)
    (ha : s.answers = List.replicate m .accept)
    (hm : (reframe s.cfg t fuel bs k o n).output.length ≤ m) :
    ∃ i u, i ≤ bs.length + 1 ∧ Host.Core.run core i s = .next u ∧
      ShowsRun s.cfg s.output (reframe s.cfg t fuel bs k o n) u := by
  induction fuel generalizing s bs k o n m with
  | zero =>
    obtain rfl : bs = [] := List.length_eq_zero_iff.1 (by omega)
    obtain ⟨u, hrun, hu⟩ := h.run_end 0
    exact ⟨1, u, by simp, hrun, hu⟩
  | succ fuel ih =>
    match bs with
    | [] =>
      obtain ⟨u, hrun, hu⟩ := h.run_end (fuel + 1)
      exact ⟨1, u, by simp, hrun, hu⟩
    | o' :: rest =>
      have hfollows : Follows s t fuel o' rest k _ := h.follows
      generalize reframe s.cfg t (fuel + 1) (o' :: rest) k o n = r at hfollows hm ⊢
      cases hfollows with
      | ends u r hstep hu hout => exact ⟨1, u, by simp, run_succ_next hstep 0, hu⟩
      | command n' body rest' k' hw hrest hk =>
        subst hrest hk
        simp only [List.length_append, frame_length] at hm
        obtain ⟨v, hstep, hv, hcfg, hans, hout⟩ := h.step_accepted hw
          (ans := List.replicate (m - (body.length + 4)) .accept)
          (by rw [ha, List.replicate_append_replicate]; congr 1; omega)
        simp only [List.length_cons, List.length_append] at hf
        rw [← hcfg] at hm ⊢
        obtain ⟨i, u, hi, hrun, hu⟩ := ih hv (by omega) hans (by omega)
        refine ⟨i + 1, u, by simp; omega, (run_succ_next hstep i).trans hrun, ?_⟩
        exact { hu with output := by rw [hu.output, hout, List.append_assoc] }

/-- With a sink that takes `j` bytes, not all, and then stops, the run ends with exactly these out (R146). -/
theorem Boundary.run_stopped {a : OutAnswer} {x : ErrClass} (h : Boundary s t bs k o n)
    (hf : bs.length ≤ fuel) (ha : s.answers = List.replicate j .accept ++ [a]) (hx : stopClass a = some x)
    (hj : j < (reframe s.cfg t fuel bs k o n).output.length) :
    ∃ i u, i ≤ bs.length + 1 ∧ Host.Core.run core i s = .next u ∧ u.phase = .error ∧
      u.output = s.output ++ (reframe s.cfg t fuel bs k o n).output.take j ∧
      u.errCode = x.code ∧ u.ioErr = x.ioErrAfter none := by
  induction fuel generalizing s bs k o n j with
  | zero =>
    obtain rfl : bs = [] := List.length_eq_zero_iff.1 (by omega)
    exact absurd hj (Nat.not_lt_zero j)
  | succ fuel ih =>
    match bs with
    | [] => exact absurd hj (Nat.not_lt_zero j)
    | o' :: rest =>
      have hfollows : Follows s t fuel o' rest k _ := h.follows
      generalize reframe s.cfg t (fuel + 1) (o' :: rest) k o n = r at hfollows hj ⊢
      cases hfollows with
      | ends u r hstep hu hout => rw [hout] at hj; exact absurd hj (Nat.not_lt_zero j)
      | command n' body rest' k' hw hrest hk =>
        subst hrest hk
        have hframe : (frame o' body).length = body.length + 4 := frame_length _ _
        by_cases hpacket : j < body.length + 4
        · obtain ⟨u, hstep, hp, hout, herr⟩ := h.step_stopped hw hpacket ha hx
          exact ⟨1, u, by simp, run_succ_next hstep 0, hp,
            by rw [hout, List.take_append_of_le_length (by omega)], herr⟩
        · obtain ⟨j, rfl⟩ := Nat.exists_eq_add_of_le (Nat.not_lt.1 hpacket)
          obtain ⟨v, hstep, hv, hcfg, hans, hout⟩ := h.step_accepted hw
            (ans := List.replicate j .accept ++ [a])
            (by rw [ha, ← List.replicate_append_replicate, List.append_assoc])
          simp only [List.length_cons, List.length_append, hframe] at hf hj
          rw [← hcfg] at hj ⊢
          obtain ⟨i, u, hi, hrun, hp, hu, herr⟩ := ih hv (by omega) hans (by omega)
          refine ⟨i + 1, u, by simp; omega, (run_succ_next hstep i).trans hrun, hp, ?_, herr⟩
          rw [hu, hout, ← hframe, List.take_length_add_append, List.append_assoc]

/-- A clean input is reframed a command a step, and one step more ends the run (R123). -/
theorem Boundary.run_clean {cmds : List (Byte × List Byte)}
    (h : Boundary s .eos (cmds.flatMap fun x => x.1 :: x.2) k o n)
    (hcmds : ∀ x ∈ cmds, ∃ n, Whole s.cfg x.1 n x.2) (ha : s.answers = List.replicate m .accept)
    (hm : (cmds.flatMap fun x => x.1 :: x.2).length + 3 * cmds.length ≤ m) :
    ∃ u, Host.Core.run core (cmds.length + 1) s = .next u ∧ u.phase = .done ∧ u.errCode = .none ∧
      u.output = s.output ++ (cmds.flatMap fun x => frame x.1 x.2) ∧
      u.bytesConsumed = (k + (cmds.flatMap fun x => x.1 :: x.2).length) % 2 ^ s.cfg.countW := by
  induction cmds generalizing s k o n m with
  | nil =>
    obtain ⟨u, hstep, hu⟩ := h.step_end
    exact ⟨u, run_succ_next hstep 0, hu.phase, hu.code, hu.output, hu.bytes⟩
  | cons x cmds ih =>
    simp only [List.flatMap_cons, List.length_append, List.length_cons] at h hm ⊢
    obtain ⟨n', hw⟩ := hcmds x List.mem_cons_self
    obtain ⟨v, hstep, hv, hcfg, hans, hout⟩ := h.step_accepted hw
      (ans := List.replicate (m - (x.2.length + 4)) .accept)
      (by rw [ha, List.replicate_append_replicate]; congr 1; omega)
    obtain ⟨u, hrun, hp, hcode, hu, hbytes⟩ := ih hv
      (fun y hy => hcfg ▸ hcmds y (List.mem_cons_of_mem _ hy)) hans (by omega)
    refine ⟨u, (run_succ_next hstep _).trans hrun, hp, hcode, by rw [hu, hout, List.append_assoc], ?_⟩
    rw [hbytes, hcfg]
    congr 1; omega

/-! ### Runs with waits -/

/-- The waits of a start are those of its two lists, so a run that takes a step an event and a wait comes to
the end a run without waits comes to (log 2). -/
theorem exists_run_start {evs : List InEvent} {i : Nat} {u : State}
    (hr : Host.Core.run core i (State.start c evs ans).withoutWaits = .next u)
    (hu : u.phase.terminal = true) (hk : i + evs.count .wait + ans.count .wait ≤ k) :
    ∃ w, Host.Core.run core k (State.start c evs ans) = .next w ∧ w.withoutWaits = u :=
  (Ahead.level 0 rfl).run_to_terminal rfl rfl hr hu (by
    show i + (evs.count .wait + ans.count .wait) ≤ k
    omega)

/-- A list is as long as what is left of it without its waits, and its waits. -/
theorem length_events {evs : List InEvent} (hevs : evs.filter (· ≠ .wait) = bs.map .byte ++ [t.event]) :
    evs.length = bs.length + 1 + evs.count .wait := by
  have h := List.length_eq_length_filter_add (l := evs) (· ≠ .wait)
  rw [hevs] at h
  simp only [List.length_append, List.length_map, List.length_singleton] at h
  rw [h, List.count, List.countP_eq_length_filter]
  simp only [ne_eq, decide_not, Bool.not_not]
  rfl

/-- Settles O55: without waits, a step a command until the function's end; with them, the same end. -/
theorem wholeRunIsTheReframing : Obligations.WholeRunIsTheReframing := by
  intro c t bs evs ans m k hevs hans hm hk
  have hlen := length_events hevs
  obtain ⟨i, u, hi, hrun, hu⟩ := (boundary_start (c := c) ans hevs).run_accepted le_rfl hans hm
  obtain ⟨w, hw, rfl⟩ := exists_run_start hrun hu.terminal (k := k) (by omega)
  exact ⟨w, hw, hu.output, hu.code, hu.phase, hu.opcode, hu.length, hu.bytes, hu.ioErr⟩

/-- Settles O56: the sink's last answer tells the class, and the packet it stops is the run's at that byte. -/
theorem stoppedSinkLeavesPrefixOfTheRun : Obligations.StoppedSinkLeavesPrefixOfTheRun := by
  intro c t bs evs ans j k hevs hj hk
  have hlen := length_events hevs
  have hstop : ∀ a x, stopClass a = some x → ans.filter (· ≠ .wait) = List.replicate j .accept ++ [a] →
      ∃ u, Host.Core.run core k (State.start c evs ans) = .next u ∧
        u.output = (reframeAll c t bs).output.take j ∧ u.phase = .error ∧ u.errCode = x.code ∧
        u.ioErr = x.ioErrAfter none := fun a x hx hans => by
    obtain ⟨i, u, hi, hrun, hp, hout, hcode, hio⟩ :=
      (boundary_start (c := c) ans hevs).run_stopped le_rfl hans hx hj
    obtain ⟨w, hw, rfl⟩ := exists_run_start hrun (by rw [hp]; rfl) (k := k) (by omega)
    exact ⟨w, hw, hout, hp, hcode, hio⟩
  refine ⟨fun hans => ?_, fun e hans => hstop (.err e) (.ioFailure e) rfl hans⟩
  obtain ⟨u, hrun, hout, hp, hcode, -⟩ := hstop .refuse .shortWrite rfl hans
  exact ⟨u, hrun, hout, hp, hcode⟩

/-- A packet is 3 bytes longer than its command (R123). -/
theorem length_packets (cmds : List (Byte × List Byte)) :
    (cmds.flatMap fun x => frame x.1 x.2).length =
      (cmds.flatMap fun x => x.1 :: x.2).length + 3 * cmds.length := by
  induction cmds with
  | nil => rfl
  | cons x cmds ih => simp only [List.flatMap_cons, List.length_append, ih, frame_length, List.length_cons]; omega

/-- Settles O57: without waits, a step a command and one for the end of stream; with them, the same end. -/
theorem cleanRunEmitsOnePacketPerCommand : Obligations.CleanRunEmitsOnePacketPerCommand := by
  intro c cmds evs ans m k hcmds hevs hans hm hk
  have hwhole : ∀ x ∈ cmds, ∃ n, Whole c x.1 n x.2 := fun x hx => by
    rcases hcmds x hx with ⟨hrule, h32⟩ | ⟨hrule, h0, h1, n, data, hx2, hl, h29⟩
    · exact ⟨_, .fixed _ _ hrule rfl h32⟩
    · rw [hx2]; exact ⟨_, .embedded h0 h1 n data hrule hl h29⟩
  obtain ⟨u, hrun, hp, hcode, hout, hbytes⟩ :=
    (boundary_start (c := c) (t := .eos) ans hevs).run_clean hwhole hans hm
  obtain ⟨w, hw, rfl⟩ := exists_run_start hrun (by rw [hp]; rfl) (k := k) (by omega)
  refine ⟨w, hw, hp, hcode, hout, ?_, hbytes.trans (by rw [Nat.zero_add]; rfl)⟩
  rw [show w.output = _ from hout]
  exact length_packets cmds

end Sys2Proof.Machine
end

section
/-! The end of a run (R121, R155, R170): a terminal phase stands still, and a reset begins afresh. -/

namespace Sys2Proof.Machine

/-- "A reset starts the block afresh": of the state before it there stay the parameters, the streams and the
reset line (R170, R171). -/
theorem applyReset_eq_reset (s : State) : applyReset s = { State.reset with
    cfg := s.cfg, input := s.input, answers := s.answers, rst := s.rst, output := s.output } := rfl

/-- Settles O34: a step without a reset is `advance`, which leaves a terminal phase as it is, once and in
every run; with one it is the reset alone. -/
theorem terminalPhasesAreAbsorbing : Obligations.TerminalPhasesAreAbsorbing := by
  intro s ht
  refine ⟨fun hrst => ?_, fun hrst => run_terminal ht hrst, fun r hr => ?_⟩
  · have hgo : advance { s with rst := s.rst.tail } = .next { s with rst := s.rst.tail } := advance_terminal ht
    exact (step_noReset hrst).trans hgo
  · rw [step_reset hr, applyReset_eq_reset]

end Sys2Proof.Machine
end

section
/-! Reset (R170, R171, R172): the state it gives, what the block does next, and the invariant's base. -/

namespace Sys2Proof.Machine

/-- After a reset the buffer holds its start byte and nothing else (R170, R12). -/
theorem reset_buf_read (a : Nat) : State.reset.buf.read a = if a = 0 then some startByte else none :=
  Memory.read_cons ..

/-- Where a command may begin, a step without a reset is SEQ_FETCH (R111). -/
theorem step_eq_exec_seqFetch {s : State} (hrst : s.noReset) (hp : s.phase = .fetch) :
    step s = exec .seqFetch { s with rst := s.rst.tail } :=
  (step_fetch hrst hp).trans (exec_seqFetch (s := { s with rst := s.rst.tail }) hp).symm

/-- Settles O36: a reset in any phase is the reset state under the block's own parameters and streams, and
its phase is `FETCH`, where the next step is SEQ_FETCH. -/
theorem resetGivesTheResetState : Obligations.ResetGivesTheResetState := by
  intro s r hr
  have hstep : step s = .next (applyReset { s with rst := r }) := step_reset hr
  refine ⟨by rw [hstep, applyReset_eq_reset], fun t ht hrst => ?_, rfl,
    fun a ha => by rw [reset_buf_read, if_neg ha],
    rfl, rfl, rfl, rfl, rfl, rfl, rfl, rfl, rfl, rfl, rfl, rfl, rfl⟩
  obtain rfl : applyReset { s with rst := r } = t := by simpa [hstep] using ht
  exact step_eq_exec_seqFetch hrst (applyReset_phase _)

/-- Settles O37: the reset state is what a reset gives from itself. -/
theorem resetMeetsTheInvariant : Obligations.ResetMeetsTheInvariant :=
  blockInv_applyReset State.reset

end Sys2Proof.Machine
end
